-- ==== Sys2Proof/Word.lean ====
section
/-! DEFINITION. The word types of RVEMU-CORE: 32-bit registers, addresses and CSRs (00_scope.md R13), 8-bit bytes, 5-bit
register numbers, 12-bit CSR numbers, 2-bit privilege fields. -/

namespace Sys2Proof

/-- `u32` of 00_scope.md R13: a register, a CSR word, an address or an instruction word. -/
abbrev Word := BitVec 32

/-- The unit of memory (20_memory.md R60). -/
abbrev Byte := BitVec 8

/-- A general register number, the 5-bit fields `rd`, `rs1`, `rs2` (30_encoding.md R91). -/
abbrev Reg := BitVec 5

/-- A CSR number, 12 bits (10_state.md R36). -/
abbrev CsrNum := BitVec 12

/-- A privilege field: 0 User, 1 Supervisor, 2 reserved but storable, 3 Machine (10_state.md R35). Kept as bits because
`mstatus` shows MPP as bits 12:11. -/
abbrev Priv := BitVec 2

end Sys2Proof
end

