-- ==== Sys2Proof/WellFormed.lean ====
section
/-! DEFINITION. Which instructions an instruction word can stand for: bit 0 of `imm_b` and of `imm_j` is always 0
(30_encoding.md R96, R98). Every other field is free within its width. -/

namespace Sys2Proof

/-- Branch and jump offsets are even (30_encoding.md R96, R98, R100). -/
def Instr.wf : Instr → Bool
  | .beq _ _ imm | .bne _ _ imm | .blt _ _ imm | .bge _ _ imm | .bltu _ _ imm | .bgeu _ _ imm => !imm.getLsbD 0
  | .jal _ imm => !imm.getLsbD 0
  | .lb .. | .lh .. | .lw .. | .lbu .. | .lhu .. | .sb .. | .sh .. | .sw .. => true
  | .addi .. | .sltiu .. | .xori .. | .ori .. | .andi .. | .slli .. | .srli .. | .srai .. => true
  | .add .. | .sub .. | .sll .. | .slt .. | .sltu .. | .xor .. | .srl .. | .sra .. | .or .. | .and .. => true
  | .mul .. | .mulh .. | .mulhu .. | .div .. | .divu .. | .rem .. | .remu .. => true
  | .lrW .. | .scW .. | .amoaddW .. | .amoorW .. => true
  | .lui .. | .auipc .. | .jalr .. => true
  | .csrrw .. | .csrrs .. | .csrrc .. | .csrrwi .. | .csrrsi .. | .csrrci .. => true
  | .ecall | .ebreak | .mret | .fence .. => true

end Sys2Proof
end

