-- ==== Sys2Proof/Decode.lean ====
section
/-! DEFINITION. The decoder and the encoder (30_encoding.md).

The decoder is total: two-level dispatch on the opcode, then on funct3, funct7, funct5, the shift selector or the whole
word (R103). What matches no row is rejected by name (R117). The encoder places the same fields (R92 to R98). The opcode
table stands beside them as masks and patterns, for R110. -/

namespace Sys2Proof

/-! ## Fields of a word (R91 to R98) -/

def opcodeField (w : Word) : BitVec 7 := w.extractLsb' 0 7
def rdField (w : Word) : Reg := w.extractLsb' 7 5
def funct3Field (w : Word) : BitVec 3 := w.extractLsb' 12 3
def rs1Field (w : Word) : Reg := w.extractLsb' 15 5
def rs2Field (w : Word) : Reg := w.extractLsb' 20 5
def funct7Field (w : Word) : BitVec 7 := w.extractLsb' 25 7
def funct5Field (w : Word) : BitVec 5 := w.extractLsb' 27 5
def aqField (w : Word) : Bool := w.getLsbD 26
def rlField (w : Word) : Bool := w.getLsbD 25

/-- `imm_i = inst[31:20]` (R94). -/
def immIField (w : Word) : BitVec 12 := w.extractLsb' 20 12

/-- `imm_s = {inst[31:25], inst[11:7]}` (R95). -/
def immSField (w : Word) : BitVec 12 := w.extractLsb' 25 7 ++ w.extractLsb' 7 5

/-- `imm_b = {inst[31], inst[7], inst[30:25], inst[11:8], 0}` (R96). -/
def immBField (w : Word) : BitVec 13 :=
  w.extractLsb' 31 1 ++ w.extractLsb' 7 1 ++ w.extractLsb' 25 6 ++ w.extractLsb' 8 4 ++ 0#1

/-- `imm_u = inst[31:12]` (R97). -/
def immUField (w : Word) : BitVec 20 := w.extractLsb' 12 20

/-- `imm_j = {inst[31], inst[19:12], inst[20], inst[30:21], 0}` (R98). -/
def immJField (w : Word) : BitVec 21 :=
  w.extractLsb' 31 1 ++ w.extractLsb' 12 8 ++ w.extractLsb' 20 1 ++ w.extractLsb' 21 10 ++ 0#1

/-! ## Second-level dispatch (R103, R112 to R116) -/

/-- LOAD, opcode 0x03 (R112, R139). -/
def decodeLoad (w : Word) : Option Instr :=
  let f3 := funct3Field w
  if f3 = 0b000#3 then some (.lb (rdField w) (rs1Field w) (immIField w))
  else if f3 = 0b001#3 then some (.lh (rdField w) (rs1Field w) (immIField w))
  else if f3 = 0b010#3 then some (.lw (rdField w) (rs1Field w) (immIField w))
  else if f3 = 0b100#3 then some (.lbu (rdField w) (rs1Field w) (immIField w))
  else if f3 = 0b101#3 then some (.lhu (rdField w) (rs1Field w) (immIField w))
  else none

/-- STORE, opcode 0x23 (R112, R139). -/
def decodeStore (w : Word) : Option Instr :=
  let f3 := funct3Field w
  if f3 = 0b000#3 then some (.sb (rs1Field w) (rs2Field w) (immSField w))
  else if f3 = 0b001#3 then some (.sh (rs1Field w) (rs2Field w) (immSField w))
  else if f3 = 0b010#3 then some (.sw (rs1Field w) (rs2Field w) (immSField w))
  else none

/-- OP-IMM, opcode 0x13: the shifts also check `imm_i[11:5]` (R112, R113); funct3 010 (SLTI) is absent (R159). -/
def decodeOpImm (w : Word) : Option Instr :=
  let f3 := funct3Field w
  let selector := funct7Field w
  if f3 = 0b000#3 then some (.addi (rdField w) (rs1Field w) (immIField w))
  else if f3 = 0b011#3 then some (.sltiu (rdField w) (rs1Field w) (immIField w))
  else if f3 = 0b100#3 then some (.xori (rdField w) (rs1Field w) (immIField w))
  else if f3 = 0b110#3 then some (.ori (rdField w) (rs1Field w) (immIField w))
  else if f3 = 0b111#3 then some (.andi (rdField w) (rs1Field w) (immIField w))
  else if f3 = 0b001#3 then
    if selector = 0x00#7 then some (.slli (rdField w) (rs1Field w) (rs2Field w)) else none
  else if f3 = 0b101#3 then
    if selector = 0x00#7 then some (.srli (rdField w) (rs1Field w) (rs2Field w))
    else if selector = 0x20#7 then some (.srai (rdField w) (rs1Field w) (rs2Field w))
    else none
  else none

/-- OP with funct7 0x00 (R112). -/
def decodeOpBase (w : Word) : Option Instr :=
  let f3 := funct3Field w
  if f3 = 0b000#3 then some (.add (rdField w) (rs1Field w) (rs2Field w))
  else if f3 = 0b001#3 then some (.sll (rdField w) (rs1Field w) (rs2Field w))
  else if f3 = 0b010#3 then some (.slt (rdField w) (rs1Field w) (rs2Field w))
  else if f3 = 0b011#3 then some (.sltu (rdField w) (rs1Field w) (rs2Field w))
  else if f3 = 0b100#3 then some (.xor (rdField w) (rs1Field w) (rs2Field w))
  else if f3 = 0b101#3 then some (.srl (rdField w) (rs1Field w) (rs2Field w))
  else if f3 = 0b110#3 then some (.or (rdField w) (rs1Field w) (rs2Field w))
  else some (.and (rdField w) (rs1Field w) (rs2Field w))

/-- OP with funct7 0x20 (R112, R116, R181). -/
def decodeOpAlt (w : Word) : Option Instr :=
  let f3 := funct3Field w
  if f3 = 0b000#3 then some (.sub (rdField w) (rs1Field w) (rs2Field w))
  else if f3 = 0b101#3 then some (.sra (rdField w) (rs1Field w) (rs2Field w))
  else none

/-- OP with funct7 0x01; funct3 010 (MULHSU) is absent (R112, R198). -/
def decodeMulDiv (w : Word) : Option Instr :=
  let f3 := funct3Field w
  if f3 = 0b000#3 then some (.mul (rdField w) (rs1Field w) (rs2Field w))
  else if f3 = 0b001#3 then some (.mulh (rdField w) (rs1Field w) (rs2Field w))
  else if f3 = 0b011#3 then some (.mulhu (rdField w) (rs1Field w) (rs2Field w))
  else if f3 = 0b100#3 then some (.div (rdField w) (rs1Field w) (rs2Field w))
  else if f3 = 0b101#3 then some (.divu (rdField w) (rs1Field w) (rs2Field w))
  else if f3 = 0b110#3 then some (.rem (rdField w) (rs1Field w) (rs2Field w))
  else if f3 = 0b111#3 then some (.remu (rdField w) (rs1Field w) (rs2Field w))
  else none

/-- OP, opcode 0x33 (R116). -/
def decodeOp (w : Word) : Option Instr :=
  let f7 := funct7Field w
  if f7 = 0x00#7 then decodeOpBase w
  else if f7 = 0x20#7 then decodeOpAlt w
  else if f7 = 0x01#7 then decodeMulDiv w
  else none

/-- AMO, opcode 0x2F: word width only, LR.W requires `rs2 = 0`, `aq` and `rl` are free (R115). -/
def decodeAmo (w : Word) : Option Instr :=
  let f5 := funct5Field w
  if funct3Field w = 0b010#3 then
    if f5 = 0b00010#5 then
      if rs2Field w = 0#5 then some (.lrW (rdField w) (rs1Field w) (aqField w) (rlField w)) else none
    else if f5 = 0b00011#5 then some (.scW (rdField w) (rs1Field w) (rs2Field w) (aqField w) (rlField w))
    else if f5 = 0b00000#5 then some (.amoaddW (rdField w) (rs1Field w) (rs2Field w) (aqField w) (rlField w))
    else if f5 = 0b01000#5 then some (.amoorW (rdField w) (rs1Field w) (rs2Field w) (aqField w) (rlField w))
    else none
  else none

/-- BRANCH, opcode 0x63 (R112, R237). -/
def decodeBranch (w : Word) : Option Instr :=
  let f3 := funct3Field w
  if f3 = 0b000#3 then some (.beq (rs1Field w) (rs2Field w) (immBField w))
  else if f3 = 0b001#3 then some (.bne (rs1Field w) (rs2Field w) (immBField w))
  else if f3 = 0b100#3 then some (.blt (rs1Field w) (rs2Field w) (immBField w))
  else if f3 = 0b101#3 then some (.bge (rs1Field w) (rs2Field w) (immBField w))
  else if f3 = 0b110#3 then some (.bltu (rs1Field w) (rs2Field w) (immBField w))
  else if f3 = 0b111#3 then some (.bgeu (rs1Field w) (rs2Field w) (immBField w))
  else none

/-- SYSTEM, opcode 0x73: with funct3 000 the whole word counts (R114), otherwise the CSR forms (R112, R283). -/
def decodeSystem (w : Word) : Option Instr :=
  let f3 := funct3Field w
  if f3 = 0b000#3 then
    if w = 0x00000073#32 then some .ecall
    else if w = 0x00100073#32 then some .ebreak
    else if w = 0x30200073#32 then some .mret
    else none
  else if f3 = 0b001#3 then some (.csrrw (rdField w) (rs1Field w) (immIField w))
  else if f3 = 0b010#3 then some (.csrrs (rdField w) (rs1Field w) (immIField w))
  else if f3 = 0b011#3 then some (.csrrc (rdField w) (rs1Field w) (immIField w))
  else if f3 = 0b101#3 then some (.csrrwi (rdField w) (rs1Field w) (immIField w))
  else if f3 = 0b110#3 then some (.csrrsi (rdField w) (rs1Field w) (immIField w))
  else if f3 = 0b111#3 then some (.csrrci (rdField w) (rs1Field w) (immIField w))
  else none

/-! ## The decoder -/

/-- The row of a word, by its major opcode (R111); `none` where no row matches. -/
def decodeWord (w : Word) : Option Instr :=
  let op := opcodeField w
  if op = 0x03#7 then decodeLoad w
  else if op = 0x0F#7 then
    if funct3Field w = 0b000#3 then some (.fence (rdField w) (rs1Field w) (immIField w)) else none
  else if op = 0x13#7 then decodeOpImm w
  else if op = 0x17#7 then some (.auipc (rdField w) (immUField w))
  else if op = 0x23#7 then decodeStore w
  else if op = 0x2F#7 then decodeAmo w
  else if op = 0x33#7 then decodeOp w
  else if op = 0x37#7 then some (.lui (rdField w) (immUField w))
  else if op = 0x63#7 then decodeBranch w
  else if op = 0x67#7 then
    if funct3Field w = 0b000#3 then some (.jalr (rdField w) (rs1Field w) (immIField w)) else none
  else if op = 0x6F#7 then some (.jal (rdField w) (immJField w))
  else if op = 0x73#7 then decodeSystem w
  else none

/-- Why bytes are no instruction: a word that matches no row (R117), or fewer than the four bytes of a word (log 18). -/
inductive DecodeReject where
  | unimplemented (inst : Word)
  | truncated
  deriving DecidableEq, Repr

/-- R110 with R117: the instruction of a word, or the rejection that names the word. -/
def decode (w : Word) : Except DecodeReject Instr :=
  match decodeWord w with
  | some i => .ok i
  | none => .error (.unimplemented w)

/-- Little-endian composition of bytes, the lowest address first (20_memory.md R68). -/
def leWord : List Byte → Word
  | [] => 0#32
  | b :: bs => b.setWidth 32 ||| (leWord bs <<< 8)

/-- The `n` low bytes of a word, the lowest address first (00_scope.md R15: byte `k` is `v[8k+7:8k]`). -/
def leBytes : Nat → Word → List Byte
  | 0, _ => []
  | n + 1, v => v.setWidth 8 :: leBytes n (v >>> 8)

/-- The instruction at the front of a byte string, with the bytes after it. Every instruction is four bytes (R90). -/
def decodeBytes : List Byte → Except DecodeReject (Instr × List Byte)
  | b0 :: b1 :: b2 :: b3 :: rest =>
    match decode (leWord [b0, b1, b2, b3]) with
    | .ok i => .ok (i, rest)
    | .error e => .error e
  | _ => .error .truncated

/-- The instruction the decoder reads from an opcode-table row's bits `w`, `nbits` of them; the bits above are 0. No
instruction is longer than 32 bits (R90). -/
def decodeTableWord (nbits w : Nat) : Option Instr :=
  if 32 < nbits then none
  else
    match decodeBytes (leBytes 4 (BitVec.ofNat 32 (w % 2 ^ nbits))) with
    | .ok (i, _) => some i
    | .error _ => none

/-! ## The encoder (R92 to R98) -/

def encodeR (funct7 : BitVec 7) (rs2 rs1 : Reg) (funct3 : BitVec 3) (rd : Reg) (opcode : BitVec 7) : Word :=
  funct7 ++ rs2 ++ rs1 ++ funct3 ++ rd ++ opcode

def encodeAmo (funct5 : BitVec 5) (aq rl : Bool) (rs2 rs1 rd : Reg) : Word :=
  funct5 ++ BitVec.ofBool aq ++ BitVec.ofBool rl ++ rs2 ++ rs1 ++ 0b010#3 ++ rd ++ 0x2F#7

def encodeI (imm : BitVec 12) (rs1 : Reg) (funct3 : BitVec 3) (rd : Reg) (opcode : BitVec 7) : Word :=
  imm ++ rs1 ++ funct3 ++ rd ++ opcode

def encodeS (imm : BitVec 12) (rs2 rs1 : Reg) (funct3 : BitVec 3) : Word :=
  imm.extractLsb' 5 7 ++ rs2 ++ rs1 ++ funct3 ++ imm.extractLsb' 0 5 ++ 0x23#7

def encodeB (imm : BitVec 13) (rs2 rs1 : Reg) (funct3 : BitVec 3) : Word :=
  imm.extractLsb' 12 1 ++ imm.extractLsb' 5 6 ++ rs2 ++ rs1 ++ funct3 ++ imm.extractLsb' 1 4 ++ imm.extractLsb' 11 1
    ++ 0x63#7

def encodeU (imm : BitVec 20) (rd : Reg) (opcode : BitVec 7) : Word :=
  imm ++ rd ++ opcode

def encodeJ (imm : BitVec 21) (rd : Reg) : Word :=
  imm.extractLsb' 20 1 ++ imm.extractLsb' 1 10 ++ imm.extractLsb' 11 1 ++ imm.extractLsb' 12 8 ++ rd ++ 0x6F#7

/-- The word of an instruction (R92 to R98, R111 to R116). -/
def encode : Instr → Word
  | .lb rd rs1 imm => encodeI imm rs1 0b000#3 rd 0x03#7
  | .lh rd rs1 imm => encodeI imm rs1 0b001#3 rd 0x03#7
  | .lw rd rs1 imm => encodeI imm rs1 0b010#3 rd 0x03#7
  | .lbu rd rs1 imm => encodeI imm rs1 0b100#3 rd 0x03#7
  | .lhu rd rs1 imm => encodeI imm rs1 0b101#3 rd 0x03#7
  | .sb rs1 rs2 imm => encodeS imm rs2 rs1 0b000#3
  | .sh rs1 rs2 imm => encodeS imm rs2 rs1 0b001#3
  | .sw rs1 rs2 imm => encodeS imm rs2 rs1 0b010#3
  | .addi rd rs1 imm => encodeI imm rs1 0b000#3 rd 0x13#7
  | .sltiu rd rs1 imm => encodeI imm rs1 0b011#3 rd 0x13#7
  | .xori rd rs1 imm => encodeI imm rs1 0b100#3 rd 0x13#7
  | .ori rd rs1 imm => encodeI imm rs1 0b110#3 rd 0x13#7
  | .andi rd rs1 imm => encodeI imm rs1 0b111#3 rd 0x13#7
  | .slli rd rs1 shamt => encodeR 0x00#7 shamt rs1 0b001#3 rd 0x13#7
  | .srli rd rs1 shamt => encodeR 0x00#7 shamt rs1 0b101#3 rd 0x13#7
  | .srai rd rs1 shamt => encodeR 0x20#7 shamt rs1 0b101#3 rd 0x13#7
  | .add rd rs1 rs2 => encodeR 0x00#7 rs2 rs1 0b000#3 rd 0x33#7
  | .sub rd rs1 rs2 => encodeR 0x20#7 rs2 rs1 0b000#3 rd 0x33#7
  | .sll rd rs1 rs2 => encodeR 0x00#7 rs2 rs1 0b001#3 rd 0x33#7
  | .slt rd rs1 rs2 => encodeR 0x00#7 rs2 rs1 0b010#3 rd 0x33#7
  | .sltu rd rs1 rs2 => encodeR 0x00#7 rs2 rs1 0b011#3 rd 0x33#7
  | .xor rd rs1 rs2 => encodeR 0x00#7 rs2 rs1 0b100#3 rd 0x33#7
  | .srl rd rs1 rs2 => encodeR 0x00#7 rs2 rs1 0b101#3 rd 0x33#7
  | .sra rd rs1 rs2 => encodeR 0x20#7 rs2 rs1 0b101#3 rd 0x33#7
  | .or rd rs1 rs2 => encodeR 0x00#7 rs2 rs1 0b110#3 rd 0x33#7
  | .and rd rs1 rs2 => encodeR 0x00#7 rs2 rs1 0b111#3 rd 0x33#7
  | .mul rd rs1 rs2 => encodeR 0x01#7 rs2 rs1 0b000#3 rd 0x33#7
  | .mulh rd rs1 rs2 => encodeR 0x01#7 rs2 rs1 0b001#3 rd 0x33#7
  | .mulhu rd rs1 rs2 => encodeR 0x01#7 rs2 rs1 0b011#3 rd 0x33#7
  | .div rd rs1 rs2 => encodeR 0x01#7 rs2 rs1 0b100#3 rd 0x33#7
  | .divu rd rs1 rs2 => encodeR 0x01#7 rs2 rs1 0b101#3 rd 0x33#7
  | .rem rd rs1 rs2 => encodeR 0x01#7 rs2 rs1 0b110#3 rd 0x33#7
  | .remu rd rs1 rs2 => encodeR 0x01#7 rs2 rs1 0b111#3 rd 0x33#7
  | .lrW rd rs1 aq rl => encodeAmo 0b00010#5 aq rl 0#5 rs1 rd
  | .scW rd rs1 rs2 aq rl => encodeAmo 0b00011#5 aq rl rs2 rs1 rd
  | .amoaddW rd rs1 rs2 aq rl => encodeAmo 0b00000#5 aq rl rs2 rs1 rd
  | .amoorW rd rs1 rs2 aq rl => encodeAmo 0b01000#5 aq rl rs2 rs1 rd
  | .beq rs1 rs2 imm => encodeB imm rs2 rs1 0b000#3
  | .bne rs1 rs2 imm => encodeB imm rs2 rs1 0b001#3
  | .blt rs1 rs2 imm => encodeB imm rs2 rs1 0b100#3
  | .bge rs1 rs2 imm => encodeB imm rs2 rs1 0b101#3
  | .bltu rs1 rs2 imm => encodeB imm rs2 rs1 0b110#3
  | .bgeu rs1 rs2 imm => encodeB imm rs2 rs1 0b111#3
  | .lui rd imm => encodeU imm rd 0x37#7
  | .auipc rd imm => encodeU imm rd 0x17#7
  | .jal rd imm => encodeJ imm rd
  | .jalr rd rs1 imm => encodeI imm rs1 0b000#3 rd 0x67#7
  | .csrrw rd rs1 csr => encodeI csr rs1 0b001#3 rd 0x73#7
  | .csrrs rd rs1 csr => encodeI csr rs1 0b010#3 rd 0x73#7
  | .csrrc rd rs1 csr => encodeI csr rs1 0b011#3 rd 0x73#7
  | .csrrwi rd uimm csr => encodeI csr uimm 0b101#3 rd 0x73#7
  | .csrrsi rd uimm csr => encodeI csr uimm 0b110#3 rd 0x73#7
  | .csrrci rd uimm csr => encodeI csr uimm 0b111#3 rd 0x73#7
  | .ecall => 0x00000073#32
  | .ebreak => 0x00100073#32
  | .mret => 0x30200073#32
  | .fence rd rs1 imm => encodeI imm rs1 0b000#3 rd 0x0F#7

/-! ## The opcode table as the spec writes it (R110) -/

/-- One row of spec/opcode_table.json: its mnemonic, mask and match. -/
structure Row where
  mnemonic : String
  mask     : Word
  pattern  : Word
  deriving DecidableEq, Repr

/-- `(inst AND mask) = match` (R110). -/
def Row.matchesWord (r : Row) (w : Word) : Bool := w &&& r.mask == r.pattern

/-- The rows of 40_load_store.md. -/
def loadStoreRows : List Row :=
  [ ⟨"LB", 0x0000707f#32, 0x00000003#32⟩
  , ⟨"LH", 0x0000707f#32, 0x00001003#32⟩
  , ⟨"LW", 0x0000707f#32, 0x00002003#32⟩
  , ⟨"LBU", 0x0000707f#32, 0x00004003#32⟩
  , ⟨"LHU", 0x0000707f#32, 0x00005003#32⟩
  , ⟨"SB", 0x0000707f#32, 0x00000023#32⟩
  , ⟨"SH", 0x0000707f#32, 0x00001023#32⟩
  , ⟨"SW", 0x0000707f#32, 0x00002023#32⟩ ]

/-- The rows of 41_alu_immediate.md. -/
def aluImmRows : List Row :=
  [ ⟨"ADDI", 0x0000707f#32, 0x00000013#32⟩
  , ⟨"SLTIU", 0x0000707f#32, 0x00003013#32⟩
  , ⟨"XORI", 0x0000707f#32, 0x00004013#32⟩
  , ⟨"ORI", 0x0000707f#32, 0x00006013#32⟩
  , ⟨"ANDI", 0x0000707f#32, 0x00007013#32⟩
  , ⟨"SLLI", 0xfe00707f#32, 0x00001013#32⟩
  , ⟨"SRLI", 0xfe00707f#32, 0x00005013#32⟩
  , ⟨"SRAI", 0xfe00707f#32, 0x40005013#32⟩ ]

/-- The rows of 42_alu_register.md. -/
def aluRegRows : List Row :=
  [ ⟨"ADD", 0xfe00707f#32, 0x00000033#32⟩
  , ⟨"SUB", 0xfe00707f#32, 0x40000033#32⟩
  , ⟨"SLL", 0xfe00707f#32, 0x00001033#32⟩
  , ⟨"SLT", 0xfe00707f#32, 0x00002033#32⟩
  , ⟨"SLTU", 0xfe00707f#32, 0x00003033#32⟩
  , ⟨"XOR", 0xfe00707f#32, 0x00004033#32⟩
  , ⟨"SRL", 0xfe00707f#32, 0x00005033#32⟩
  , ⟨"SRA", 0xfe00707f#32, 0x40005033#32⟩
  , ⟨"OR", 0xfe00707f#32, 0x00006033#32⟩
  , ⟨"AND", 0xfe00707f#32, 0x00007033#32⟩ ]

/-- The rows of 43_muldiv.md. -/
def mulDivRows : List Row :=
  [ ⟨"MUL", 0xfe00707f#32, 0x02000033#32⟩
  , ⟨"MULH", 0xfe00707f#32, 0x02001033#32⟩
  , ⟨"MULHU", 0xfe00707f#32, 0x02003033#32⟩
  , ⟨"DIV", 0xfe00707f#32, 0x02004033#32⟩
  , ⟨"DIVU", 0xfe00707f#32, 0x02005033#32⟩
  , ⟨"REM", 0xfe00707f#32, 0x02006033#32⟩
  , ⟨"REMU", 0xfe00707f#32, 0x02007033#32⟩ ]

/-- The rows of 44_atomics.md. -/
def atomicRows : List Row :=
  [ ⟨"LR.W", 0xf9f0707f#32, 0x1000202f#32⟩
  , ⟨"SC.W", 0xf800707f#32, 0x1800202f#32⟩
  , ⟨"AMOADD.W", 0xf800707f#32, 0x0000202f#32⟩
  , ⟨"AMOOR.W", 0xf800707f#32, 0x4000202f#32⟩ ]

/-- The rows of 45_branches.md. -/
def branchRows : List Row :=
  [ ⟨"BEQ", 0x0000707f#32, 0x00000063#32⟩
  , ⟨"BNE", 0x0000707f#32, 0x00001063#32⟩
  , ⟨"BLT", 0x0000707f#32, 0x00004063#32⟩
  , ⟨"BGE", 0x0000707f#32, 0x00005063#32⟩
  , ⟨"BLTU", 0x0000707f#32, 0x00006063#32⟩
  , ⟨"BGEU", 0x0000707f#32, 0x00007063#32⟩ ]

/-- The rows of 46_upper_immediate.md, 47_jumps.md. -/
def upperJumpRows : List Row :=
  [ ⟨"LUI", 0x0000007f#32, 0x00000037#32⟩
  , ⟨"AUIPC", 0x0000007f#32, 0x00000017#32⟩
  , ⟨"JAL", 0x0000007f#32, 0x0000006f#32⟩
  , ⟨"JALR", 0x0000707f#32, 0x00000067#32⟩ ]

/-- The rows of 48_csr_system.md, 49_fence.md. -/
def systemRows : List Row :=
  [ ⟨"CSRRW", 0x0000707f#32, 0x00001073#32⟩
  , ⟨"CSRRS", 0x0000707f#32, 0x00002073#32⟩
  , ⟨"CSRRC", 0x0000707f#32, 0x00003073#32⟩
  , ⟨"CSRRWI", 0x0000707f#32, 0x00005073#32⟩
  , ⟨"CSRRSI", 0x0000707f#32, 0x00006073#32⟩
  , ⟨"CSRRCI", 0x0000707f#32, 0x00007073#32⟩
  , ⟨"ECALL", 0xffffffff#32, 0x00000073#32⟩
  , ⟨"EBREAK", 0xffffffff#32, 0x00100073#32⟩
  , ⟨"MRET", 0xffffffff#32, 0x30200073#32⟩
  , ⟨"FENCE", 0x0000707f#32, 0x0000000f#32⟩ ]

/-- spec/opcode_table.json, all 57 rows in its order. -/
def opcodeTable : List Row :=
  loadStoreRows ++ aluImmRows ++ aluRegRows ++ mulDivRows
    ++ atomicRows ++ branchRows ++ upperJumpRows ++ systemRows

/-- The row of an instruction, by the table's spelling. -/
def Instr.mnemonic : Instr → String
  | .lb .. => "LB"
  | .lh .. => "LH"
  | .lw .. => "LW"
  | .lbu .. => "LBU"
  | .lhu .. => "LHU"
  | .sb .. => "SB"
  | .sh .. => "SH"
  | .sw .. => "SW"
  | .addi .. => "ADDI"
  | .sltiu .. => "SLTIU"
  | .xori .. => "XORI"
  | .ori .. => "ORI"
  | .andi .. => "ANDI"
  | .slli .. => "SLLI"
  | .srli .. => "SRLI"
  | .srai .. => "SRAI"
  | .add .. => "ADD"
  | .sub .. => "SUB"
  | .sll .. => "SLL"
  | .slt .. => "SLT"
  | .sltu .. => "SLTU"
  | .xor .. => "XOR"
  | .srl .. => "SRL"
  | .sra .. => "SRA"
  | .or .. => "OR"
  | .and .. => "AND"
  | .mul .. => "MUL"
  | .mulh .. => "MULH"
  | .mulhu .. => "MULHU"
  | .div .. => "DIV"
  | .divu .. => "DIVU"
  | .rem .. => "REM"
  | .remu .. => "REMU"
  | .lrW .. => "LR.W"
  | .scW .. => "SC.W"
  | .amoaddW .. => "AMOADD.W"
  | .amoorW .. => "AMOOR.W"
  | .beq .. => "BEQ"
  | .bne .. => "BNE"
  | .blt .. => "BLT"
  | .bge .. => "BGE"
  | .bltu .. => "BLTU"
  | .bgeu .. => "BGEU"
  | .lui .. => "LUI"
  | .auipc .. => "AUIPC"
  | .jal .. => "JAL"
  | .jalr .. => "JALR"
  | .csrrw .. => "CSRRW"
  | .csrrs .. => "CSRRS"
  | .csrrc .. => "CSRRC"
  | .csrrwi .. => "CSRRWI"
  | .csrrsi .. => "CSRRSI"
  | .csrrci .. => "CSRRCI"
  | .ecall => "ECALL"
  | .ebreak => "EBREAK"
  | .mret => "MRET"
  | .fence .. => "FENCE"

end Sys2Proof
end

