-- ==== Sys2Proof/Config.lean ====
section
/-! DEFINITION. What is fixed for one machine (00_scope.md R10) and the free values the spec leaves to the devices.

The configuration is plain data and stands in `State.cfg`, so a statement about every state is a statement about every
configuration (log 1). The free values are opaque constants: nothing can be proved about the value they take. -/

namespace Sys2Proof

/-- RAM_BASE (00_scope.md R10; 70_reset_and_hazards.md R364). -/
def ramBase : Nat := 0x80000000

/-- UART_SIZE, eight byte registers (00_scope.md R10; 20_memory.md R61). -/
def uartSize : Nat := 8

/-- The two device windows the router knows (20_memory.md R61). -/
inductive Device where
  | uart
  | clint
  deriving DecidableEq, Repr

/-- Which way a byte went on a device port, with the byte (20_memory.md R63, R65). -/
inductive Transfer where
  | read (answer : Byte)
  | write (value : Byte)
  deriving DecidableEq, Repr

/-- One byte transaction on a device port (00_scope.md R7; 20_memory.md R73): the device, the offset in its window, the
retired-instruction count at that moment, and the transfer. -/
structure DeviceTx where
  device   : Device
  offset   : Nat
  time     : Nat
  transfer : Transfer
  deriving DecidableEq, Repr

/-- What the CLINT does to `mip[7]` at step 6 of a step: nothing, `signal_timer_interrupt()` (60_exceptions.md R322), or a
clear (the OPEN parameter CLINT_CLEARS_MTIP, R323). -/
inductive ClintCall where
  | quiet
  | signal
  | clear
  deriving DecidableEq, Repr, Inhabited

/-- The OPEN parameters CLINT_MODEL and CLINT_CLEARS_MTIP (00_scope.md R10; log 6). `unknown` leaves the CLINT's calls to
the free value `Config.freeClintCall`. `script` lists the calls by the retired-instruction count at which they come (the
first entry of a count wins; a count not listed is quiet): one admissible CLINT_MODEL, as 95_test_vectors.md P4 uses. -/
inductive ClintModel where
  | unknown
  | script (calls : List (Nat × ClintCall))
  deriving DecidableEq, Repr

/-- DIV_CORNER (00_scope.md R10; 43_muldiv.md R199). -/
inductive DivCorner where
  | architectural
  | fault
  deriving DecidableEq, Repr

/-- AMO_ALIAS (00_scope.md R10; 44_atomics.md R210). -/
inductive AmoAlias where
  | snapshot
  | fault
  deriving DecidableEq, Repr

/-- The parameters of 00_scope.md R10 that one machine fixes. `ramFill` is what a RAM byte holds that neither the boot
collaborator nor an instruction has written (70_reset_and_hazards.md R366; log 4). -/
structure Config where
  ramSize   : Nat
  uartBase  : Nat
  clintBase : Nat
  clintSize : Nat
  maxInsns  : Option Nat
  divCorner : DivCorner
  amoAlias  : AmoAlias
  clint     : ClintModel
  ramFill   : Byte
  deriving DecidableEq, Repr

/-- FREE VALUE: the byte a device answers to a read of an offset, after a history of transactions, at a time (20_memory.md
R63, R73; 92_eei_decisions.md D24; log 5). Every read lengthens the history, so every read draws anew. -/
opaque Config.freeDeviceByte : Device → Nat → List DeviceTx → Nat → Byte

/-- FREE VALUE: what an unknown CLINT does at the step that makes the retired-instruction count the given number, after a
history of transactions (60_exceptions.md R322, R323, R352; log 6). -/
opaque Config.freeClintCall : List DeviceTx → Nat → ClintCall

/-- DESIGN CHOICE (log 1): the configuration `State.reset` carries. The four OPEN numbers are those 95_test_vectors.md
uses; DIV_CORNER and AMO_ALIAS have the defaults of 00_scope.md R10; the CLINT is unknown. -/
def Config.initial : Config :=
  { ramSize := 0x10000, uartBase := 0x10000000, clintBase := 0x02000000, clintSize := 0x10000, maxInsns := none,
    divCorner := .architectural, amoAlias := .snapshot, clint := .unknown, ramFill := 0x00#8 }

end Sys2Proof
end

