-- ==== Sys2Proof/Machine/State.lean ====
section
/-! DEFINITION. The state of the machine as plain data, the reasons a step can stop, and the state after reset.

`State` holds every piece of state 10_state.md R20 to R51 names, the configuration of 00_scope.md R10 (fixed, log 1), and
one field of the model's own, `io` (log 13). -/

namespace Sys2Proof.Machine

/-- RAM as the listed bytes, addresses strictly rising (20_memory.md R81; log 4). -/
abbrev Memory := List Host.Cell

/-- The fatal reasons of 60_exceptions.md R311 with the `info` each records. -/
inductive Fatal where
  /-- A word that matches no row; a division corner under `DIV_CORNER = fault`; an aliased AMO under `AMO_ALIAS = fault`.
  The info is the raw instruction word. -/
  | unimplementedInstruction (inst : Word)
  /-- A CSR access outside 10_state.md R36, or a write to a read-only CSR. The raw word is also kept. -/
  | unknownCSR (csr : CsrNum) (inst : Word)
  /-- A byte access, fetch included, to an address in no region. -/
  | unmappedAddress (addr : Word)
  /-- A privilege field set to a value above 3. No instruction can reach it (10_state.md R35; log 17). -/
  | invalidPrivilege (value : Nat)
  /-- An interrupt check with `mip & mie != 0`, MIE set and bit 7 of `mip & mie` clear. The info is `mip & mie`. -/
  | unmodelledInterrupt (pending : Word)
  deriving DecidableEq, Repr

/-- The halt record `(reason, pc, info)` of 10_state.md R32; the info stands in the reason. -/
structure HaltRecord where
  reason : Fatal
  pc     : Word
  deriving DecidableEq, Repr

/-- Everything the spec gives the machine (10_state.md). -/
structure State where
  /-- 00_scope.md R10: the parameters of this machine. No step changes them. -/
  cfg         : Config
  /-- R20: x0 to x31. Reads and writes go through `State.x` and `State.setX`, which treat x0 as R21 says. -/
  regs        : Vector Word 32
  /-- R26. -/
  pc          : Word
  /-- R34: `none` is "no reservation". -/
  reservation : Option Word
  /-- R35: `current_privilege_mode`. -/
  mode        : Priv
  /-- R37: `interrupts_globally_enabled`, mstatus bit 3. -/
  statusMIE   : Bool
  /-- R37: `previous_interrupt_enable`, mstatus bit 7. -/
  statusMPIE  : Bool
  /-- R37: `previous_privilege_mode`, mstatus bits 12:11. -/
  statusMPP   : Priv
  /-- R40. -/
  mie         : Word
  /-- R40. -/
  mip         : Word
  /-- R42. -/
  mtvec       : Word
  /-- R46. -/
  mscratch    : Word
  /-- R43. -/
  mepc        : Word
  /-- R44. -/
  mcause      : Word
  /-- R45. -/
  mtval       : Word
  /-- R50: `instret_count`. -/
  instret     : Nat
  /-- R32: `some` is halted, with the halt record. -/
  halt        : Option HaltRecord
  /-- R31 step 8: the host has ended the run at MAX_INSNS. -/
  stopped     : Bool
  /-- 20_memory.md R81: the RAM bytes. -/
  mem         : Memory
  /-- The MODEL's own field: the transactions on the device ports, newest first (20_memory.md R73; log 13). -/
  io          : List DeviceTx
  deriving DecidableEq, Repr

/-- How a step stops the machine. -/
inductive Fault where
  /-- Raised by a step that meets a fatal condition (60_exceptions.md R312), with the state the core halts in
  (10_state.md R32), whose `halt` is the halt record. The spec halts here too, so stopping is the spec's own effect; safe
  (log 7). -/
  | fatal (reason : Fatal) (halted : State)
  /-- Raised by a step of a core that is halted already: "A halted core takes no further step" (R32). Safe (log 7). -/
  | alreadyHalted (record : HaltRecord)
  deriving DecidableEq, Repr

/-- Why there is no step to take. -/
inductive Refusal where
  /-- Answered by exec for an instruction that has no meaning yet. Safe. -/
  | notModelled (mnemonic : String)
  /-- Answered by step for a configuration that breaks 00_scope.md R11: "a model refuses it". Safe (log 9). -/
  | invalidConfiguration
  /-- Answered by step for a run the host has ended at MAX_INSNS (70_reset_and_hazards.md R372), a normal end. Safe
  (log 8). -/
  | stoppedByHost
  deriving DecidableEq, Repr

/-- What one instruction or one step answers. -/
abbrev Result := Host.Outcome State Fault Refusal

/-- Machine mode (10_state.md R35). -/
def machineMode : Priv := 3#2

/-- The state at launch (10_state.md R51; 70_reset_and_hazards.md R360, R366): `gprInit` is GPR_INIT (entry 0 is not
used), `image` the RAM bytes the boot collaborator wrote. -/
def State.launch (cfg : Config) (gprInit : Vector Word 32) (image : Memory) : State :=
  { cfg := cfg, regs := gprInit.set 0 0#32, pc := BitVec.ofNat 32 ramBase, reservation := none, mode := machineMode,
    statusMIE := false, statusMPIE := false, statusMPP := 0#2, mie := 0#32, mip := 0#32, mtvec := 0#32,
    mscratch := 0#32, mepc := 0#32, mcause := 0#32, mtval := 0#32, instret := 0, halt := none, stopped := false,
    mem := image, io := [] }

/-- The state after reset with nothing loaded: the launch state of `Config.initial` with GPR_INIT all zero (log 1, 2, 3,
4). -/
def State.reset : State := State.launch Config.initial (Vector.replicate 32 0#32) []

end Sys2Proof.Machine
end

