-- ==== Sys2Proof/Machine/Flags.lean ====
section
/-! DEFINITION. The only flags of the core are the three of `mstatus` (10_state.md R33, R37): packing, the unpacking write,
the guard on privilege fields. Comparisons deliver 0 or 1, or decide a branch (R33). -/

namespace Sys2Proof.Machine

/-- `s(v)` of 00_scope.md R13, the two's-complement reading. -/
def signed (v : Word) : Int := v.toInt

/-- `u(v)` of 00_scope.md R13, the unsigned reading. -/
def unsigned (v : Word) : Nat := v.toNat

/-- The 0 or 1 of a comparison (R33; 42_alu_register.md R174, R175). -/
def boolWord (c : Bool) : Word := if c then 1#32 else 0#32

/-- `s(a) < s(b)` (R174, R233). -/
def lessSigned (a b : Word) : Bool := signed a < signed b

/-- `u(a) < u(b)` (R175, R235). -/
def lessUnsigned (a b : Word) : Bool := unsigned a < unsigned b

/-- A value offered to a privilege field: above 3 it is fatal (10_state.md R35; 90_conflicts.md C7; log 17). -/
def privilegeField (v : Nat) : Except Fatal Priv :=
  if v ≤ 3 then .ok (BitVec.ofNat 2 v) else .error (.invalidPrivilege v)

/-- Reading mstatus packs the three flags (R38). -/
def State.mstatus (s : State) : Word :=
  ((BitVec.ofBool s.statusMIE).setWidth 32 <<< 3) ||| ((BitVec.ofBool s.statusMPIE).setWidth 32 <<< 7)
    ||| (s.statusMPP.setWidth 32 <<< 11)

/-- Writing mstatus unpacks only the bits that differ from what it reads as (R39). -/
def State.setMstatus (s : State) (v : Word) : Except Fatal State :=
  let d := v ^^^ s.mstatus
  let t := if d.getLsbD 3 then { s with statusMIE := v.getLsbD 3 } else s
  let t := if d.getLsbD 7 then { t with statusMPIE := v.getLsbD 7 } else t
  if d.extractLsb' 11 2 = 0#2 then .ok t
  else
    match privilegeField (v.extractLsb' 11 2).toNat with
    | .ok p => .ok { t with statusMPP := p }
    | .error e => .error e

end Sys2Proof.Machine
end

