-- ==== Sys2Proof/Machine/Ops.lean ====
section
/-! DEFINITION. The named operations over registers, memory, the router, the CSRs and the trap controller.

Every meaning is written over these. Memory is bytes; every wider access is composed of byte accesses here and nowhere
else (20_memory.md R66). -/

namespace Sys2Proof.Machine

/-! ## General registers (10_state.md R20, R21; 00_scope.md R14) -/

/-- `x[r]`: register 0 reads zero (R21). -/
def State.x (s : State) (r : Reg) : Word :=
  if r = 0#5 then 0#32 else s.regs[r.toNat]

/-- `x[r] <- v`: a write to register 0 has no effect (R21). -/
def State.setX (s : State) (r : Reg) (v : Word) : State :=
  if r = 0#5 then s else { s with regs := s.regs.set r.toNat v }

/-- Step 5 of 10_state.md R31: force x0 to zero. -/
def State.forceX0 (s : State) : State := { s with regs := s.regs.set 0 0#32 }

/-! ## Program counter (10_state.md R26, R28, R31 step 4; log 10) -/

/-- The next pc of an instruction that does not redirect: `pc + 4` modulo 2^32. -/
def State.advance (s : State) : State := { s with pc := s.pc + 4#32 }

/-- The next pc of an instruction that redirects (00_scope.md R16). -/
def State.redirect (s : State) (target : Word) : State := { s with pc := target }

/-! ## Reservation slot (10_state.md R34; 44_atomics.md R211) -/

/-- Set the slot to an address, or to "no reservation". -/
def State.setReservation (s : State) (r : Option Word) : State := { s with reservation := r }

/-! ## Fatal conditions (10_state.md R32; 60_exceptions.md R311, R312; log 7) -/

/-- Halt the core: the record holds the reason and the present `pc`. -/
def State.halted (s : State) (r : Fatal) : State := { s with halt := some ⟨r, s.pc⟩ }

/-- `raise Fatal.<Reason>(info)`, in a state that holds what has been done so far. -/
def fatal (r : Fatal) (s : State) : Result := .fault (.fatal r (s.halted r))

/-- Go on with a value, or raise the fatal reason in the state `s` (no effect so far). -/
def orFatal {α : Type} (e : Except Fatal α) (s : State) (k : α → Result) : Result :=
  match e with
  | .ok v => k v
  | .error r => fatal r s

/-! ## RAM bytes (20_memory.md R81; log 4) -/

/-- What the listed bytes say of an address; `fill` is what an unlisted address reads as. -/
def Memory.read (fill : Byte) : Memory → Nat → Byte
  | [], _ => fill
  | (k, v) :: rest, a => if k = a then v else Memory.read fill rest a

/-- Store a byte and keep the canonical form: addresses rise, and a byte equal to `fill` is not listed. -/
def Memory.write (fill : Byte) : Memory → Nat → Byte → Memory
  | [], a, b => if b = fill then [] else [(a, b)]
  | (k, v) :: rest, a, b =>
    if a < k then (if b = fill then (k, v) :: rest else (a, b) :: (k, v) :: rest)
    else if a = k then (if b = fill then rest else (a, b) :: rest)
    else (k, v) :: Memory.write fill rest a b

/-- Every listed address is above `a`. -/
def Memory.above (a : Nat) (m : Memory) : Bool := m.all fun c => a < c.1

/-- The canonical form: addresses strictly rising, no listed byte equal to `fill`. -/
def Memory.wf (fill : Byte) : Memory → Bool
  | [] => true
  | (k, v) :: rest => Memory.above k rest && v != fill && Memory.wf fill rest

/-- The byte RAM holds at an address (20_memory.md R63). -/
def State.ramByte (s : State) (a : Nat) : Byte := Memory.read s.cfg.ramFill s.mem a

/-- Store a byte in RAM (20_memory.md R65). -/
def State.setRamByte (s : State) (a : Nat) (b : Byte) : State :=
  { s with mem := Memory.write s.cfg.ramFill s.mem a b }

/-! ## The router (20_memory.md R60 to R65) -/

/-- The regions of R61. -/
inductive Region where
  | ram
  | uart
  | clint
  deriving DecidableEq, Repr

/-- `base <= a < base + size` (R61). -/
def inWindow (base size a : Nat) : Bool := base ≤ a && a < base + size

/-- The region an address belongs to, looked up in the fixed order RAM, UART, CLINT (R62); `none` is unmapped (R64). -/
def regionOf (c : Config) (a : Nat) : Option Region :=
  if inWindow ramBase c.ramSize a then some .ram
  else if inWindow c.uartBase uartSize a then some .uart
  else if inWindow c.clintBase c.clintSize a then some .clint
  else none

/-- Two windows share no address. -/
def disjointWindows (b1 n1 b2 n2 : Nat) : Bool := n1 = 0 || n2 = 0 || b1 + n1 ≤ b2 || b2 + n2 ≤ b1

/-- A configuration of this hardware: RAM_SIZE > 0, no window wraps past 2^32, no two overlap (00_scope.md R10, R11). -/
def validConfig (c : Config) : Bool :=
  0 < c.ramSize && ramBase + c.ramSize ≤ 2 ^ 32 && c.uartBase + uartSize ≤ 2 ^ 32
    && c.clintBase + c.clintSize ≤ 2 ^ 32
    && disjointWindows ramBase c.ramSize c.uartBase uartSize
    && disjointWindows ramBase c.ramSize c.clintBase c.clintSize
    && disjointWindows c.uartBase uartSize c.clintBase c.clintSize

/-- What a memory operation answers: a value and the state after it, or the first unmapped byte address with the state the
bytes before it left (R67). -/
inductive Access (α : Type) where
  | ok (v : α) (s : State)
  | unmapped (addr : Word) (s : State)

/-- Sequence two memory operations. -/
def Access.andThen {α β : Type} (m : Access α) (k : α → State → Access β) : Access β :=
  match m with
  | .ok v s => k v s
  | .unmapped a s => .unmapped a s

/-- End an instruction with a memory operation: an unmapped byte is fatal (R64). -/
def Access.finish {α : Type} (m : Access α) (k : α → State → Result) : Result :=
  match m with
  | .ok v s => k v s
  | .unmapped a s => fatal (.unmappedAddress a) s

/-- One transaction on a device port (R73): it is recorded, and that is all the core gives it (R63; log 13). -/
def State.transact (s : State) (d : Device) (offset : Nat) (t : Transfer) : State :=
  { s with io := ⟨d, offset, s.instret, t⟩ :: s.io }

/-- A byte read on a device port: the device answers a free value (R63, R73; log 5). -/
def deviceRead (d : Device) (offset : Nat) (s : State) : Access Byte :=
  let b := Config.freeDeviceByte d offset s.io s.instret
  .ok b (s.transact d offset (.read b))

/-- `ReadByte(a)` (R63, R64). -/
def readByte (a : Word) (s : State) : Access Byte :=
  match regionOf s.cfg a.toNat with
  | some .ram => .ok (s.ramByte a.toNat) s
  | some .uart => deviceRead .uart (a.toNat - s.cfg.uartBase) s
  | some .clint => deviceRead .clint (a.toNat - s.cfg.clintBase) s
  | none => .unmapped a s

/-- `WriteByte(a, b)` (R64, R65). -/
def writeByte (a : Word) (b : Byte) (s : State) : Access Unit :=
  match regionOf s.cfg a.toNat with
  | some .ram => .ok () (s.setRamByte a.toNat b)
  | some .uart => .ok () (s.transact .uart (a.toNat - s.cfg.uartBase) (.write b))
  | some .clint => .ok () (s.transact .clint (a.toNat - s.cfg.clintBase) (.write b))
  | none => .unmapped a s

/-- `ReadByte(a + k)` for `k = 0 .. n-1`, ascending, addresses modulo 2^32 (00_scope.md R15; R67). -/
def readBytes : Nat → Word → State → Access (List Byte)
  | 0, _, s => .ok [] s
  | n + 1, a, s =>
    (readByte a s).andThen fun b t => (readBytes n (a + 1#32) t).andThen fun bs u => .ok (b :: bs) u

/-- `WriteByte(a + k, b_k)`, ascending (00_scope.md R15; R67). -/
def writeBytes : List Byte → Word → State → Access Unit
  | [], _, s => .ok () s
  | b :: bs, a, s => (writeByte a b s).andThen fun _ t => writeBytes bs (a + 1#32) t

/-- `MemRead(a, n)`, little-endian, the bits above the `n` bytes 0 (00_scope.md R15; R66, R68). -/
def memRead (n : Nat) (a : Word) (s : State) : Access Word :=
  (readBytes n a s).andThen fun bs t => .ok (leWord bs) t

/-- `MemWrite(a, n, v)` (00_scope.md R15; R66, R68). -/
def memWrite (n : Nat) (a v : Word) (s : State) : Access Unit := writeBytes (leBytes n v) a s

/-! ## CSRs (10_state.md R36; 48_csr_system.md R270, R271) -/

/-- The recognised CSRs (R36). -/
inductive Csr where
  | mstatus | mie | mtvec | mscratch | mepc | mcause | mtval | mip
  | mvendorid | marchid | mimpid | mhartid
  deriving DecidableEq, Repr

/-- The numbers of R36. -/
def csrOf (n : CsrNum) : Option Csr :=
  if n = 0x300#12 then some .mstatus
  else if n = 0x304#12 then some .mie
  else if n = 0x305#12 then some .mtvec
  else if n = 0x340#12 then some .mscratch
  else if n = 0x341#12 then some .mepc
  else if n = 0x342#12 then some .mcause
  else if n = 0x343#12 then some .mtval
  else if n = 0x344#12 then some .mip
  else if n = 0xF11#12 then some .mvendorid
  else if n = 0xF12#12 then some .marchid
  else if n = 0xF13#12 then some .mimpid
  else if n = 0xF14#12 then some .mhartid
  else none

/-- The word a CSR reads as; the identification CSRs are 0 (R41, R270). -/
def State.csrValue (s : State) : Csr → Word
  | .mstatus => s.mstatus
  | .mie => s.mie
  | .mtvec => s.mtvec
  | .mscratch => s.mscratch
  | .mepc => s.mepc
  | .mcause => s.mcause
  | .mtval => s.mtval
  | .mip => s.mip
  | .mvendorid | .marchid | .mimpid | .mhartid => 0#32

/-- `CSR[n]`; `inst` is the raw word the halt record also keeps (R270, R47; 60_exceptions.md R311). -/
def State.csrRead (s : State) (n : CsrNum) (inst : Word) : Except Fatal Word :=
  match csrOf n with
  | some c => .ok (s.csrValue c)
  | none => .error (.unknownCSR n inst)

/-- `CSR[n] <- v`; a write to an identification CSR or to an unknown number is fatal (R271). -/
def State.csrWrite (s : State) (n : CsrNum) (v inst : Word) : Except Fatal State :=
  match csrOf n with
  | some .mstatus => s.setMstatus v
  | some .mie => .ok { s with mie := v }
  | some .mtvec => .ok { s with mtvec := v }
  | some .mscratch => .ok { s with mscratch := v }
  | some .mepc => .ok { s with mepc := v }
  | some .mcause => .ok { s with mcause := v }
  | some .mtval => .ok { s with mtval := v }
  | some .mip => .ok { s with mip := v }
  | some .mvendorid | some .marchid | some .mimpid | some .mhartid | none => .error (.unknownCSR n inst)

/-! ## Traps (60_exceptions.md R330, R340) -/

/-- `enter_trap(cause)`, the eight steps of R330 on a snapshot of the state. `faultingPc` is read only for a cause whose
bit 31 is clear, which no rule of the core produces (R310; log 19). -/
def State.enterTrap (s : State) (cause faultingPc : Word) : Except Fatal State := do
  let mpp ← privilegeField s.mode.toNat
  let mode ← privilegeField 3
  return { s with
    statusMPIE := s.statusMIE
    statusMPP := mpp
    mode := mode
    statusMIE := false
    mepc := s.pc
    mcause := cause
    mtval := if cause.getLsbD 31 then 0#32 else faultingPc
    pc := s.mtvec }

/-- `return_from_trap()`: `pc <- mepc`, `MIE <- MPIE`, and the mode and MPP change places (R340). -/
def State.returnFromTrap (s : State) : Except Fatal State := do
  let mode ← privilegeField s.statusMPP.toNat
  let mpp ← privilegeField s.mode.toNat
  return { s with pc := s.mepc, statusMIE := s.statusMPIE, mode := mode, statusMPP := mpp }

/-! ## Interrupts (60_exceptions.md R320 to R324) -/

/-- Bit 7 of `mie` and `mip`, the machine timer (10_state.md R40). -/
def timerBit : Word := 0x00000080#32

/-- The cause of the machine timer interrupt (R321). -/
def timerCause : Word := 0x80000007#32

/-- `signal_timer_interrupt()`: `mip[7] <- 1` (R322). -/
def State.signalTimerInterrupt (s : State) : State := { s with mip := s.mip ||| timerBit }

/-- `mip[7] <- 0`, by a CLINT that clears the bit (R323; log 6). -/
def State.clearTimerInterrupt (s : State) : State := { s with mip := s.mip &&& ~~~timerBit }

/-- The first call a script lists for a retired-instruction count. -/
def scriptedCall : List (Nat × ClintCall) → Nat → ClintCall
  | [], _ => .quiet
  | (n, c) :: rest, k => if n = k then c else scriptedCall rest k

/-- What the CLINT does at this step, `instret` counting the instruction just retired (R322, R323, R352; log 6). -/
def State.clintCall (s : State) : ClintCall :=
  match s.cfg.clint with
  | .unknown => Config.freeClintCall s.io s.instret
  | .script calls => scriptedCall calls s.instret

/-- The CLINT's part of step 6 of 10_state.md R31. Only `mip` can change. -/
def State.clintTick (s : State) : State :=
  { s with mip :=
      match s.clintCall with
      | .quiet => s.mip
      | .signal => s.signalTimerInterrupt.mip
      | .clear => s.clearTimerInterrupt.mip }

/-- `mip & mie`. With nothing enabled it is 0 whatever `mip` holds. -/
def State.pending (s : State) : Word := if s.mie = 0#32 then 0#32 else s.mip &&& s.mie

/-- The interrupt check of R320 with the cause selection of R321. -/
def State.interruptCheck (s : State) : Result :=
  if s.statusMIE && s.pending != 0#32 then
    if s.pending.getLsbD 7 then orFatal (s.enterTrap timerCause s.pc) s .next
    else fatal (.unmodelledInterrupt s.pending) s
  else .next s

end Sys2Proof.Machine
end

