-- ==== Sys2Proof/Machine/Operands.lean ====
section
/-! DEFINITION. How each instruction reads its operands (30_encoding.md R99, R100; 40_load_store.md R130). -/

namespace Sys2Proof.Machine

/-- `sext_12` of `imm_i` or `imm_s` (R99, R100). -/
def sext12 (f : BitVec 12) : Word := f.signExtend 32

/-- `sext_13` of `imm_b` (R99, R100; 90_conflicts.md C1). -/
def sext13 (f : BitVec 13) : Word := f.signExtend 32

/-- `sext_20` of `imm_u` (R99). -/
def sext20 (f : BitVec 20) : Word := f.signExtend 32

/-- `sext_21` of `imm_j` (R99, R100). -/
def sext21 (f : BitVec 21) : Word := f.signExtend 32

/-- `imm_u << 12` (R97, R100). -/
def upperImm (f : BitVec 20) : Word := f ++ 0#12

/-- `zext_5` of the `rs1` field, the immediate of the CSR immediate forms (R100). -/
def zext5 (f : BitVec 5) : Word := f.setWidth 32

/-- The low 5 bits of a register value as a shift amount (42_alu_register.md R170). -/
def shiftAmount (v : Word) : Nat := (v.extractLsb' 0 5).toNat

/-- The one addressing mode of loads and stores: base plus signed 12-bit displacement, modulo 2^32 (R130). -/
def State.baseDisp (s : State) (rs1 : Reg) (imm : BitVec 12) : Word := s.x rs1 + sext12 imm

/-- `sext_8` of the low byte (40_load_store.md R131). -/
def sext8 (v : Word) : Word := (v.setWidth 8).signExtend 32

/-- `sext_16` of the low half (R132). -/
def sext16 (v : Word) : Word := (v.setWidth 16).signExtend 32

/-- `zext_8` of the low byte (R134). -/
def zext8 (v : Word) : Word := (v.setWidth 8).setWidth 32

/-- `zext_16` of the low half (R135). -/
def zext16 (v : Word) : Word := (v.setWidth 16).setWidth 32

/-- The target of a branch or of JAL, from the address of the instruction itself (45_branches.md R230; 47_jumps.md R260). -/
def State.pcRelative (s : State) (offset : Word) : Word := s.pc + offset

/-- The target of JALR: bit 0 is cleared (47_jumps.md R261). -/
def State.jalrTarget (s : State) (rs1 : Reg) (imm : BitVec 12) : Word := (s.x rs1 + sext12 imm) &&& 0xFFFFFFFE#32

/-- `pc + 4`, the link of JAL and JALR (47_jumps.md). -/
def State.link (s : State) : Word := s.pc + 4#32

/-- End an instruction that writes one register and does not redirect: `rd` last, then `pc + 4` (10_state.md R25, R31). -/
def State.writeBack (s : State) (rd : Reg) (v : Word) : Result := .next (s.setX rd v).advance

end Sys2Proof.Machine
end

