-- ==== Sys2Proof/Machine/AluImm.lean ====
section
/-! DEFINITION. ALU with an immediate operand (41_alu_immediate.md R150 to R158). -/

namespace Sys2Proof.Machine

/-- ADDI (R151). -/
def execAddi (rd rs1 : Reg) (imm : BitVec 12) (s : State) : Result := s.writeBack rd (s.x rs1 + sext12 imm)

/-- SLTIU: the immediate is sign-extended, then compared as unsigned (R152; 90_conflicts.md C2). -/
def execSltiu (rd rs1 : Reg) (imm : BitVec 12) (s : State) : Result :=
  s.writeBack rd (boolWord (lessUnsigned (s.x rs1) (sext12 imm)))

/-- XORI (R153). -/
def execXori (rd rs1 : Reg) (imm : BitVec 12) (s : State) : Result := s.writeBack rd (s.x rs1 ^^^ sext12 imm)

/-- ORI (R154). -/
def execOri (rd rs1 : Reg) (imm : BitVec 12) (s : State) : Result := s.writeBack rd (s.x rs1 ||| sext12 imm)

/-- ANDI (R155). -/
def execAndi (rd rs1 : Reg) (imm : BitVec 12) (s : State) : Result := s.writeBack rd (s.x rs1 &&& sext12 imm)

/-- SLLI (R156). -/
def execSlli (rd rs1 : Reg) (shamt : BitVec 5) (s : State) : Result := s.writeBack rd (s.x rs1 <<< shamt.toNat)

/-- SRLI (R157). -/
def execSrli (rd rs1 : Reg) (shamt : BitVec 5) (s : State) : Result := s.writeBack rd (s.x rs1 >>> shamt.toNat)

/-- SRAI (R158). -/
def execSrai (rd rs1 : Reg) (shamt : BitVec 5) (s : State) : Result :=
  s.writeBack rd ((s.x rs1).sshiftRight shamt.toNat)

end Sys2Proof.Machine
end

