-- ==== Sys2Proof/Machine/AluReg.lean ====
section
/-! DEFINITION. ALU with register operands (42_alu_register.md R170 to R180). -/

namespace Sys2Proof.Machine

/-- ADD (R171). -/
def execAdd (rd rs1 rs2 : Reg) (s : State) : Result := s.writeBack rd (s.x rs1 + s.x rs2)

/-- SUB (R172). -/
def execSub (rd rs1 rs2 : Reg) (s : State) : Result := s.writeBack rd (s.x rs1 - s.x rs2)

/-- SLL (R173). -/
def execSll (rd rs1 rs2 : Reg) (s : State) : Result := s.writeBack rd (s.x rs1 <<< shiftAmount (s.x rs2))

/-- SLT (R174). -/
def execSlt (rd rs1 rs2 : Reg) (s : State) : Result := s.writeBack rd (boolWord (lessSigned (s.x rs1) (s.x rs2)))

/-- SLTU (R175). -/
def execSltu (rd rs1 rs2 : Reg) (s : State) : Result := s.writeBack rd (boolWord (lessUnsigned (s.x rs1) (s.x rs2)))

/-- XOR (R176). -/
def execXor (rd rs1 rs2 : Reg) (s : State) : Result := s.writeBack rd (s.x rs1 ^^^ s.x rs2)

/-- SRL (R177). -/
def execSrl (rd rs1 rs2 : Reg) (s : State) : Result := s.writeBack rd (s.x rs1 >>> shiftAmount (s.x rs2))

/-- SRA (R178). -/
def execSra (rd rs1 rs2 : Reg) (s : State) : Result := s.writeBack rd ((s.x rs1).sshiftRight (shiftAmount (s.x rs2)))

/-- OR (R179). -/
def execOr (rd rs1 rs2 : Reg) (s : State) : Result := s.writeBack rd (s.x rs1 ||| s.x rs2)

/-- AND (R180). -/
def execAnd (rd rs1 rs2 : Reg) (s : State) : Result := s.writeBack rd (s.x rs1 &&& s.x rs2)

end Sys2Proof.Machine
end

