-- ==== Sys2Proof/Machine/Atomics.lean ====
section
/-! DEFINITION. Atomic instructions (44_atomics.md R210 to R217). `aq` and `rl` are ignored (R210). -/

namespace Sys2Proof.Machine

/-- An AMO: read the old word, write the new one computed from it and the snapshot of `x[rs2]`, then `rd` (R210, R214). -/
def amo (inst : Word) (f : Word → Word → Word) (rd rs1 rs2 : Reg) (s : State) : Result :=
  if rd ≠ 0#5 ∧ (rd = rs1 ∨ rd = rs2) ∧ s.cfg.amoAlias = .fault then fatal (.unimplementedInstruction inst) s
  else
    ((memRead 4 (s.x rs1) s).andThen fun old t =>
      (memWrite 4 (s.x rs1) (f old (s.x rs2)) t).andThen fun _ u => .ok old u).finish fun old u => u.writeBack rd old

/-- LR.W: load, then set the reservation, then write `rd` (R212). -/
def execLrW (rd rs1 : Reg) (s : State) : Result :=
  (memRead 4 (s.x rs1) s).finish fun v t => (t.setReservation (some (s.x rs1))).writeBack rd v

/-- SC.W: it stores and answers 0 exactly when the reservation is its address, else it answers 1; both clear the
reservation (R213; 90_conflicts.md C4). -/
def execScW (rd rs1 rs2 : Reg) (s : State) : Result :=
  if s.reservation = some (s.x rs1) then
    (memWrite 4 (s.x rs1) (s.x rs2) s).finish fun _ t => (t.setReservation none).writeBack rd 0#32
  else (s.setReservation none).writeBack rd 1#32

/-- AMOADD.W (R214). -/
def execAmoaddW (rd rs1 rs2 : Reg) (aq rl : Bool) (s : State) : Result :=
  amo (encode (.amoaddW rd rs1 rs2 aq rl)) (fun old v => old + v) rd rs1 rs2 s

/-- AMOOR.W (R215). -/
def execAmoorW (rd rs1 rs2 : Reg) (aq rl : Bool) (s : State) : Result :=
  amo (encode (.amoorW rd rs1 rs2 aq rl)) (fun old v => old ||| v) rd rs1 rs2 s

end Sys2Proof.Machine
end

