-- ==== Sys2Proof/Machine/Branches.lean ====
section
/-! DEFINITION. Conditional branches (45_branches.md R230 to R236). -/

namespace Sys2Proof.Machine

/-- A taken branch redirects to `pc + sext_13(imm_b)`; one not taken goes to `pc + 4` (R230). -/
def branch (taken : Bool) (imm : BitVec 13) (s : State) : Result :=
  if taken then .next (s.redirect (s.pcRelative (sext13 imm))) else .next s.advance

/-- BEQ (R231). -/
def execBeq (rs1 rs2 : Reg) (imm : BitVec 13) (s : State) : Result := branch (s.x rs1 == s.x rs2) imm s

/-- BNE (R232). -/
def execBne (rs1 rs2 : Reg) (imm : BitVec 13) (s : State) : Result := branch (s.x rs1 != s.x rs2) imm s

/-- BLT (R233). -/
def execBlt (rs1 rs2 : Reg) (imm : BitVec 13) (s : State) : Result := branch (lessSigned (s.x rs1) (s.x rs2)) imm s

/-- BGE (R234). -/
def execBge (rs1 rs2 : Reg) (imm : BitVec 13) (s : State) : Result := branch (!lessSigned (s.x rs1) (s.x rs2)) imm s

/-- BLTU (R235). -/
def execBltu (rs1 rs2 : Reg) (imm : BitVec 13) (s : State) : Result := branch (lessUnsigned (s.x rs1) (s.x rs2)) imm s

/-- BGEU (R236). -/
def execBgeu (rs1 rs2 : Reg) (imm : BitVec 13) (s : State) : Result :=
  branch (!lessUnsigned (s.x rs1) (s.x rs2)) imm s

end Sys2Proof.Machine
end

