-- ==== Sys2Proof/Machine/LoadStore.lean ====
section
/-! DEFINITION. Loads and stores (40_load_store.md R130 to R138). -/

namespace Sys2Proof.Machine

/-- A load: read `n` bytes at `x[rs1] + sext_12(imm)`, extend, write `rd`. An unmapped byte is fatal and leaves `rd`. -/
def load (n : Nat) (extend : Word → Word) (rd rs1 : Reg) (imm : BitVec 12) (s : State) : Result :=
  (memRead n (s.baseDisp rs1 imm) s).finish fun v t => t.writeBack rd (extend v)

/-- A store: write the `n` low bytes of `x[rs2]` at `x[rs1] + sext_12(imm)`. -/
def store (n : Nat) (rs1 rs2 : Reg) (imm : BitVec 12) (s : State) : Result :=
  (memWrite n (s.baseDisp rs1 imm) (s.x rs2) s).finish fun _ t => .next t.advance

/-- LB (R131). -/
def execLb (rd rs1 : Reg) (imm : BitVec 12) (s : State) : Result := load 1 sext8 rd rs1 imm s

/-- LH (R132). -/
def execLh (rd rs1 : Reg) (imm : BitVec 12) (s : State) : Result := load 2 sext16 rd rs1 imm s

/-- LW (R133). -/
def execLw (rd rs1 : Reg) (imm : BitVec 12) (s : State) : Result := load 4 id rd rs1 imm s

/-- LBU (R134). -/
def execLbu (rd rs1 : Reg) (imm : BitVec 12) (s : State) : Result := load 1 zext8 rd rs1 imm s

/-- LHU (R135). -/
def execLhu (rd rs1 : Reg) (imm : BitVec 12) (s : State) : Result := load 2 zext16 rd rs1 imm s

/-- SB (R136). -/
def execSb (rs1 rs2 : Reg) (imm : BitVec 12) (s : State) : Result := store 1 rs1 rs2 imm s

/-- SH (R137). -/
def execSh (rs1 rs2 : Reg) (imm : BitVec 12) (s : State) : Result := store 2 rs1 rs2 imm s

/-- SW (R138). -/
def execSw (rs1 rs2 : Reg) (imm : BitVec 12) (s : State) : Result := store 4 rs1 rs2 imm s

end Sys2Proof.Machine
end

