-- ==== Sys2Proof/Machine/MulDiv.lean ====
section
/-! DEFINITION. Multiply and divide (43_muldiv.md R190 to R199). Products are taken as integers, then cut (R190). -/

namespace Sys2Proof.Machine

/-- `(s(a) * s(b))[31:0]` (R191). -/
def mulLow (a b : Word) : Word := BitVec.ofInt 32 (signed a * signed b)

/-- `(s(a) * s(b) mod 2^64)[63:32]` (R192). -/
def mulHighSigned (a b : Word) : Word := (BitVec.ofInt 64 (signed a * signed b)).extractLsb' 32 32

/-- `(u(a) * u(b))[63:32]` (R193). -/
def mulHighUnsigned (a b : Word) : Word := (BitVec.ofNat 64 (unsigned a * unsigned b)).extractLsb' 32 32

/-- `INT_MIN / -1` (R194, R199). -/
def divOverflow (a b : Word) : Bool := a = 0x80000000#32 && b = 0xFFFFFFFF#32

/-- DIV's result, rounded toward zero, with the corner values of R199 (R194; 92_eei_decisions.md D2). -/
def divSigned (a b : Word) : Word :=
  if b = 0#32 then 0xFFFFFFFF#32
  else if divOverflow a b then 0x80000000#32
  else BitVec.ofInt 32 (Int.tdiv (signed a) (signed b))

/-- DIVU's result (R195, R199). -/
def divUnsigned (a b : Word) : Word :=
  if b = 0#32 then 0xFFFFFFFF#32 else BitVec.ofNat 32 (unsigned a / unsigned b)

/-- REM's result, `a - b * trunc(a / b)`, with the corner values of R199 (R196). -/
def remSigned (a b : Word) : Word :=
  if b = 0#32 then a
  else if divOverflow a b then 0#32
  else BitVec.ofInt 32 (signed a - signed b * Int.tdiv (signed a) (signed b))

/-- REMU's result (R197, R199). -/
def remUnsigned (a b : Word) : Word :=
  if b = 0#32 then a else BitVec.ofNat 32 (unsigned a % unsigned b)

/-- End a division: a corner under `DIV_CORNER = fault` is fatal and writes nothing, else `rd` gets the result (R199;
log 16). -/
def finishDiv (inst : Word) (corner : Bool) (rd : Reg) (v : Word) (s : State) : Result :=
  if corner && s.cfg.divCorner = .fault then fatal (.unimplementedInstruction inst) s else s.writeBack rd v

/-- MUL (R191). -/
def execMul (rd rs1 rs2 : Reg) (s : State) : Result := s.writeBack rd (mulLow (s.x rs1) (s.x rs2))

/-- MULH (R192). -/
def execMulh (rd rs1 rs2 : Reg) (s : State) : Result := s.writeBack rd (mulHighSigned (s.x rs1) (s.x rs2))

/-- MULHU (R193). -/
def execMulhu (rd rs1 rs2 : Reg) (s : State) : Result := s.writeBack rd (mulHighUnsigned (s.x rs1) (s.x rs2))

/-- DIV (R194). -/
def execDiv (rd rs1 rs2 : Reg) (s : State) : Result :=
  finishDiv (encode (.div rd rs1 rs2)) (s.x rs2 = 0#32 || divOverflow (s.x rs1) (s.x rs2)) rd
    (divSigned (s.x rs1) (s.x rs2)) s

/-- DIVU (R195). -/
def execDivu (rd rs1 rs2 : Reg) (s : State) : Result :=
  finishDiv (encode (.divu rd rs1 rs2)) (s.x rs2 = 0#32) rd (divUnsigned (s.x rs1) (s.x rs2)) s

/-- REM (R196). -/
def execRem (rd rs1 rs2 : Reg) (s : State) : Result :=
  finishDiv (encode (.rem rd rs1 rs2)) (s.x rs2 = 0#32 || divOverflow (s.x rs1) (s.x rs2)) rd
    (remSigned (s.x rs1) (s.x rs2)) s

/-- REMU (R197). -/
def execRemu (rd rs1 rs2 : Reg) (s : State) : Result :=
  finishDiv (encode (.remu rd rs1 rs2)) (s.x rs2 = 0#32) rd (remUnsigned (s.x rs1) (s.x rs2)) s

end Sys2Proof.Machine
end

