-- ==== Sys2Proof/Machine/System.lean ====
section
/-! DEFINITION. CSR and system instructions (48_csr_system.md R270 to R281) and FENCE (49_fence.md R300). -/

namespace Sys2Proof.Machine

/-- The order of every CSR instruction: the read if one happens, then the write if one happens, then `rd` (R272). Where no
read happens, `rd` is x0 and the old value is used nowhere. -/
def csrAccess (inst : Word) (csr : CsrNum) (rd : Reg) (reads writes : Bool) (new : Word → Word) (s : State) : Result :=
  orFatal (if reads then s.csrRead csr inst else .ok 0#32) s fun old =>
    orFatal (if writes then s.csrWrite csr (new old) inst else .ok s) s fun t => t.writeBack rd old

/-- CSRRW (R273). -/
def execCsrrw (rd rs1 : Reg) (csr : CsrNum) (s : State) : Result :=
  csrAccess (encode (.csrrw rd rs1 csr)) csr rd (rd != 0#5) true (fun _ => s.x rs1) s

/-- CSRRS (R274). -/
def execCsrrs (rd rs1 : Reg) (csr : CsrNum) (s : State) : Result :=
  csrAccess (encode (.csrrs rd rs1 csr)) csr rd true (rs1 != 0#5) (fun old => old ||| s.x rs1) s

/-- CSRRC (R275). -/
def execCsrrc (rd rs1 : Reg) (csr : CsrNum) (s : State) : Result :=
  csrAccess (encode (.csrrc rd rs1 csr)) csr rd true (rs1 != 0#5) (fun old => old &&& ~~~(s.x rs1)) s

/-- CSRRWI (R276). -/
def execCsrrwi (rd : Reg) (uimm : BitVec 5) (csr : CsrNum) (s : State) : Result :=
  csrAccess (encode (.csrrwi rd uimm csr)) csr rd (rd != 0#5) true (fun _ => zext5 uimm) s

/-- CSRRSI (R277). -/
def execCsrrsi (rd : Reg) (uimm : BitVec 5) (csr : CsrNum) (s : State) : Result :=
  csrAccess (encode (.csrrsi rd uimm csr)) csr rd true (uimm != 0#5) (fun old => old ||| zext5 uimm) s

/-- CSRRCI (R278). -/
def execCsrrci (rd : Reg) (uimm : BitVec 5) (csr : CsrNum) (s : State) : Result :=
  csrAccess (encode (.csrrci rd uimm csr)) csr rd true (uimm != 0#5) (fun old => old &&& ~~~(zext5 uimm)) s

/-- ECALL: "accepted and architecturally ignored", no trap (R279). -/
def execEcall (s : State) : Result := .next s.advance

/-- EBREAK: no effect (R280). -/
def execEbreak (s : State) : Result := .next s.advance

/-- MRET: `return_from_trap()`, in every privilege mode (R281; 60_exceptions.md R340, R350). -/
def execMret (s : State) : Result := orFatal s.returnFromTrap s .next

/-- FENCE: a no-op, every access is already in order (49_fence.md R300). -/
def execFence (s : State) : Result := .next s.advance

end Sys2Proof.Machine
end

