-- ==== Sys2Proof/Machine/UpperJumps.lean ====
section
/-! DEFINITION. Upper immediates (46_upper_immediate.md R250, R251) and jumps (47_jumps.md R260, R261). -/

namespace Sys2Proof.Machine

/-- LUI (R250). -/
def execLui (rd : Reg) (imm : BitVec 20) (s : State) : Result := s.writeBack rd (upperImm imm)

/-- AUIPC: `pc` is the address of the AUIPC itself (R251). -/
def execAuipc (rd : Reg) (imm : BitVec 20) (s : State) : Result := s.writeBack rd (s.pc + upperImm imm)

/-- JAL (R260). -/
def execJal (rd : Reg) (imm : BitVec 21) (s : State) : Result :=
  .next ((s.redirect (s.pcRelative (sext21 imm))).setX rd s.link)

/-- JALR: the target comes from the old `x[rs1]`, `rd` is written last (R261). -/
def execJalr (rd rs1 : Reg) (imm : BitVec 12) (s : State) : Result :=
  .next ((s.redirect (s.jalrTarget rs1 imm)).setX rd s.link)

end Sys2Proof.Machine
end

