-- ==== Sys2Proof/Machine/Sequence.lean ====
section
/-! DEFINITION. The step sequence of 10_state.md R31 around the execution engine, and the loading of RAM from outside
(70_reset_and_hazards.md R366). -/

namespace Sys2Proof.Machine

/-- Instruction fetch: `MemRead(pc, 4)` through the router, with a device's side effects where a device holds the bytes
(10_state.md R29). -/
def fetch (s : State) : Access Word := memRead 4 s.pc s

/-- Step 3: decode and execute the fetched word; a word that matches no row is fatal (30_encoding.md R110, R117). -/
def executeWord (w : Word) (s : State) : Result :=
  match decode w with
  | .ok i => exec i s
  | .error _ => fatal (.unimplementedInstruction w) s

/-- Steps 5 and 6: x0 is forced to zero, the instruction is counted, the CLINT acts (R31, R50; log 6). -/
def State.retired (s : State) : State := { s.forceX0 with instret := s.instret + 1 }.clintTick

/-- Step 8: the host's stop check (R31; 70_reset_and_hazards.md R372; log 8). -/
def State.hostStop (s : State) : State := { s with stopped := s.stopped || s.cfg.maxInsns == some s.instret }

/-- Steps 5 to 8, after the engine has answered a state. -/
def retire (s : State) : Result :=
  match s.retired.interruptCheck with
  | .next t => .next t.hostStop
  | .fault f => .fault f
  | .refused r => .refused r

/-- One whole step of a core that runs: fetch, execute, retire. -/
def runningStep (s : State) : Result :=
  (fetch s).finish fun w t =>
    match executeWord w t with
    | .next u => retire u
    | .fault f => .fault f
    | .refused r => .refused r

/-- R31 with its step 1: a halted core takes no step (R32), a run the host has ended takes none (R372), and a
configuration that breaks 00_scope.md R11 is refused. -/
def stepSequence (s : State) : Result :=
  if validConfig s.cfg then
    match s.halt with
    | some r => .fault (.alreadyHalted r)
    | none => if s.stopped then .refused .stoppedByHost else runningStep s
  else .refused .invalidConfiguration

/-- The boot collaborator's write of bytes to RAM, ascending from an address; an address outside RAM is skipped (R366). -/
def State.loadRam (s : State) (a : Word) : List Byte → State
  | [] => s
  | b :: bs => (if regionOf s.cfg a.toNat = some .ram then s.setRamByte a.toNat b else s).loadRam (a + 1#32) bs

/-- An instruction's word loaded where the next fetch reads; `nbits` bits of `w`, the bits above 0 (log 14). -/
def State.loadFetchWord (s : State) (nbits w : Nat) : State :=
  s.loadRam s.pc (leBytes 4 (BitVec.ofNat 32 (w % 2 ^ nbits)))

end Sys2Proof.Machine
end

