-- ==== Sys2Proof/Machine/Step.lean ====
section
/-! DEFINITION. The step of the machine and the loading of its next instruction. -/

namespace Sys2Proof.Machine

/-- One step is one whole instruction (00_scope.md R19; 10_state.md R31). -/
def step (s : State) : Host.Outcome State Fault Refusal := stepSequence s

/-- `s` with an instruction's word in RAM at `pc`, where the next step fetches (log 14). -/
def State.withFetchWord (s : State) (nbits w : Nat) : State := s.loadFetchWord nbits w

end Sys2Proof.Machine
end

