-- ==== Sys2Proof/Safety.lean ====
section
/-! DEFINITION. The vocabulary of claims: what a safe run is, the invariant of the machine, and the frames (what an
instruction leaves unchanged). -/

namespace Sys2Proof.Machine

/-! ## Bytes and addresses -/

/-- The address of byte `k` of an access at `a`, modulo 2^32 (00_scope.md R15). -/
def byteAddr (a : Word) (k : Nat) : Nat := (a + BitVec.ofNat 32 k).toNat

/-- The number a byte string stands for, the lowest address first (20_memory.md R68). -/
def leNat : List Byte → Nat
  | [] => 0
  | b :: bs => b.toNat + 256 * leNat bs

/-- Every one of the `n` bytes at `a` is in some region (20_memory.md R64). -/
def Mapped (s : State) (a : Word) (n : Nat) : Prop := ∀ k, k < n → regionOf s.cfg (byteAddr a k) ≠ none

/-- Every one of the `n` bytes at `a` is in RAM. -/
def InRam (s : State) (a : Word) (n : Nat) : Prop := ∀ k, k < n → regionOf s.cfg (byteAddr a k) = some .ram

/-- Byte `k` is the first of the access at `a` that is in no region (20_memory.md R67). -/
def FirstUnmapped (s : State) (a : Word) (k : Nat) : Prop :=
  Mapped s a k ∧ regionOf s.cfg (byteAddr a k) = none

/-- The device and offset an address belongs to, if it is in a device window (20_memory.md R61). -/
def deviceAt (c : Config) (a : Nat) : Option (Device × Nat) :=
  match regionOf c a with
  | some .uart => some (.uart, a - c.uartBase)
  | some .clint => some (.clint, a - c.clintBase)
  | some .ram => none
  | none => none

/-- The transactions of an access at `a` whose bytes are `bs`, newest first: one per byte in a device window, in ascending
address order (20_memory.md R73). -/
def deviceTxs (s : State) (way : Byte → Transfer) : Word → List Byte → List DeviceTx
  | _, [] => []
  | a, b :: bs =>
    deviceTxs s way (a + 1#32) bs ++
      (match deviceAt s.cfg a.toNat with
        | some (d, offset) => [⟨d, offset, s.instret, way b⟩]
        | none => [])

/-! ## Frames -/

/-- Every CSR, the three mstatus flags and the privilege mode are unchanged. -/
structure SameCsrs (s t : State) : Prop where
  mode     : t.mode = s.mode
  statMIE  : t.statusMIE = s.statusMIE
  statMPIE : t.statusMPIE = s.statusMPIE
  statMPP  : t.statusMPP = s.statusMPP
  mie      : t.mie = s.mie
  mip      : t.mip = s.mip
  mtvec    : t.mtvec = s.mtvec
  mscratch : t.mscratch = s.mscratch
  mepc     : t.mepc = s.mepc
  mcause   : t.mcause = s.mcause
  mtval    : t.mtval = s.mtval

/-- The configuration, the retired-instruction count, the halted flag and the host's stop are unchanged. -/
structure SameRun (s t : State) : Prop where
  cfg     : t.cfg = s.cfg
  instret : t.instret = s.instret
  halt    : t.halt = s.halt
  stopped : t.stopped = s.stopped

/-- Every general register is unchanged. -/
def SameRegs (s t : State) : Prop := ∀ r, t.x r = s.x r

/-- Every general register but `rd` is unchanged, and `rd` holds what `p` says, or 0 where `rd` is x0. -/
def WritesReg (rd : Reg) (p : Word → Prop) (s t : State) : Prop :=
  (rd = 0#5 → t.x rd = 0#32) ∧ (rd ≠ 0#5 → p (t.x rd)) ∧ ∀ r, r ≠ rd → t.x r = s.x r

/-- Every byte of RAM reads as before. -/
def SameRam (s t : State) : Prop := ∀ a, t.ramByte a = s.ramByte a

/-- RAM after the bytes of an access at `a`: a byte of it that is in RAM holds its byte of `v`, every other address reads
as before. Only the first `n` bytes are stored. -/
def RamHolds (s t : State) (a : Word) (n : Nat) (v : Nat) : Prop :=
  (∀ k, k < n → regionOf s.cfg (byteAddr a k) = some .ram → (t.ramByte (byteAddr a k)).toNat = v / 256 ^ k % 256) ∧
  (∀ b, (∀ k, k < n → regionOf s.cfg (byteAddr a k) = some .ram → b ≠ byteAddr a k) → t.ramByte b = s.ramByte b)

/-- Nothing but registers and `pc` may differ: CSRs, mode, run state, reservation, RAM and device ports are unchanged. -/
structure RegFrame (s t : State) : Prop where
  csrs        : SameCsrs s t
  run         : SameRun s t
  reservation : t.reservation = s.reservation
  ram         : SameRam s t
  io          : t.io = s.io

/-- The instruction completes, writes `rd` alone with a value `p` allows, and `pc` advances by 4. -/
def CompletesReg (i : Instr) (s : State) (rd : Reg) (p : Word → Prop) : Prop :=
  ∃ t, exec i s = .next t ∧ WritesReg rd p s t ∧ RegFrame s t ∧ t.pc = s.pc + 4#32

/-- The core has halted from `s` with a reason: the record holds it and the address of the instruction, and registers,
`pc`, CSRs, reservation and count are those of `s` (10_state.md R32). Memory and device ports are not spoken of. -/
structure HaltedFrom (s t : State) (r : Fatal) : Prop where
  record      : t.halt = some ⟨r, s.pc⟩
  pc          : t.pc = s.pc
  regs        : SameRegs s t
  csrs        : SameCsrs s t
  reservation : t.reservation = s.reservation
  cfg         : t.cfg = s.cfg
  instret     : t.instret = s.instret
  stopped     : t.stopped = s.stopped

/-- The encoding of the instruction is the opcode table's row of that name (30_encoding.md R110). -/
def InRow (i : Instr) (name : String) : Prop := ∃ r ∈ opcodeTable, r.mnemonic = name ∧ r.matchesWord (encode i) = true

/-! ## The machine as a whole -/

/-- A state from which a step is taken (10_state.md R31 step 1). -/
structure Running (s : State) : Prop where
  config  : validConfig s.cfg = true
  halt    : s.halt = none
  stopped : s.stopped = false

/-- A transaction lies in its device's window and in the past (20_memory.md R61, R73). -/
def txOk (c : Config) (now : Nat) (t : DeviceTx) : Prop :=
  t.time ≤ now ∧
    match t.device with
    | .uart => t.offset < uartSize
    | .clint => t.offset < c.clintSize

/-- The invariant of the machine: a configuration of this hardware, not halted, x0's slot zero, RAM in canonical form and
listing only RAM addresses, every recorded transaction inside its window. -/
structure Inv (s : State) : Prop where
  config : validConfig s.cfg = true
  halt   : s.halt = none
  x0     : s.regs[0] = 0#32
  memWf  : Memory.wf s.cfg.ramFill s.mem = true
  memRam : ∀ c ∈ s.mem, regionOf s.cfg c.1 = some .ram
  io     : ∀ t ∈ s.io, txOk s.cfg s.instret t

/-- A safe step: the core goes on. -/
def SafeStep (s : State) : Prop := ∃ t, step s = .next t

/-- Step 2 and the decoding of step 3 (10_state.md R31): `s` fetches a word that decodes to `i`; `u` is the state the
fetch leaves, `s` itself but for device transactions. -/
def Fetches (s : State) (i : Instr) (u : State) : Prop := ∃ w, fetch s = .ok w u ∧ decode w = .ok i

/-- What the step does with the engine's answer: steps 5 to 8 follow a next state. -/
def thenRetire : Result → Result
  | .next v => retire v
  | .fault f => .fault f
  | .refused r => .refused r

/-- An answer with its states changed by `f`, the halted state of a fatal condition included. -/
def mapResult (f : State → State) : Result → Result
  | .next s => .next (f s)
  | .fault (.fatal r s) => .fault (.fatal r (f s))
  | .fault (.alreadyHalted r) => .fault (.alreadyHalted r)
  | .refused r => .refused r

/-! ## Kinds of instruction -/

/-- Whether an instruction is one of the six CSR instructions (48_csr_system.md R273 to R278). -/
def isCsrInstr : Instr → Bool
  | .csrrw .. | .csrrs .. | .csrrc .. | .csrrwi .. | .csrrsi .. | .csrrci .. => true
  | _ => false

/-- The CSR number a CSR instruction names. -/
def csrNamed : Instr → Option CsrNum
  | .csrrw _ _ n | .csrrs _ _ n | .csrrc _ _ n | .csrrwi _ _ n | .csrrsi _ _ n | .csrrci _ _ n => some n
  | _ => none

/-- Whether an instruction is LR.W or SC.W (10_state.md R34). -/
def isReservationInstr : Instr → Bool
  | .lrW .. | .scW .. => true
  | _ => false

/-- Whether an instruction stores to memory (20_memory.md R71). -/
def isStoring : Instr → Bool
  | .sb .. | .sh .. | .sw .. | .scW .. | .amoaddW .. | .amoorW .. => true
  | _ => false

/-- The bytes a store of more than one byte stores to, and the register value whose low bytes it stores there. -/
structure WideStore where
  address : Word
  bytes   : Nat
  value   : Word
  deriving DecidableEq, Repr

/-- What a store of several bytes stores, and where: the stores that can be performed in part (10_state.md R32; 20_memory.md
R67). An AMO is none: it has read the same bytes before it writes. -/
def wideStore (s : State) : Instr → Option WideStore
  | .sh rs1 rs2 imm => some ⟨s.baseDisp rs1 imm, 2, s.x rs2⟩
  | .sw rs1 rs2 imm => some ⟨s.baseDisp rs1 imm, 4, s.x rs2⟩
  | .scW _ rs1 rs2 _ _ => some ⟨s.x rs1, 4, s.x rs2⟩
  | _ => none

/-- A store halts the core at its byte `k`, the first one in no region: the bytes below it are written, every other RAM byte
is as before (20_memory.md R67; decision D8). RAM is spoken of from a memory in canonical form. -/
def StopsInside (w : WideStore) (s t : State) (r : Fatal) : Prop :=
  ∃ k, k < w.bytes ∧ FirstUnmapped s w.address k ∧ r = .unmappedAddress (w.address + BitVec.ofNat 32 k) ∧
    (Memory.wf s.cfg.ramFill s.mem = true → RamHolds s t w.address k (unsigned w.value))

/-- Whether an instruction reads memory as data (20_memory.md R71). -/
def isLoading : Instr → Bool
  | .lb .. | .lh .. | .lw .. | .lbu .. | .lhu .. | .lrW .. | .amoaddW .. | .amoorW .. => true
  | _ => false

/-- The destination register of an instruction (10_state.md R22). FENCE has an `rd` field and writes no register. -/
def destination : Instr → Option Reg
  | .lb rd _ _ | .lh rd _ _ | .lw rd _ _ | .lbu rd _ _ | .lhu rd _ _ => some rd
  | .addi rd _ _ | .sltiu rd _ _ | .xori rd _ _ | .ori rd _ _ | .andi rd _ _ => some rd
  | .slli rd _ _ | .srli rd _ _ | .srai rd _ _ => some rd
  | .add rd _ _ | .sub rd _ _ | .sll rd _ _ | .slt rd _ _ | .sltu rd _ _ => some rd
  | .xor rd _ _ | .srl rd _ _ | .sra rd _ _ | .or rd _ _ | .and rd _ _ => some rd
  | .mul rd _ _ | .mulh rd _ _ | .mulhu rd _ _ | .div rd _ _ | .divu rd _ _ | .rem rd _ _ | .remu rd _ _ => some rd
  | .lrW rd _ _ _ | .scW rd _ _ _ _ | .amoaddW rd _ _ _ _ | .amoorW rd _ _ _ _ => some rd
  | .lui rd _ | .auipc rd _ | .jal rd _ | .jalr rd _ _ => some rd
  | .csrrw rd _ _ | .csrrs rd _ _ | .csrrc rd _ _ | .csrrwi rd _ _ | .csrrsi rd _ _ | .csrrci rd _ _ => some rd
  | .sb .. | .sh .. | .sw .. | .beq .. | .bne .. | .blt .. | .bge .. | .bltu .. | .bgeu .. => none
  | .ecall | .ebreak | .mret | .fence .. => none

/-- A run of steps none of which executes LR.W or SC.W. -/
inductive QuietRun : State → State → Prop where
  | refl (s : State) : QuietRun s s
  | step {s t u w : State} {i : Instr} (before : QuietRun s t) (fetches : Fetches t i w)
      (quiet : isReservationInstr i = false) (next : Machine.step t = .next u) : QuietRun s u

/-! ## Shapes of instruction laws -/

/-- The bytes of the number `v`, lowest first, `n` of them (20_memory.md R68). -/
def BytesOf (bs : List Byte) (n v : Nat) : Prop := bs.length = n ∧ leNat bs = v % 256 ^ n

/-- The row of an instruction that writes one register, and its completion from every state with a value `p` allows. -/
def RegLaw (i : Instr) (name : String) (rd : Reg) (p : State → Word → Prop) : Prop :=
  InRow i name ∧ ∀ s, CompletesReg i s rd (p s)

/-- An instruction halts the core: registers, `pc`, CSRs, reservation, count, RAM and device ports are as before. -/
def HaltsClean (i : Instr) (s : State) (r : Fatal) : Prop :=
  ∃ t, exec i s = .fault (.fatal r t) ∧ HaltedFrom s t r ∧ SameRam s t ∧ t.io = s.io

/-- A word matches no row and halts the core with itself as info (30_encoding.md R117). -/
def RejectsWord (w : Word) : Prop :=
  ∀ s, ∃ t, executeWord w s = .fault (.fatal (.unimplementedInstruction w) t) ∧
    HaltedFrom s t (.unimplementedInstruction w) ∧ SameRam s t ∧ t.io = s.io

/-- A read of `n` bytes at `a` followed by a write of `rd` and `pc + 4`: where every byte is mapped it completes, `rd`
holds what `value` says of the number read, RAM bytes are the ones RAM holds, device bytes are the device's, one
transaction each. Where byte `k` is the first unmapped one it halts with that address; nothing but device transactions of
the bytes below is left. `held` is the reservation after completion. -/
def LoadEffect (i : Instr) (s : State) (n : Nat) (rd : Reg) (a : Word) (value : Nat → Word → Prop)
    (held : Option Word) : Prop :=
  (Mapped s a n → ∃ t bs, exec i s = .next t ∧ bs.length = n ∧
    (∀ k, k < n → regionOf s.cfg (byteAddr a k) = some .ram → bs[k]? = some (s.ramByte (byteAddr a k))) ∧
    WritesReg rd (value (leNat bs)) s t ∧ SameCsrs s t ∧ SameRun s t ∧ t.reservation = held ∧ SameRam s t ∧
    t.io = deviceTxs s .read a bs ++ s.io ∧ t.pc = s.pc + 4#32) ∧
  ∀ k, k < n → FirstUnmapped s a k → ∃ t bs,
    exec i s = .fault (.fatal (.unmappedAddress (a + BitVec.ofNat 32 k)) t) ∧ bs.length = k ∧
    HaltedFrom s t (.unmappedAddress (a + BitVec.ofNat 32 k)) ∧ SameRam s t ∧ t.io = deviceTxs s .read a bs ++ s.io

/-- The row of a load and its effect at `x[rs1] + sext_12(imm)` (40_load_store.md R130 to R135). -/
def LoadLaw (i : Instr) (name : String) (n : Nat) (rd rs1 : Reg) (imm : BitVec 12) (value : Nat → Word → Prop) : Prop :=
  InRow i name ∧ ∀ s, LoadEffect i s n rd (s.baseDisp rs1 imm) value s.reservation

/-- The row of a store and its effect: the `n` low bytes of `x[rs2]` at `x[rs1] + sext_12(imm)`. Where byte `k` is the
first unmapped one, the bytes below it are written and the core halts with that address (40_load_store.md R136 to R138;
20_memory.md R67). RAM is spoken of from a memory in canonical form, which every step keeps. -/
def StoreLaw (i : Instr) (name : String) (n : Nat) (rs1 rs2 : Reg) (imm : BitVec 12) : Prop :=
  InRow i name ∧ ∀ s,
    (Mapped s (s.baseDisp rs1 imm) n → ∃ t bs, exec i s = .next t ∧ BytesOf bs n (unsigned (s.x rs2)) ∧
      SameRegs s t ∧ SameCsrs s t ∧ SameRun s t ∧ t.reservation = s.reservation ∧
      (Memory.wf s.cfg.ramFill s.mem = true → RamHolds s t (s.baseDisp rs1 imm) n (unsigned (s.x rs2))) ∧
      t.io = deviceTxs s .write (s.baseDisp rs1 imm) bs ++ s.io ∧ t.pc = s.pc + 4#32) ∧
    ∀ k, k < n → FirstUnmapped s (s.baseDisp rs1 imm) k → ∃ t bs,
      exec i s = .fault (.fatal (.unmappedAddress (s.baseDisp rs1 imm + BitVec.ofNat 32 k)) t) ∧
      BytesOf bs k (unsigned (s.x rs2)) ∧
      HaltedFrom s t (.unmappedAddress (s.baseDisp rs1 imm + BitVec.ofNat 32 k)) ∧
      (Memory.wf s.cfg.ramFill s.mem = true → RamHolds s t (s.baseDisp rs1 imm) k (unsigned (s.x rs2))) ∧
      t.io = deviceTxs s .write (s.baseDisp rs1 imm) bs ++ s.io

/-- The row of a branch and its effect: only `pc` changes, to `pc` plus the signed offset exactly when the condition
holds, else to `pc + 4`, modulo 2^32 (45_branches.md R230). -/
def BranchLaw (i : Instr) (name : String) (imm : BitVec 13) (taken : State → Prop) : Prop :=
  InRow i name ∧ ∀ s, ∃ t, exec i s = .next t ∧ SameRegs s t ∧ RegFrame s t ∧
    (taken s → (unsigned t.pc : Int) = (unsigned s.pc + imm.toInt) % 2 ^ 32) ∧
    (¬taken s → (unsigned t.pc : Int) = (unsigned s.pc + 4) % 2 ^ 32)

/-- The row of an AMO and its effect at `x[rs1]`: the old word goes to `rd`, the new word `f old x[rs2]` to memory; the
read's transactions come before the write's (44_atomics.md R210, R214, R215). -/
def AmoLaw (i : Instr) (name : String) (rd rs1 rs2 : Reg) (f : Word → Word → Word → Prop) : Prop :=
  InRow i name ∧ ∀ s, (s.cfg.amoAlias = .fault → rd ≠ 0#5 → rd ≠ rs1 ∧ rd ≠ rs2) →
    (Mapped s (s.x rs1) 4 → ∃ t old new bs cs, exec i s = .next t ∧ BytesOf bs 4 (unsigned old) ∧
      BytesOf cs 4 (unsigned new) ∧ f old (s.x rs2) new ∧
      (∀ k, k < 4 → regionOf s.cfg (byteAddr (s.x rs1) k) = some .ram →
        bs[k]? = some (s.ramByte (byteAddr (s.x rs1) k))) ∧
      WritesReg rd (fun v => v = old) s t ∧ SameCsrs s t ∧ SameRun s t ∧ t.reservation = s.reservation ∧
      (Memory.wf s.cfg.ramFill s.mem = true → RamHolds s t (s.x rs1) 4 (unsigned new)) ∧
      t.io = deviceTxs s .write (s.x rs1) cs ++ (deviceTxs s .read (s.x rs1) bs ++ s.io) ∧ t.pc = s.pc + 4#32) ∧
    ∀ k, k < 4 → FirstUnmapped s (s.x rs1) k → ∃ t bs,
      exec i s = .fault (.fatal (.unmappedAddress (s.x rs1 + BitVec.ofNat 32 k)) t) ∧ bs.length = k ∧
      HaltedFrom s t (.unmappedAddress (s.x rs1 + BitVec.ofNat 32 k)) ∧ SameRam s t ∧
      t.io = deviceTxs s .read (s.x rs1) bs ++ s.io

/-! ## CSR accesses -/

/-- The read/write CSRs of 10_state.md R36. -/
def csrWritable (n : CsrNum) : Prop :=
  n ∈ [0x300#12, 0x304#12, 0x305#12, 0x340#12, 0x341#12, 0x342#12, 0x343#12, 0x344#12]

/-- The recognised CSRs of 10_state.md R36. -/
def csrReadable (n : CsrNum) : Prop := csrWritable n ∨ n ∈ [0xF11#12, 0xF12#12, 0xF13#12, 0xF14#12]

/-- One CSR instruction as 48_csr_system.md R272 to R278 give it: whether it reads, whether it writes, and the word it
writes, from the state before and the old CSR value. -/
structure CsrForm where
  instr  : Instr
  name   : String
  reads  : Bool
  writes : Bool
  new    : State → Word → Word

/-- The six CSR instructions with destination `rd`, source field `r` and CSR number `csr`. -/
def csrForms (rd r : Reg) (csr : CsrNum) : List CsrForm :=
  [ ⟨.csrrw rd r csr, "CSRRW", rd != 0#5, true, fun s _ => s.x r⟩
  , ⟨.csrrs rd r csr, "CSRRS", true, r != 0#5, fun s old => old ||| s.x r⟩
  , ⟨.csrrc rd r csr, "CSRRC", true, r != 0#5, fun s old => old &&& ~~~(s.x r)⟩
  , ⟨.csrrwi rd r csr, "CSRRWI", rd != 0#5, true, fun _ _ => BitVec.ofNat 32 r.toNat⟩
  , ⟨.csrrsi rd r csr, "CSRRSI", true, r != 0#5, fun _ old => old ||| BitVec.ofNat 32 r.toNat⟩
  , ⟨.csrrci rd r csr, "CSRRCI", true, r != 0#5, fun _ old => old &&& ~~~(BitVec.ofNat 32 r.toNat)⟩ ]

/-- The accesses a CSR instruction makes are to CSRs that allow them (48_csr_system.md R270 to R272). -/
def CsrAllowed (f : CsrForm) (csr : CsrNum) : Prop :=
  (f.reads = true → csrReadable csr) ∧ (f.writes = true → csrWritable csr)

end Sys2Proof.Machine
end

