-- ==== Sys2Proof/Certificates/Slice0/Obligations.lean ====
section
/-! DEFINITION. The statements about the machine, from the numbered rules of spec/. A docstring names the rules a statement
formalises, or the decisions of 92_eei_decisions.md (log 15) and log entries it rests on. -/

open Sys2Proof Sys2Proof.Machine

/-! ## Encoding and decoding -/

/-- 30_encoding.md R102, for all instructions: the encoder loses no field and the decoder reads each one back. -/
def Obligations.DecodeOfEncodeIsInstruction : Prop :=
  ∀ i : Instr, i.wf = true → decode (encode i) = .ok i

/-- The other direction of R102: a word that decodes has one meaning, and every bit of it is kept. -/
def Obligations.EncodeOfDecodeIsWord : Prop :=
  ∀ (w : Word) (i : Instr), decode w = .ok i → encode i = w ∧ i.wf = true

/-- 30_encoding.md R110, R117: the decoder and spec/opcode_table.json accept the same words and name them alike; a word of
no row is rejected with itself. -/
def Obligations.DecodeFollowsOpcodeTable : Prop :=
  ∀ w : Word,
    (∀ i, decode w = .ok i → ∃ r ∈ opcodeTable, r.mnemonic = i.mnemonic ∧ r.matchesWord w = true) ∧
    (decode w = .error (.unimplemented w) ↔ ∀ r ∈ opcodeTable, r.matchesWord w = false)

/-- 30_encoding.md R110: "No two rows of the table match the same word, so the lookup is a function". -/
def Obligations.OpcodeRowsAreDisjoint : Prop :=
  opcodeTable.Pairwise fun r q => ∀ w : Word, ¬(r.matchesWord w = true ∧ q.matchesWord w = true)

/-- Words of 95_test_vectors.md, one of each format, decode to the instructions written beside them there. -/
def Obligations.SpecWordsDecode : Prop :=
  decode 0x00000297#32 = .ok (.auipc 5#5 0#20) ∧ decode 0x008000EF#32 = .ok (.jal 1#5 8#21) ∧
  decode 0x800000EF#32 = .ok (.jal 1#5 0x100000#21) ∧ decode 0x80208063#32 = .ok (.beq 1#5 2#5 0x1000#13) ∧
  decode 0x7E208FE3#32 = .ok (.beq 1#5 2#5 4094#13) ∧ decode 0xFE20AFA3#32 = .ok (.sw 1#5 2#5 0xFFF#12) ∧
  decode 0x002081B3#32 = .ok (.add 3#5 1#5 2#5) ∧ decode 0x4040D193#32 = .ok (.srai 3#5 1#5 4#5) ∧
  decode 0x1820A1AF#32 = .ok (.scW 3#5 1#5 2#5 false false) ∧ decode 0x30509073#32 = .ok (.csrrw 0#5 1#5 0x305#12) ∧
  decode 0x30200073#32 = .ok .mret ∧ decode 0x0FF0000F#32 = .ok (.fence 0#5 0#5 0x0FF#12)

/-- 30_encoding.md R99 with 00_scope.md R13: "if the sign bit of the N-bit field is set, the value equals `field - 2^N`",
for the four widths (13 by 90_conflicts.md C1). -/
def Obligations.SignExtensionSubtractsTwoToTheN : Prop :=
  (∀ f : BitVec 12, signed (sext12 f) = if f.msb then (f.toNat : Int) - 2 ^ 12 else (f.toNat : Int)) ∧
  (∀ f : BitVec 13, signed (sext13 f) = if f.msb then (f.toNat : Int) - 2 ^ 13 else (f.toNat : Int)) ∧
  (∀ f : BitVec 20, signed (sext20 f) = if f.msb then (f.toNat : Int) - 2 ^ 20 else (f.toNat : Int)) ∧
  (∀ f : BitVec 21, signed (sext21 f) = if f.msb then (f.toNat : Int) - 2 ^ 21 else (f.toNat : Int))

/-! ## The step -/

/-- 10_state.md R29, R31: a step of a running core reads the four bytes at `pc` through the router (RAM bytes are the ones
RAM holds, device bytes come from the device), and runs the instruction they decode to; steps 5 to 8 (`thenRetire`) follow
a next state. Where all four bytes are in RAM the fetch leaves the state as it is. -/
def Obligations.StepRunsDecodedInstruction : Prop :=
  (∀ s, Running s → Mapped s s.pc 4 → ∃ bs u, bs.length = 4 ∧ fetch s = .ok (leWord bs) u ∧
    (∀ k, k < 4 → regionOf s.cfg (byteAddr s.pc k) = some .ram → bs[k]? = some (s.ramByte (byteAddr s.pc k))) ∧
    u = { s with io := deviceTxs s .read s.pc bs ++ s.io } ∧
    ∀ i, decode (leWord bs) = .ok i → step s = thenRetire (exec i u)) ∧
  ∀ s i, Running s → InRam s s.pc 4 →
    decode (leWord ((List.range 4).map fun k => s.ramByte (byteAddr s.pc k))) = .ok i → step s = thenRetire (exec i s)

/-- 10_state.md R31 steps 5 to 8 around an engine that answered a next state, as the model names them (log 10): x0 is
forced to zero, the count grows by one, the CLINT may change `mip` alone, then comes the interrupt check, then the host's
stop. -/
def Obligations.RetireFollowsStepSequence : Prop :=
  ∀ v, v.retired = { v with regs := v.regs.set 0 0#32, instret := v.instret + 1, mip := v.retired.mip } ∧
    (∀ t, v.retired.interruptCheck = .next t →
      retire v = .next { t with stopped := t.stopped || t.cfg.maxInsns == some t.instret }) ∧
    (∀ f, v.retired.interruptCheck = .fault f → retire v = .fault f) ∧
    ∀ r, v.retired.interruptCheck ≠ .refused r

/-- 10_state.md R29, 20_memory.md R64: a fetch that meets an unmapped byte halts the core with that byte's address. -/
def Obligations.UnmappedFetchHaltsCore : Prop :=
  ∀ s k, Running s → k < 4 → FirstUnmapped s s.pc k → ∃ t,
    step s = .fault (.fatal (.unmappedAddress (s.pc + BitVec.ofNat 32 k)) t) ∧
    HaltedFrom s t (.unmappedAddress (s.pc + BitVec.ofNat 32 k)) ∧ SameRam s t

/-- 30_encoding.md R117: a fetched word that matches no row halts the core with that word; the absent standard
instructions R117 lists are such words, whatever their register fields (R159, R198, R216, R283, R301). -/
def Obligations.UnmatchedWordHaltsCore : Prop :=
  (∀ s w u, Running s → fetch s = .ok w u → (∀ r ∈ opcodeTable, r.matchesWord w = false) → ∃ t,
    step s = .fault (.fatal (.unimplementedInstruction w) t) ∧ HaltedFrom s t (.unimplementedInstruction w) ∧
    SameRam s t) ∧
  (∀ w, opcodeField w = 0x13#7 → funct3Field w = 0b010#3 → RejectsWord w) ∧
  (∀ w, opcodeField w = 0x33#7 → funct7Field w = 0x01#7 → funct3Field w = 0b010#3 → RejectsWord w) ∧
  (∀ w, opcodeField w = 0x2F#7 →
    funct5Field w ∈ [0b00001#5, 0b00100#5, 0b01100#5, 0b10000#5, 0b10100#5, 0b11000#5, 0b11100#5] → RejectsWord w) ∧
  (∀ w, opcodeField w = 0x0F#7 → funct3Field w ≠ 0b000#3 → RejectsWord w) ∧
  RejectsWord 0x10500073#32 ∧ RejectsWord 0x10200073#32 ∧ RejectsWord 0x00200073#32 ∧
  (∀ w, opcodeField w = 0x73#7 → funct3Field w = 0b000#3 → funct7Field w = 0b0001001#7 → RejectsWord w) ∧
  (∀ w : Word, w.extractLsb' 0 2 ≠ 0b11#2 → RejectsWord w)

/-- 10_state.md R31 step 1, R32; 00_scope.md R11; 70_reset_and_hazards.md R372: a halted core, a run the host has ended and
a configuration that is none of this hardware take no step (log 7, 8, 9). -/
def Obligations.NoStepWhenHaltedStoppedOrInvalid : Prop :=
  (∀ s r, validConfig s.cfg = true → s.halt = some r → step s = .fault (.alreadyHalted r)) ∧
  (∀ s, validConfig s.cfg = true → s.halt = none → s.stopped = true → step s = .refused .stoppedByHost) ∧
  ∀ s, validConfig s.cfg = false → step s = .refused .invalidConfiguration

/-- Every step keeps the machine's invariant: the configuration is one of this hardware, the core is not halted, x0's slot
is zero, RAM is in canonical form and inside its region, every recorded transaction lies in its window. -/
def Obligations.StepKeepsInvariant : Prop :=
  ∀ s t, Machine.Inv s → step s = .next t → Machine.Inv t

/-- The state after reset meets the invariant, and so does every launch state of a configuration of this hardware with a
RAM image in canonical form inside RAM. -/
def Obligations.LaunchHasInvariant : Prop :=
  Machine.Inv State.reset ∧ ∀ cfg gprInit image, validConfig cfg = true → Memory.wf cfg.ramFill image = true →
    (∀ c ∈ image, regionOf cfg c.1 = some .ram) →
    Machine.Inv (State.launch cfg gprInit image)

/-- 10_state.md R51 (the values of decision D18, log 3; GPR_INIT and the image are parameters, log 2, 4). -/
def Obligations.LaunchStateValues : Prop :=
  ∀ cfg (gprInit : Vector Word 32) image, let s := State.launch cfg gprInit image
    s.pc = 0x80000000#32 ∧ s.x 0#5 = 0#32 ∧ (∀ r : Reg, r ≠ 0#5 → s.x r = gprInit[r.toNat]) ∧ s.reservation = none ∧
    s.mode = 3#2 ∧ s.statusMIE = false ∧ s.statusMPIE = false ∧ s.statusMPP = 0#2 ∧
    (∀ n, csrReadable n → s.csrRead n 0#32 = .ok 0#32) ∧ s.instret = 0 ∧ s.halt = none ∧ s.stopped = false ∧
    s.cfg = cfg ∧ ∀ a, s.ramByte a = Memory.read cfg.ramFill image a

/-- 10_state.md R32 with 20_memory.md R67 and 60_exceptions.md R311 (decisions D8 and D11, log 15). A step that ends in a
fatal condition leaves a core that is halted with a record of the reason and the address of the instruction and keeps
registers, `pc` and CSRs from before it. RAM is as before, but for a SH, SW or SC.W: there the bytes below the first
unmapped one hold their bytes of the stored value and every other byte reads as before (from a memory in canonical form,
log 4). The info is the fetched word, or an address in no region, or the CSR named. The one other case is the interrupt
check: the halted state holds the retired instruction's results, and the record's `pc` is the next instruction's. A halted
core takes no further step. -/
def Obligations.FatalStepKeepsStateBeforeInstruction : Prop :=
  (∀ s r t, step s = .fault (.fatal r t) →
    (HaltedFrom s t r ∧
      ((SameRam s t ∧ ∀ i u, Fetches s i u → wideStore u i = none) ∨
        ∃ i u w, Fetches s i u ∧ wideStore u i = some w ∧ StopsInside w s t r) ∧
      ((∃ w u, fetch s = .ok w u ∧ r = .unimplementedInstruction w) ∨
        (∃ a, r = .unmappedAddress a ∧ regionOf s.cfg a.toNat = none) ∨
        ∃ n w u i, fetch s = .ok w u ∧ decode w = .ok i ∧ csrNamed i = some n ∧ r = .unknownCSR n w)) ∨
    ∃ i u v, Fetches s i u ∧ exec i u = .next v ∧ r = .unmodelledInterrupt (t.mip &&& t.mie) ∧
      t = { v.retired with halt := some ⟨r, v.pc⟩ }) ∧
  ∀ s r t, step s = .fault (.fatal r t) → step t = .fault (.alreadyHalted ⟨r, t.pc⟩)

/-- 10_state.md R35: no instruction can set a privilege field above 3. -/
def Obligations.InvalidPrivilegeIsNeverRaised : Prop :=
  ∀ s v t, step s ≠ .fault (.fatal (.invalidPrivilege v) t)

/-- 10_state.md R50: the count grows by exactly one per retired instruction, a fatal instruction is not counted, and no CSR
shows the count. -/
def Obligations.InstretCountsRetiredInstructions : Prop :=
  (∀ s t, step s = .next t → t.instret = s.instret + 1) ∧
  (∀ s r t, step s = .fault (.fatal r t) →
    (t.instret = s.instret ∧ ∀ p, r ≠ .unmodelledInterrupt p) ∨
      (t.instret = s.instret + 1 ∧ ∃ p, r = .unmodelledInterrupt p)) ∧
  ∀ (s : State) k n inst, State.csrRead { s with instret := k } n inst = s.csrRead n inst

/-- 70_reset_and_hazards.md R372 (decision D26, log 8): a run ends by the host's count with the step that retires the
MAX_INSNS-th instruction, its interrupt check done, and not before. -/
def Obligations.HostStopEndsRunAtMaxInsns : Prop :=
  ∀ s t, step s = .next t →
    (t.stopped = true ↔ s.cfg.maxInsns = some t.instret) ∧
    (t.stopped = true → step t = .refused .stoppedByHost)

/-- 20_memory.md R79 and 70_reset_and_hazards.md R366 (log 14): a word stored in RAM at `pc` is what the next step runs, be
it stored by the machine's own word write or loaded from outside. -/
def Obligations.StoredWordIsFetched : Prop :=
  ∀ s, Memory.wf s.cfg.ramFill s.mem = true → InRam s s.pc 4 →
    (∀ w, ∃ t, memWrite 4 s.pc w s = .ok () t ∧ t.pc = s.pc ∧ fetch t = .ok w t) ∧
    ∀ w i, Running s → decode w = .ok i →
      step (s.withFetchWord 32 w.toNat) = thenRetire (exec i (s.withFetchWord 32 w.toNat)) ∧
      s.withFetchWord 32 w.toNat = { s with mem := (s.withFetchWord 32 w.toNat).mem } ∧
      RamHolds s (s.withFetchWord 32 w.toNat) s.pc 4 w.toNat

/-! ## Loads and stores -/

/-- 40_load_store.md R130: `ea = x[rs1] + sext_12(imm)` modulo 2^32, x0 counting as zero. -/
def Obligations.EffectiveAddressIsBasePlusDisplacement : Prop :=
  ∀ (s : State) (rs1 : Reg) (imm : BitVec 12),
    (unsigned (s.baseDisp rs1 imm) : Int) = (unsigned (s.x rs1) + imm.toInt) % 2 ^ 32 ∧
    (unsigned (s.baseDisp 0#5 imm) : Int) = imm.toInt % 2 ^ 32

/-- 40_load_store.md R131 to R135. No alignment check, addresses modulo 2^32 and ascending bytes are decisions D6, D7, D8 of
the spec (log 15); the record of the device transactions is the model's choice (log 13). -/
def Obligations.LoadsReadAndExtend : Prop :=
  ∀ rd rs1 imm,
    LoadLaw (.lb rd rs1 imm) "LB" 1 rd rs1 imm (fun m v => signed v = if m < 128 then (m : Int) else m - 256) ∧
    LoadLaw (.lh rd rs1 imm) "LH" 2 rd rs1 imm (fun m v => signed v = if m < 32768 then (m : Int) else m - 65536) ∧
    LoadLaw (.lw rd rs1 imm) "LW" 4 rd rs1 imm (fun m v => unsigned v = m) ∧
    LoadLaw (.lbu rd rs1 imm) "LBU" 1 rd rs1 imm (fun m v => unsigned v = m) ∧
    LoadLaw (.lhu rd rs1 imm) "LHU" 2 rd rs1 imm (fun m v => unsigned v = m)

/-- 40_load_store.md R136 to R138. No alignment check, addresses modulo 2^32, ascending bytes and the partial store are
decisions D6, D7, D8 of the spec (log 15); canonical RAM and the record of the device transactions are the model's choices
(log 4, 13). -/
def Obligations.StoresWriteTruncatedBytes : Prop :=
  ∀ rs1 rs2 imm,
    StoreLaw (.sb rs1 rs2 imm) "SB" 1 rs1 rs2 imm ∧
    StoreLaw (.sh rs1 rs2 imm) "SH" 2 rs1 rs2 imm ∧
    StoreLaw (.sw rs1 rs2 imm) "SW" 4 rs1 rs2 imm

/-! ## ALU with immediate -/

/-- 41_alu_immediate.md R151, R157, R158, the reserved shift selectors included. -/
def Obligations.AddiAndRightShiftImmediates : Prop :=
  (∀ rd rs1 imm, RegLaw (.addi rd rs1 imm) "ADDI" rd fun s v =>
    (unsigned v : Int) = (unsigned (s.x rs1) + imm.toInt) % 2 ^ 32) ∧
  (∀ rd rs1 shamt, RegLaw (.srli rd rs1 shamt) "SRLI" rd fun s v =>
    unsigned v = unsigned (s.x rs1) / 2 ^ shamt.toNat) ∧
  (∀ rd rs1 shamt, RegLaw (.srai rd rs1 shamt) "SRAI" rd fun s v =>
    signed v = signed (s.x rs1) / 2 ^ shamt.toNat) ∧
  ∀ w, opcodeField w = 0x13#7 → funct3Field w = 0b101#3 → funct7Field w ≠ 0x00#7 → funct7Field w ≠ 0x20#7 →
    RejectsWord w

/-- 41_alu_immediate.md R152 to R156 (the immediates sign-extend by 90_conflicts.md C2, SLLI's selector is checked by
decision D23; log 15). Bit `k` of a sign-extended immediate is its bit `min k 11`. -/
def Obligations.LogicalImmediatesSltiuAndSlli : Prop :=
  (∀ rd rs1 imm, RegLaw (.sltiu rd rs1 imm) "SLTIU" rd fun s v =>
    unsigned v = if (unsigned (s.x rs1) : Int) < imm.toInt % 2 ^ 32 then 1 else 0) ∧
  (∀ rd rs1 imm, RegLaw (.xori rd rs1 imm) "XORI" rd fun s v =>
    ∀ k, k < 32 → v.getLsbD k = ((s.x rs1).getLsbD k ^^ imm.getLsbD (min k 11))) ∧
  (∀ rd rs1 imm, RegLaw (.ori rd rs1 imm) "ORI" rd fun s v =>
    ∀ k, k < 32 → v.getLsbD k = ((s.x rs1).getLsbD k || imm.getLsbD (min k 11))) ∧
  (∀ rd rs1 imm, RegLaw (.andi rd rs1 imm) "ANDI" rd fun s v =>
    ∀ k, k < 32 → v.getLsbD k = ((s.x rs1).getLsbD k && imm.getLsbD (min k 11))) ∧
  (∀ rd rs1 shamt, RegLaw (.slli rd rs1 shamt) "SLLI" rd fun s v =>
    unsigned v = unsigned (s.x rs1) * 2 ^ shamt.toNat % 2 ^ 32) ∧
  ∀ w, opcodeField w = 0x13#7 → funct3Field w = 0b001#3 → funct7Field w ≠ 0x00#7 → RejectsWord w

/-! ## ALU with registers -/

/-- 42_alu_register.md R171, R172, R174, R175. -/
def Obligations.AluRegisterArithmeticAndCompare : Prop :=
  ∀ rd rs1 rs2,
    RegLaw (.add rd rs1 rs2) "ADD" rd (fun s v => unsigned v = (unsigned (s.x rs1) + unsigned (s.x rs2)) % 2 ^ 32) ∧
    RegLaw (.sub rd rs1 rs2) "SUB" rd (fun s v =>
      (unsigned v : Int) = ((unsigned (s.x rs1) : Int) - unsigned (s.x rs2)) % 2 ^ 32) ∧
    RegLaw (.slt rd rs1 rs2) "SLT" rd (fun s v => unsigned v = if signed (s.x rs1) < signed (s.x rs2) then 1 else 0) ∧
    RegLaw (.sltu rd rs1 rs2) "SLTU" rd (fun s v =>
      unsigned v = if unsigned (s.x rs1) < unsigned (s.x rs2) then 1 else 0)

/-- 42_alu_register.md R173, R176 to R180. -/
def Obligations.AluRegisterLogicAndShifts : Prop :=
  ∀ rd rs1 rs2,
    RegLaw (.sll rd rs1 rs2) "SLL" rd (fun s v =>
      unsigned v = unsigned (s.x rs1) * 2 ^ (unsigned (s.x rs2) % 32) % 2 ^ 32) ∧
    RegLaw (.xor rd rs1 rs2) "XOR" rd (fun s v =>
      ∀ k, k < 32 → v.getLsbD k = ((s.x rs1).getLsbD k ^^ (s.x rs2).getLsbD k)) ∧
    RegLaw (.srl rd rs1 rs2) "SRL" rd (fun s v =>
      unsigned v = unsigned (s.x rs1) / 2 ^ (unsigned (s.x rs2) % 32)) ∧
    RegLaw (.sra rd rs1 rs2) "SRA" rd (fun s v => signed v = signed (s.x rs1) / 2 ^ (unsigned (s.x rs2) % 32)) ∧
    RegLaw (.or rd rs1 rs2) "OR" rd (fun s v =>
      ∀ k, k < 32 → v.getLsbD k = ((s.x rs1).getLsbD k || (s.x rs2).getLsbD k)) ∧
    RegLaw (.and rd rs1 rs2) "AND" rd (fun s v =>
      ∀ k, k < 32 → v.getLsbD k = ((s.x rs1).getLsbD k && (s.x rs2).getLsbD k))

/-! ## Multiply and divide -/

/-- 43_muldiv.md R191 to R193. -/
def Obligations.MultiplyResults : Prop :=
  ∀ rd rs1 rs2,
    RegLaw (.mul rd rs1 rs2) "MUL" rd (fun s v =>
      (unsigned v : Int) = signed (s.x rs1) * signed (s.x rs2) % 2 ^ 32 ∧
      unsigned v = unsigned (s.x rs1) * unsigned (s.x rs2) % 2 ^ 32) ∧
    RegLaw (.mulh rd rs1 rs2) "MULH" rd (fun s v =>
      (unsigned v : Int) = signed (s.x rs1) * signed (s.x rs2) % 2 ^ 64 / 2 ^ 32) ∧
    RegLaw (.mulhu rd rs1 rs2) "MULHU" rd (fun s v =>
      unsigned v = unsigned (s.x rs1) * unsigned (s.x rs2) / 2 ^ 32)

/-- 43_muldiv.md R194 to R197, R199, wherever DIV_CORNER lets the instruction go on (decision D2, log 16). `Int.tdiv` rounds
toward zero. -/
def Obligations.DivideResults : Prop :=
  ∀ rd rs1 rs2,
    (InRow (.div rd rs1 rs2) "DIV" ∧ InRow (.divu rd rs1 rs2) "DIVU" ∧ InRow (.rem rd rs1 rs2) "REM" ∧
      InRow (.remu rd rs1 rs2) "REMU") ∧
    ∀ s : State, let a := s.x rs1; let b := s.x rs2
      ((s.cfg.divCorner = .fault → unsigned b ≠ 0 ∧ ¬(signed a = -2 ^ 31 ∧ signed b = -1)) →
        CompletesReg (.div rd rs1 rs2) s rd (fun v =>
          if signed b = 0 then unsigned v = 0xFFFFFFFF
          else if signed a = -2 ^ 31 ∧ signed b = -1 then unsigned v = 0x80000000
          else signed v = Int.tdiv (signed a) (signed b)) ∧
        CompletesReg (.rem rd rs1 rs2) s rd (fun v =>
          if signed b = 0 then v = a
          else if signed a = -2 ^ 31 ∧ signed b = -1 then unsigned v = 0
          else signed v = signed a - signed b * Int.tdiv (signed a) (signed b))) ∧
      ((s.cfg.divCorner = .fault → unsigned b ≠ 0) →
        CompletesReg (.divu rd rs1 rs2) s rd (fun v =>
          if unsigned b = 0 then unsigned v = 0xFFFFFFFF else unsigned v = unsigned a / unsigned b) ∧
        CompletesReg (.remu rd rs1 rs2) s rd (fun v =>
          if unsigned b = 0 then v = a else unsigned v = unsigned a % unsigned b))

/-- 43_muldiv.md R199 under `DIV_CORNER = fault` (decision D2, log 16). -/
def Obligations.DivisionCornersFaultWhenConfigured : Prop :=
  ∀ rd rs1 rs2 (s : State), s.cfg.divCorner = .fault →
    (unsigned (s.x rs2) = 0 ∨ (signed (s.x rs1) = -2 ^ 31 ∧ signed (s.x rs2) = -1) →
      HaltsClean (.div rd rs1 rs2) s (.unimplementedInstruction (encode (.div rd rs1 rs2))) ∧
      HaltsClean (.rem rd rs1 rs2) s (.unimplementedInstruction (encode (.rem rd rs1 rs2)))) ∧
    (unsigned (s.x rs2) = 0 →
      HaltsClean (.divu rd rs1 rs2) s (.unimplementedInstruction (encode (.divu rd rs1 rs2))) ∧
      HaltsClean (.remu rd rs1 rs2) s (.unimplementedInstruction (encode (.remu rd rs1 rs2))))

/-- 43_muldiv.md R190: outside the corners, dividend = quotient * divisor + remainder, the remainder is smaller than the
divisor and is 0 or has the sign of the dividend. -/
def Obligations.DivisionLaw : Prop :=
  ∀ rd rd' rs1 rs2 (s : State), rd ≠ 0#5 → rd' ≠ 0#5 → unsigned (s.x rs2) ≠ 0 →
    (¬(signed (s.x rs1) = -2 ^ 31 ∧ signed (s.x rs2) = -1) → ∃ t u,
      exec (.div rd rs1 rs2) s = .next t ∧ exec (.rem rd' rs1 rs2) s = .next u ∧
      signed (s.x rs1) = signed (t.x rd) * signed (s.x rs2) + signed (u.x rd') ∧
      (signed (u.x rd')).natAbs < (signed (s.x rs2)).natAbs ∧
      (0 < signed (u.x rd') → 0 < signed (s.x rs1)) ∧ (signed (u.x rd') < 0 → signed (s.x rs1) < 0)) ∧
    ∃ t u, exec (.divu rd rs1 rs2) s = .next t ∧ exec (.remu rd' rs1 rs2) s = .next u ∧
      unsigned (s.x rs1) = unsigned (t.x rd) * unsigned (s.x rs2) + unsigned (u.x rd') ∧
      unsigned (u.x rd') < unsigned (s.x rs2)

/-! ## Atomics -/

/-- 44_atomics.md R212. The bare address `x[rs1]` is general knowledge (R210) and the ascending bytes are decision D8 (log
15); the record of the device transactions is the model's choice (log 13). -/
def Obligations.LoadReservedLoadsAndReserves : Prop :=
  ∀ rd rs1 aq rl, InRow (.lrW rd rs1 aq rl) "LR.W" ∧ ∀ s,
    LoadEffect (.lrW rd rs1 aq rl) s 4 rd (s.x rs1) (fun m v => unsigned v = m) (some (s.x rs1))

/-- 44_atomics.md R213. That both outcomes clear the reservation is 90_conflicts.md C4, that SC.W alone does is decision D10,
the ascending bytes and the partial store are D8, the bare address is general knowledge (R210; log 15); canonical RAM and
the record of the device transactions are the model's choices (log 4, 13). -/
def Obligations.StoreConditionalSucceedsExactlyWhenReserved : Prop :=
  ∀ rd rs1 rs2 aq rl, InRow (.scW rd rs1 rs2 aq rl) "SC.W" ∧ ∀ s,
    (s.reservation = some (s.x rs1) → Mapped s (s.x rs1) 4 → ∃ t bs, exec (.scW rd rs1 rs2 aq rl) s = .next t ∧
      BytesOf bs 4 (unsigned (s.x rs2)) ∧ WritesReg rd (fun v => unsigned v = 0) s t ∧ SameCsrs s t ∧ SameRun s t ∧
      t.reservation = none ∧
      (Memory.wf s.cfg.ramFill s.mem = true → RamHolds s t (s.x rs1) 4 (unsigned (s.x rs2))) ∧
      t.io = deviceTxs s .write (s.x rs1) bs ++ s.io ∧ t.pc = s.pc + 4#32) ∧
    (s.reservation = some (s.x rs1) → ∀ k, k < 4 → FirstUnmapped s (s.x rs1) k → ∃ t bs,
      exec (.scW rd rs1 rs2 aq rl) s = .fault (.fatal (.unmappedAddress (s.x rs1 + BitVec.ofNat 32 k)) t) ∧
      BytesOf bs k (unsigned (s.x rs2)) ∧ HaltedFrom s t (.unmappedAddress (s.x rs1 + BitVec.ofNat 32 k)) ∧
      (Memory.wf s.cfg.ramFill s.mem = true → RamHolds s t (s.x rs1) k (unsigned (s.x rs2))) ∧
      t.io = deviceTxs s .write (s.x rs1) bs ++ s.io) ∧
    (s.reservation ≠ some (s.x rs1) → ∃ t, exec (.scW rd rs1 rs2 aq rl) s = .next t ∧
      WritesReg rd (fun v => unsigned v = 1) s t ∧ SameCsrs s t ∧ SameRun s t ∧ t.reservation = none ∧
      SameRam s t ∧ t.io = s.io ∧ t.pc = s.pc + 4#32)

/-- 44_atomics.md R214, R215 with the operand snapshot of decision D9 (90_conflicts.md C3; log 16). The ascending bytes are
D8, the bare address is general knowledge (R210; log 15); canonical RAM and the record of the device transactions are the
model's choices (log 4, 13). -/
def Obligations.AmoReadsModifiesAndWrites : Prop :=
  ∀ rd rs1 rs2 aq rl,
    AmoLaw (.amoaddW rd rs1 rs2 aq rl) "AMOADD.W" rd rs1 rs2 (fun old v new =>
      unsigned new = (unsigned old + unsigned v) % 2 ^ 32) ∧
    AmoLaw (.amoorW rd rs1 rs2 aq rl) "AMOOR.W" rd rs1 rs2 (fun old v new =>
      ∀ k, k < 32 → new.getLsbD k = (old.getLsbD k || v.getLsbD k))

/-- 44_atomics.md R210 under `AMO_ALIAS = fault` (decision D9, log 16): it halts before any memory access. -/
def Obligations.AliasedAmoFaultsWhenConfigured : Prop :=
  ∀ rd rs1 rs2 aq rl (s : State), s.cfg.amoAlias = .fault → rd ≠ 0#5 → rd = rs1 ∨ rd = rs2 →
    HaltsClean (.amoaddW rd rs1 rs2 aq rl) s (.unimplementedInstruction (encode (.amoaddW rd rs1 rs2 aq rl))) ∧
    HaltsClean (.amoorW rd rs1 rs2 aq rl) s (.unimplementedInstruction (encode (.amoorW rd rs1 rs2 aq rl)))

/-- 10_state.md R34, 44_atomics.md R217 (decision D10, log 15): every instruction but LR.W and SC.W leaves the reservation
and does not depend on it. -/
def Obligations.ReservationIsPrivateToLrAndSc : Prop :=
  ∀ i s r, isReservationInstr i = false →
    exec i { s with reservation := r } = mapResult (fun t => { t with reservation := r }) (exec i s)

/-- 44_atomics.md R218 (from R211 to R213 and R217, decision D10, log 15): after an LR.W step and any run of steps without
LR.W and SC.W, timer traps included, an SC.W to the same address succeeds and an SC.W to another address fails without
writing. -/
def Obligations.StoreConditionalSucceedsAfterLoadReserved : Prop :=
  ∀ s t u s' u' rd rs1 aq rl rd' rs1' rs2' aq' rl',
    Fetches s (.lrW rd rs1 aq rl) s' → step s = .next t → QuietRun t u → Fetches u (.scW rd' rs1' rs2' aq' rl') u' →
    (u.x rs1' = s.x rs1 → ∃ v, exec (.scW rd' rs1' rs2' aq' rl') u' = .next v ∧ (rd' ≠ 0#5 → unsigned (v.x rd') = 0) ∧
      v.reservation = none ∧
      (Memory.wf u.cfg.ramFill u.mem = true → RamHolds u v (u.x rs1') 4 (unsigned (u.x rs2')))) ∧
    (u.x rs1' ≠ s.x rs1 → ∃ v, exec (.scW rd' rs1' rs2' aq' rl') u' = .next v ∧
      (rd' ≠ 0#5 → unsigned (v.x rd') = 1) ∧ v.reservation = none ∧ SameRam u v)

/-! ## Branches, upper immediates, jumps -/

/-- 45_branches.md R230 to R236. The sign extension from 13 bits is the spec's resolution 90_conflicts.md C1; no alignment
check and the wrap of `pc` are decisions D6, D7 (log 15). -/
def Obligations.BranchesRedirectExactlyWhenTaken : Prop :=
  ∀ rs1 rs2 imm,
    BranchLaw (.beq rs1 rs2 imm) "BEQ" imm (fun s => s.x rs1 = s.x rs2) ∧
    BranchLaw (.bne rs1 rs2 imm) "BNE" imm (fun s => s.x rs1 ≠ s.x rs2) ∧
    BranchLaw (.blt rs1 rs2 imm) "BLT" imm (fun s => signed (s.x rs1) < signed (s.x rs2)) ∧
    BranchLaw (.bge rs1 rs2 imm) "BGE" imm (fun s => signed (s.x rs2) ≤ signed (s.x rs1)) ∧
    BranchLaw (.bltu rs1 rs2 imm) "BLTU" imm (fun s => unsigned (s.x rs1) < unsigned (s.x rs2)) ∧
    BranchLaw (.bgeu rs1 rs2 imm) "BGEU" imm (fun s => unsigned (s.x rs2) ≤ unsigned (s.x rs1))

/-- 46_upper_immediate.md R250, R251. -/
def Obligations.UpperImmediates : Prop :=
  ∀ rd imm,
    RegLaw (.lui rd imm) "LUI" rd (fun _ v => unsigned v = imm.toNat * 4096) ∧
    RegLaw (.auipc rd imm) "AUIPC" rd (fun s v => unsigned v = (unsigned s.pc + imm.toNat * 4096) % 2 ^ 32)

/-- 47_jumps.md R260. -/
def Obligations.JalLinksAndJumps : Prop :=
  ∀ rd imm, InRow (.jal rd imm) "JAL" ∧ ∀ s, ∃ t, exec (.jal rd imm) s = .next t ∧
    WritesReg rd (fun v => unsigned v = (unsigned s.pc + 4) % 2 ^ 32) s t ∧ RegFrame s t ∧
    (unsigned t.pc : Int) = (unsigned s.pc + imm.toInt) % 2 ^ 32

/-- 47_jumps.md R261 (bit 0 of the target is cleared by decision D5, log 15). -/
def Obligations.JalrLinksAndJumps : Prop :=
  ∀ rd rs1 imm, InRow (.jalr rd rs1 imm) "JALR" ∧ ∀ s, ∃ t, exec (.jalr rd rs1 imm) s = .next t ∧
    WritesReg rd (fun v => unsigned v = (unsigned s.pc + 4) % 2 ^ 32) s t ∧ RegFrame s t ∧
    (unsigned t.pc : Int) = (unsigned (s.x rs1) + imm.toInt) % 2 ^ 32 / 2 * 2

/-! ## CSRs and system instructions -/

/-- 48_csr_system.md R270 with 10_state.md R38: what each CSR number reads as; any other number is fatal. The numbers are
decision D1; exactly these twelve, `mtval` among them, is D13; the identification CSRs read 0 by D14; the others hold whole
words by D15, and the other bits of mstatus read 0 by D16 (log 15). -/
def Obligations.CsrReadPrimitive : Prop :=
  ∀ (s : State) (inst : Word),
    (∃ v, s.csrRead 0x300#12 inst = .ok v ∧
      unsigned v = s.statusMIE.toNat * 2 ^ 3 + s.statusMPIE.toNat * 2 ^ 7 + s.statusMPP.toNat * 2 ^ 11) ∧
    s.csrRead 0x304#12 inst = .ok s.mie ∧ s.csrRead 0x305#12 inst = .ok s.mtvec ∧
    s.csrRead 0x340#12 inst = .ok s.mscratch ∧ s.csrRead 0x341#12 inst = .ok s.mepc ∧
    s.csrRead 0x342#12 inst = .ok s.mcause ∧ s.csrRead 0x343#12 inst = .ok s.mtval ∧
    s.csrRead 0x344#12 inst = .ok s.mip ∧
    (∀ n ∈ [0xF11#12, 0xF12#12, 0xF13#12, 0xF14#12], s.csrRead n inst = .ok 0#32) ∧
    ∀ n, ¬csrReadable n → s.csrRead n inst = .error (.unknownCSR n inst)

/-- 48_csr_system.md R271 to R278 (which accesses happen is decision D12, log 15): `rd` gets the old value, the CSR the new
word (mstatus its three fields), nothing else changes. -/
def Obligations.CsrInstructionsReadThenWrite : Prop :=
  ∀ rd r csr, ∀ f ∈ csrForms rd r csr, InRow f.instr f.name ∧ ∀ s, CsrAllowed f csr →
    ∃ t old, exec f.instr s = .next t ∧ (csrReadable csr → s.csrRead csr 0#32 = .ok old) ∧
      WritesReg rd (fun v => v = old) s t ∧
      (∀ n, csrReadable n → t.csrRead n 0#32 =
        if f.writes = true ∧ n = csr then .ok (if n = 0x300#12 then f.new s old &&& 0x00001888#32 else f.new s old)
        else s.csrRead n 0#32) ∧
      t.mode = s.mode ∧ SameRun s t ∧ t.reservation = s.reservation ∧ SameRam s t ∧ t.io = s.io ∧ t.pc = s.pc + 4#32

/-- 48_csr_system.md R270 to R272, 10_state.md R47 (decision D12, log 15): an access the CSR does not allow halts the core
with the CSR number, and no state changes. -/
def Obligations.DisallowedCsrAccessHaltsCore : Prop :=
  ∀ rd r csr, ∀ f ∈ csrForms rd r csr, ∀ s, ¬CsrAllowed f csr →
    HaltsClean f.instr s (.unknownCSR csr (encode f.instr))

/-- 10_state.md R37 to R39 (the other bits read 0 by decision D16, log 15): a write of mstatus never fails, sets the three
fields to the bits written whatever they were, and changes nothing else. -/
def Obligations.MstatusWriteSetsThreeFields : Prop :=
  ∀ (s : State) (v : Word), ∃ t, s.setMstatus v = .ok t ∧ unsigned t.mstatus = unsigned (v &&& 0x00001888#32) ∧
    t = { s with statusMIE := v.getLsbD 3, statusMPIE := v.getLsbD 7, statusMPP := v.extractLsb' 11 2 }

/-- 48_csr_system.md R279, R280, 49_fence.md R300 (the whole-word match of ECALL and EBREAK is decision D4, log 15): nothing
but `pc` changes. -/
def Obligations.NoOpsOnlyAdvance : Prop :=
  ∀ rd rs1 imm, InRow .ecall "ECALL" ∧ InRow .ebreak "EBREAK" ∧ InRow (.fence rd rs1 imm) "FENCE" ∧
    ∀ s, ∀ i ∈ [Instr.ecall, Instr.ebreak, Instr.fence rd rs1 imm], exec i s = .next { s with pc := s.pc + 4#32 }

/-- 48_csr_system.md R281, 60_exceptions.md R340 (MRET is wired by decision D3, in every mode by D17; log 15). -/
def Obligations.MretReturnsFromTrap : Prop :=
  InRow .mret "MRET" ∧ ∀ s, exec .mret s =
    .next { s with pc := s.mepc, statusMIE := s.statusMPIE, mode := s.statusMPP, statusMPP := s.mode }

/-! ## Traps and interrupts -/

/-- 60_exceptions.md R330: what taking a trap saves, sets and leaves; `pc` is the next instruction's address. -/
def Obligations.TrapEntrySavesAndRedirects : Prop :=
  ∀ (s : State) (cause faultingPc : Word), s.enterTrap cause faultingPc = .ok { s with
    statusMPIE := s.statusMIE
    statusMPP := s.mode
    mode := 3#2
    statusMIE := false
    mepc := s.pc
    mcause := cause
    mtval := if 2 ^ 31 ≤ unsigned cause then 0#32 else faultingPc
    pc := s.mtvec }

/-- 60_exceptions.md R340's round trip, from every state: a trap and its return restore `pc`, the interrupt enable and the
mode, and leave registers and memory; R331's precise resumption rests on it. -/
def Obligations.TrapThenReturnRestores : Prop :=
  ∀ (s t : State) (cause faultingPc : Word), s.enterTrap cause faultingPc = .ok t →
    ∃ u, exec .mret t = .next u ∧ u.pc = s.pc ∧ u.statusMIE = s.statusMIE ∧ u.mode = s.mode ∧ SameRegs s u ∧
      u.reservation = s.reservation ∧ u.mie = s.mie ∧ u.mip = s.mip ∧ u.mtvec = s.mtvec ∧ u.mscratch = s.mscratch ∧
      SameRam s u ∧ u.io = s.io ∧ SameRun s u

/-- 60_exceptions.md R320, R321 and 10_state.md R31 step 7 (the fatal case is decision D11, the CLINT's place D20, the host
stop D26; log 6, 8, 15): the check after a retired instruction, from the state `v` the instruction leaves. -/
def Obligations.InterruptCheckAfterEachInstruction : Prop :=
  ∀ s i u v, Running s → Fetches s i u → exec i u = .next v →
    let p := v.retired.mip &&& v.mie
    (v.statusMIE = false ∨ p = 0#32 → step s = .next v.retired.hostStop) ∧
    (v.statusMIE = true → p.getLsbD 7 = true → ∃ t, step s = .next t ∧ t.pc = v.mtvec ∧ t.mepc = v.pc ∧
      t.mcause = 0x80000007#32 ∧ t.mtval = 0#32 ∧ t.statusMPIE = true ∧ t.statusMIE = false ∧ t.statusMPP = v.mode ∧
      t.mode = 3#2 ∧ t.mie = v.mie ∧ t.mip = v.retired.mip ∧ t.mtvec = v.mtvec ∧ t.mscratch = v.mscratch ∧
      SameRegs v t ∧ t.reservation = v.reservation ∧ SameRam v t ∧ t.io = v.io ∧ t.instret = v.instret + 1 ∧
      t.cfg = v.cfg) ∧
    (v.statusMIE = true → p ≠ 0#32 → p.getLsbD 7 = false → ∃ t,
      step s = .fault (.fatal (.unmodelledInterrupt p) t) ∧ HaltedFrom v.retired t (.unmodelledInterrupt p))

/-- 60_exceptions.md R351: the mode after reset, and the only events that change it. `v` is the state the instruction
leaves; a trap that follows it shows in `t`. -/
def Obligations.ModeChangesOnlyByTrapOrMret : Prop :=
  (∀ cfg gprInit image, (State.launch cfg gprInit image).mode = 3#2) ∧
  ∀ s t, step s = .next t → ∃ i u v, Fetches s i u ∧ exec i u = .next v ∧
    (i ≠ .mret → v.mode = s.mode) ∧ (i = .mret → v.mode = s.statusMPP ∧ v.statusMPP = s.mode) ∧
    ((t.mode = v.mode ∧ t.statusMPP = v.statusMPP ∧ t.pc = v.pc ∧ t.mepc = v.mepc) ∨
      (t.mode = 3#2 ∧ t.statusMPP = v.mode ∧ t.pc = v.mtvec ∧ t.mepc = v.pc))

/-- 60_exceptions.md R350 (decision D17, log 15): no instruction but MRET reads or writes the privilege mode. -/
def Obligations.PrivilegeModeGatesNothing : Prop :=
  ∀ i s m, i ≠ .mret → exec i { s with mode := m } = mapResult (fun t => { t with mode := m }) (exec i s)

/-- 10_state.md R46: only CSR instructions read or write `mscratch`; of those, only the ones that name its number. -/
def Obligations.MscratchOnlyThroughCsrInstructions : Prop :=
  (∀ i s v, csrNamed i ≠ some 0x340#12 →
    exec i { s with mscratch := v } = mapResult (fun t => { t with mscratch := v }) (exec i s)) ∧
  ∀ s t, step s = .next t → t.mscratch ≠ s.mscratch → ∃ i u, Fetches s i u ∧ csrNamed i = some 0x340#12

/-- 60_exceptions.md R322 to R324 (decisions D20, D21; log 6): at the end of a step the CLINT can change bit 7 of `mip` and
nothing else, as its call says. The first clause is all that changes between the engine's answer and the interrupt check:
x0 is forced to zero and the count grows (10_state.md R31 steps 5 to 7), and `mip` is what the second clause says. -/
def Obligations.ClintTouchesOnlyTimerPending : Prop :=
  ∀ v : State,
    v.retired = { v with regs := v.regs.set 0 0#32, instret := v.instret + 1, mip := v.retired.mip } ∧
    ∀ k, v.retired.mip.getLsbD k =
      if k = 7 then
        match { v.forceX0 with instret := v.instret + 1 }.clintCall with
        | .quiet => v.mip.getLsbD 7
        | .signal => true
        | .clear => false
      else v.mip.getLsbD k

/-- 60_exceptions.md R310, R332 (D11 and general knowledge for the code, log 15): the only cause a step can write by itself
is the machine timer's; any other change of `mcause` is a CSR instruction's that names it. -/
def Obligations.CauseChangesOnlyByTimerTrapOrCsrWrite : Prop :=
  ∀ s t, step s = .next t → t.mcause ≠ s.mcause →
    (t.mcause = 0x80000007#32 ∧ t.statusMIE = false ∧ t.pc = t.mtvec) ∨
      ∃ i u, Fetches s i u ∧ csrNamed i = some 0x342#12

/-! ## What no instruction touches -/

/-- 10_state.md R20 to R22: x0 reads zero before and after every step, a write to it is seen by no read, and an instruction
changes no general register but its destination. -/
def Obligations.OnlyDestinationRegisterIsWritten : Prop :=
  (∀ (s : State) (v : Word) r, s.x 0#5 = 0#32 ∧ (s.setX 0#5 v).x r = s.x r ∧ s.forceX0.x r = s.x r) ∧
  (∀ i s t, exec i s = .next t → ∀ r, destination i ≠ some r → t.x r = s.x r) ∧
  ∀ s t, step s = .next t → t.regs[0] = 0#32 ∧
    ∃ i u, Fetches s i u ∧ ∀ r, destination i ≠ some r → t.x r = s.x r

/-- 10_state.md R33, 48_csr_system.md: no instruction but the CSR instructions and MRET changes a CSR, an mstatus flag or
the mode. -/
def Obligations.OtherInstructionsKeepCsrs : Prop :=
  ∀ i s t, isCsrInstr i = false → i ≠ .mret → exec i s = .next t → SameCsrs s t

/-- 20_memory.md R71, R73: only storing instructions change RAM, only loads, stores and atomics reach a device, and none of
them changes the configuration or the count. -/
def Obligations.OnlyMemoryInstructionsAccessMemory : Prop :=
  ∀ i s t, exec i s = .next t → SameRun s t ∧ (isStoring i = false → t.mem = s.mem) ∧
    (isStoring i = false → isLoading i = false → t.io = s.io)

/-! ## Memory -/

/-- 20_memory.md R61 to R65, 00_scope.md R11 (log 5, 13): in a configuration of this hardware an address lies in at most one
region; each region's bytes go to that region; a byte in no region is fatal. -/
def Obligations.RouterRoutesEachByte : Prop :=
  ∀ (s : State) (a : Word) (b : Byte), validConfig s.cfg = true →
    let n := a.toNat
    (0x80000000 ≤ n → n < 0x80000000 + s.cfg.ramSize → readByte a s = .ok (s.ramByte n) s ∧
      writeByte a b s = .ok () { s with mem := Memory.write s.cfg.ramFill s.mem n b }) ∧
    (s.cfg.uartBase ≤ n → n < s.cfg.uartBase + 8 →
      (∃ v, readByte a s = .ok v { s with io := ⟨.uart, n - s.cfg.uartBase, s.instret, .read v⟩ :: s.io }) ∧
      writeByte a b s = .ok () { s with io := ⟨.uart, n - s.cfg.uartBase, s.instret, .write b⟩ :: s.io }) ∧
    (s.cfg.clintBase ≤ n → n < s.cfg.clintBase + s.cfg.clintSize →
      (∃ v, readByte a s = .ok v { s with io := ⟨.clint, n - s.cfg.clintBase, s.instret, .read v⟩ :: s.io }) ∧
      writeByte a b s = .ok () { s with io := ⟨.clint, n - s.cfg.clintBase, s.instret, .write b⟩ :: s.io }) ∧
    (¬(0x80000000 ≤ n ∧ n < 0x80000000 + s.cfg.ramSize) → ¬(s.cfg.uartBase ≤ n ∧ n < s.cfg.uartBase + 8) →
      ¬(s.cfg.clintBase ≤ n ∧ n < s.cfg.clintBase + s.cfg.clintSize) →
      readByte a s = .unmapped a s ∧ writeByte a b s = .unmapped a s)

/-- 20_memory.md R65, R76: a byte written to RAM is read back, every other byte of RAM reads as before, and the memory
stays in canonical form. -/
def Obligations.RamReadAfterWrite : Prop :=
  ∀ (s : State) (a : Word) (b : Byte), Memory.wf s.cfg.ramFill s.mem = true → regionOf s.cfg a.toNat = some .ram →
    ∃ t, writeByte a b s = .ok () t ∧ Memory.wf t.cfg.ramFill t.mem = true ∧ readByte a t = .ok b t ∧
      ∀ c : Word, c ≠ a → regionOf s.cfg c.toNat = some .ram → readByte c t = .ok (s.ramByte c.toNat) t

/-- 20_memory.md R69, at every address of RAM, aligned or not. -/
def Obligations.MixedWidthAccessesAreLittleEndian : Prop :=
  ∀ (s : State) (a v : Word), Memory.wf s.cfg.ramFill s.mem = true → InRam s a 4 →
    ∃ t, memWrite 4 a v s = .ok () t ∧ memRead 4 a t = .ok v t ∧
      memRead 1 a t = .ok ((v.extractLsb' 0 8).setWidth 32) t ∧
      memRead 1 (a + 1#32) t = .ok ((v.extractLsb' 8 8).setWidth 32) t ∧
      memRead 2 a t = .ok ((v.extractLsb' 0 16).setWidth 32) t ∧
      memRead 2 (a + 2#32) t = .ok ((v.extractLsb' 16 16).setWidth 32) t
end

