-- ==== Sys2Proof/Laws/State.lean ====
section
/-! SUPPORT. Each field after each named update of State, one lemma per field per update, so that no later proof unfolds a
record update. -/

namespace Sys2Proof.Machine

variable (s : State)

/-! ## setX -/

@[simp] theorem setX_cfg (r : Reg) (v : Word) : (s.setX r v).cfg = s.cfg := by
  unfold State.setX; split <;> rfl
@[simp] theorem setX_pc (r : Reg) (v : Word) : (s.setX r v).pc = s.pc := by
  unfold State.setX; split <;> rfl
@[simp] theorem setX_reservation (r : Reg) (v : Word) : (s.setX r v).reservation = s.reservation := by
  unfold State.setX; split <;> rfl
@[simp] theorem setX_mode (r : Reg) (v : Word) : (s.setX r v).mode = s.mode := by
  unfold State.setX; split <;> rfl
@[simp] theorem setX_statusMIE (r : Reg) (v : Word) : (s.setX r v).statusMIE = s.statusMIE := by
  unfold State.setX; split <;> rfl
@[simp] theorem setX_statusMPIE (r : Reg) (v : Word) : (s.setX r v).statusMPIE = s.statusMPIE := by
  unfold State.setX; split <;> rfl
@[simp] theorem setX_statusMPP (r : Reg) (v : Word) : (s.setX r v).statusMPP = s.statusMPP := by
  unfold State.setX; split <;> rfl
@[simp] theorem setX_mie (r : Reg) (v : Word) : (s.setX r v).mie = s.mie := by
  unfold State.setX; split <;> rfl
@[simp] theorem setX_mip (r : Reg) (v : Word) : (s.setX r v).mip = s.mip := by
  unfold State.setX; split <;> rfl
@[simp] theorem setX_mtvec (r : Reg) (v : Word) : (s.setX r v).mtvec = s.mtvec := by
  unfold State.setX; split <;> rfl
@[simp] theorem setX_mscratch (r : Reg) (v : Word) : (s.setX r v).mscratch = s.mscratch := by
  unfold State.setX; split <;> rfl
@[simp] theorem setX_mepc (r : Reg) (v : Word) : (s.setX r v).mepc = s.mepc := by
  unfold State.setX; split <;> rfl
@[simp] theorem setX_mcause (r : Reg) (v : Word) : (s.setX r v).mcause = s.mcause := by
  unfold State.setX; split <;> rfl
@[simp] theorem setX_mtval (r : Reg) (v : Word) : (s.setX r v).mtval = s.mtval := by
  unfold State.setX; split <;> rfl
@[simp] theorem setX_instret (r : Reg) (v : Word) : (s.setX r v).instret = s.instret := by
  unfold State.setX; split <;> rfl
@[simp] theorem setX_halt (r : Reg) (v : Word) : (s.setX r v).halt = s.halt := by
  unfold State.setX; split <;> rfl
@[simp] theorem setX_stopped (r : Reg) (v : Word) : (s.setX r v).stopped = s.stopped := by
  unfold State.setX; split <;> rfl
@[simp] theorem setX_mem (r : Reg) (v : Word) : (s.setX r v).mem = s.mem := by
  unfold State.setX; split <;> rfl
@[simp] theorem setX_io (r : Reg) (v : Word) : (s.setX r v).io = s.io := by
  unfold State.setX; split <;> rfl

/-! ## forceX0 -/

@[simp] theorem forceX0_cfg : s.forceX0.cfg = s.cfg := rfl
@[simp] theorem forceX0_regs : s.forceX0.regs = s.regs.set 0 0#32 := rfl
@[simp] theorem forceX0_pc : s.forceX0.pc = s.pc := rfl
@[simp] theorem forceX0_reservation : s.forceX0.reservation = s.reservation := rfl
@[simp] theorem forceX0_mode : s.forceX0.mode = s.mode := rfl
@[simp] theorem forceX0_statusMIE : s.forceX0.statusMIE = s.statusMIE := rfl
@[simp] theorem forceX0_statusMPIE : s.forceX0.statusMPIE = s.statusMPIE := rfl
@[simp] theorem forceX0_statusMPP : s.forceX0.statusMPP = s.statusMPP := rfl
@[simp] theorem forceX0_mie : s.forceX0.mie = s.mie := rfl
@[simp] theorem forceX0_mip : s.forceX0.mip = s.mip := rfl
@[simp] theorem forceX0_mtvec : s.forceX0.mtvec = s.mtvec := rfl
@[simp] theorem forceX0_mscratch : s.forceX0.mscratch = s.mscratch := rfl
@[simp] theorem forceX0_mepc : s.forceX0.mepc = s.mepc := rfl
@[simp] theorem forceX0_mcause : s.forceX0.mcause = s.mcause := rfl
@[simp] theorem forceX0_mtval : s.forceX0.mtval = s.mtval := rfl
@[simp] theorem forceX0_instret : s.forceX0.instret = s.instret := rfl
@[simp] theorem forceX0_halt : s.forceX0.halt = s.halt := rfl
@[simp] theorem forceX0_stopped : s.forceX0.stopped = s.stopped := rfl
@[simp] theorem forceX0_mem : s.forceX0.mem = s.mem := rfl
@[simp] theorem forceX0_io : s.forceX0.io = s.io := rfl

/-! ## advance -/

@[simp] theorem advance_cfg : s.advance.cfg = s.cfg := rfl
@[simp] theorem advance_regs : s.advance.regs = s.regs := rfl
@[simp] theorem advance_pc : s.advance.pc = s.pc + 4#32 := rfl
@[simp] theorem advance_reservation : s.advance.reservation = s.reservation := rfl
@[simp] theorem advance_mode : s.advance.mode = s.mode := rfl
@[simp] theorem advance_statusMIE : s.advance.statusMIE = s.statusMIE := rfl
@[simp] theorem advance_statusMPIE : s.advance.statusMPIE = s.statusMPIE := rfl
@[simp] theorem advance_statusMPP : s.advance.statusMPP = s.statusMPP := rfl
@[simp] theorem advance_mie : s.advance.mie = s.mie := rfl
@[simp] theorem advance_mip : s.advance.mip = s.mip := rfl
@[simp] theorem advance_mtvec : s.advance.mtvec = s.mtvec := rfl
@[simp] theorem advance_mscratch : s.advance.mscratch = s.mscratch := rfl
@[simp] theorem advance_mepc : s.advance.mepc = s.mepc := rfl
@[simp] theorem advance_mcause : s.advance.mcause = s.mcause := rfl
@[simp] theorem advance_mtval : s.advance.mtval = s.mtval := rfl
@[simp] theorem advance_instret : s.advance.instret = s.instret := rfl
@[simp] theorem advance_halt : s.advance.halt = s.halt := rfl
@[simp] theorem advance_stopped : s.advance.stopped = s.stopped := rfl
@[simp] theorem advance_mem : s.advance.mem = s.mem := rfl
@[simp] theorem advance_io : s.advance.io = s.io := rfl

/-! ## redirect -/

@[simp] theorem redirect_cfg (target : Word) : (s.redirect target).cfg = s.cfg := rfl
@[simp] theorem redirect_regs (target : Word) : (s.redirect target).regs = s.regs := rfl
@[simp] theorem redirect_pc (target : Word) : (s.redirect target).pc = target := rfl
@[simp] theorem redirect_reservation (target : Word) : (s.redirect target).reservation = s.reservation := rfl
@[simp] theorem redirect_mode (target : Word) : (s.redirect target).mode = s.mode := rfl
@[simp] theorem redirect_statusMIE (target : Word) : (s.redirect target).statusMIE = s.statusMIE := rfl
@[simp] theorem redirect_statusMPIE (target : Word) : (s.redirect target).statusMPIE = s.statusMPIE := rfl
@[simp] theorem redirect_statusMPP (target : Word) : (s.redirect target).statusMPP = s.statusMPP := rfl
@[simp] theorem redirect_mie (target : Word) : (s.redirect target).mie = s.mie := rfl
@[simp] theorem redirect_mip (target : Word) : (s.redirect target).mip = s.mip := rfl
@[simp] theorem redirect_mtvec (target : Word) : (s.redirect target).mtvec = s.mtvec := rfl
@[simp] theorem redirect_mscratch (target : Word) : (s.redirect target).mscratch = s.mscratch := rfl
@[simp] theorem redirect_mepc (target : Word) : (s.redirect target).mepc = s.mepc := rfl
@[simp] theorem redirect_mcause (target : Word) : (s.redirect target).mcause = s.mcause := rfl
@[simp] theorem redirect_mtval (target : Word) : (s.redirect target).mtval = s.mtval := rfl
@[simp] theorem redirect_instret (target : Word) : (s.redirect target).instret = s.instret := rfl
@[simp] theorem redirect_halt (target : Word) : (s.redirect target).halt = s.halt := rfl
@[simp] theorem redirect_stopped (target : Word) : (s.redirect target).stopped = s.stopped := rfl
@[simp] theorem redirect_mem (target : Word) : (s.redirect target).mem = s.mem := rfl
@[simp] theorem redirect_io (target : Word) : (s.redirect target).io = s.io := rfl

/-! ## setReservation -/

@[simp] theorem setReservation_cfg (r : Option Word) : (s.setReservation r).cfg = s.cfg := rfl
@[simp] theorem setReservation_regs (r : Option Word) : (s.setReservation r).regs = s.regs := rfl
@[simp] theorem setReservation_pc (r : Option Word) : (s.setReservation r).pc = s.pc := rfl
@[simp] theorem setReservation_reservation (r : Option Word) : (s.setReservation r).reservation = r := rfl
@[simp] theorem setReservation_mode (r : Option Word) : (s.setReservation r).mode = s.mode := rfl
@[simp] theorem setReservation_statusMIE (r : Option Word) : (s.setReservation r).statusMIE = s.statusMIE := rfl
@[simp] theorem setReservation_statusMPIE (r : Option Word) : (s.setReservation r).statusMPIE = s.statusMPIE := rfl
@[simp] theorem setReservation_statusMPP (r : Option Word) : (s.setReservation r).statusMPP = s.statusMPP := rfl
@[simp] theorem setReservation_mie (r : Option Word) : (s.setReservation r).mie = s.mie := rfl
@[simp] theorem setReservation_mip (r : Option Word) : (s.setReservation r).mip = s.mip := rfl
@[simp] theorem setReservation_mtvec (r : Option Word) : (s.setReservation r).mtvec = s.mtvec := rfl
@[simp] theorem setReservation_mscratch (r : Option Word) : (s.setReservation r).mscratch = s.mscratch := rfl
@[simp] theorem setReservation_mepc (r : Option Word) : (s.setReservation r).mepc = s.mepc := rfl
@[simp] theorem setReservation_mcause (r : Option Word) : (s.setReservation r).mcause = s.mcause := rfl
@[simp] theorem setReservation_mtval (r : Option Word) : (s.setReservation r).mtval = s.mtval := rfl
@[simp] theorem setReservation_instret (r : Option Word) : (s.setReservation r).instret = s.instret := rfl
@[simp] theorem setReservation_halt (r : Option Word) : (s.setReservation r).halt = s.halt := rfl
@[simp] theorem setReservation_stopped (r : Option Word) : (s.setReservation r).stopped = s.stopped := rfl
@[simp] theorem setReservation_mem (r : Option Word) : (s.setReservation r).mem = s.mem := rfl
@[simp] theorem setReservation_io (r : Option Word) : (s.setReservation r).io = s.io := rfl
@[simp] theorem x_setReservation (r : Option Word) (q : Reg) : (s.setReservation r).x q = s.x q := rfl
@[simp] theorem ramByte_setReservation (r : Option Word) (a : Nat) : (s.setReservation r).ramByte a = s.ramByte a := rfl

/-! ## halted -/

@[simp] theorem halted_cfg (r : Fatal) : (s.halted r).cfg = s.cfg := rfl
@[simp] theorem halted_regs (r : Fatal) : (s.halted r).regs = s.regs := rfl
@[simp] theorem halted_pc (r : Fatal) : (s.halted r).pc = s.pc := rfl
@[simp] theorem halted_reservation (r : Fatal) : (s.halted r).reservation = s.reservation := rfl
@[simp] theorem halted_mode (r : Fatal) : (s.halted r).mode = s.mode := rfl
@[simp] theorem halted_statusMIE (r : Fatal) : (s.halted r).statusMIE = s.statusMIE := rfl
@[simp] theorem halted_statusMPIE (r : Fatal) : (s.halted r).statusMPIE = s.statusMPIE := rfl
@[simp] theorem halted_statusMPP (r : Fatal) : (s.halted r).statusMPP = s.statusMPP := rfl
@[simp] theorem halted_mie (r : Fatal) : (s.halted r).mie = s.mie := rfl
@[simp] theorem halted_mip (r : Fatal) : (s.halted r).mip = s.mip := rfl
@[simp] theorem halted_mtvec (r : Fatal) : (s.halted r).mtvec = s.mtvec := rfl
@[simp] theorem halted_mscratch (r : Fatal) : (s.halted r).mscratch = s.mscratch := rfl
@[simp] theorem halted_mepc (r : Fatal) : (s.halted r).mepc = s.mepc := rfl
@[simp] theorem halted_mcause (r : Fatal) : (s.halted r).mcause = s.mcause := rfl
@[simp] theorem halted_mtval (r : Fatal) : (s.halted r).mtval = s.mtval := rfl
@[simp] theorem halted_instret (r : Fatal) : (s.halted r).instret = s.instret := rfl
@[simp] theorem halted_halt (r : Fatal) : (s.halted r).halt = some ⟨r, s.pc⟩ := rfl
@[simp] theorem halted_stopped (r : Fatal) : (s.halted r).stopped = s.stopped := rfl
@[simp] theorem halted_mem (r : Fatal) : (s.halted r).mem = s.mem := rfl
@[simp] theorem halted_io (r : Fatal) : (s.halted r).io = s.io := rfl

/-! ## setRamByte -/

@[simp] theorem setRamByte_cfg (a : Nat) (b : Byte) : (s.setRamByte a b).cfg = s.cfg := rfl
@[simp] theorem setRamByte_regs (a : Nat) (b : Byte) : (s.setRamByte a b).regs = s.regs := rfl
@[simp] theorem setRamByte_pc (a : Nat) (b : Byte) : (s.setRamByte a b).pc = s.pc := rfl
@[simp] theorem setRamByte_reservation (a : Nat) (b : Byte) : (s.setRamByte a b).reservation = s.reservation := rfl
@[simp] theorem setRamByte_mode (a : Nat) (b : Byte) : (s.setRamByte a b).mode = s.mode := rfl
@[simp] theorem setRamByte_statusMIE (a : Nat) (b : Byte) : (s.setRamByte a b).statusMIE = s.statusMIE := rfl
@[simp] theorem setRamByte_statusMPIE (a : Nat) (b : Byte) : (s.setRamByte a b).statusMPIE = s.statusMPIE := rfl
@[simp] theorem setRamByte_statusMPP (a : Nat) (b : Byte) : (s.setRamByte a b).statusMPP = s.statusMPP := rfl
@[simp] theorem setRamByte_mie (a : Nat) (b : Byte) : (s.setRamByte a b).mie = s.mie := rfl
@[simp] theorem setRamByte_mip (a : Nat) (b : Byte) : (s.setRamByte a b).mip = s.mip := rfl
@[simp] theorem setRamByte_mtvec (a : Nat) (b : Byte) : (s.setRamByte a b).mtvec = s.mtvec := rfl
@[simp] theorem setRamByte_mscratch (a : Nat) (b : Byte) : (s.setRamByte a b).mscratch = s.mscratch := rfl
@[simp] theorem setRamByte_mepc (a : Nat) (b : Byte) : (s.setRamByte a b).mepc = s.mepc := rfl
@[simp] theorem setRamByte_mcause (a : Nat) (b : Byte) : (s.setRamByte a b).mcause = s.mcause := rfl
@[simp] theorem setRamByte_mtval (a : Nat) (b : Byte) : (s.setRamByte a b).mtval = s.mtval := rfl
@[simp] theorem setRamByte_instret (a : Nat) (b : Byte) : (s.setRamByte a b).instret = s.instret := rfl
@[simp] theorem setRamByte_halt (a : Nat) (b : Byte) : (s.setRamByte a b).halt = s.halt := rfl
@[simp] theorem setRamByte_stopped (a : Nat) (b : Byte) : (s.setRamByte a b).stopped = s.stopped := rfl
@[simp] theorem setRamByte_mem (a : Nat) (b : Byte) : (s.setRamByte a b).mem = Memory.write s.cfg.ramFill s.mem a b := rfl
@[simp] theorem setRamByte_io (a : Nat) (b : Byte) : (s.setRamByte a b).io = s.io := rfl

/-! ## transact -/

@[simp] theorem transact_cfg (d : Device) (offset : Nat) (t : Transfer) : (s.transact d offset t).cfg = s.cfg := rfl
@[simp] theorem transact_regs (d : Device) (offset : Nat) (t : Transfer) : (s.transact d offset t).regs = s.regs := rfl
@[simp] theorem transact_pc (d : Device) (offset : Nat) (t : Transfer) : (s.transact d offset t).pc = s.pc := rfl
@[simp] theorem transact_reservation (d : Device) (offset : Nat) (t : Transfer) : (s.transact d offset t).reservation = s.reservation := rfl
@[simp] theorem transact_mode (d : Device) (offset : Nat) (t : Transfer) : (s.transact d offset t).mode = s.mode := rfl
@[simp] theorem transact_statusMIE (d : Device) (offset : Nat) (t : Transfer) : (s.transact d offset t).statusMIE = s.statusMIE := rfl
@[simp] theorem transact_statusMPIE (d : Device) (offset : Nat) (t : Transfer) : (s.transact d offset t).statusMPIE = s.statusMPIE := rfl
@[simp] theorem transact_statusMPP (d : Device) (offset : Nat) (t : Transfer) : (s.transact d offset t).statusMPP = s.statusMPP := rfl
@[simp] theorem transact_mie (d : Device) (offset : Nat) (t : Transfer) : (s.transact d offset t).mie = s.mie := rfl
@[simp] theorem transact_mip (d : Device) (offset : Nat) (t : Transfer) : (s.transact d offset t).mip = s.mip := rfl
@[simp] theorem transact_mtvec (d : Device) (offset : Nat) (t : Transfer) : (s.transact d offset t).mtvec = s.mtvec := rfl
@[simp] theorem transact_mscratch (d : Device) (offset : Nat) (t : Transfer) : (s.transact d offset t).mscratch = s.mscratch := rfl
@[simp] theorem transact_mepc (d : Device) (offset : Nat) (t : Transfer) : (s.transact d offset t).mepc = s.mepc := rfl
@[simp] theorem transact_mcause (d : Device) (offset : Nat) (t : Transfer) : (s.transact d offset t).mcause = s.mcause := rfl
@[simp] theorem transact_mtval (d : Device) (offset : Nat) (t : Transfer) : (s.transact d offset t).mtval = s.mtval := rfl
@[simp] theorem transact_instret (d : Device) (offset : Nat) (t : Transfer) : (s.transact d offset t).instret = s.instret := rfl
@[simp] theorem transact_halt (d : Device) (offset : Nat) (t : Transfer) : (s.transact d offset t).halt = s.halt := rfl
@[simp] theorem transact_stopped (d : Device) (offset : Nat) (t : Transfer) : (s.transact d offset t).stopped = s.stopped := rfl
@[simp] theorem transact_mem (d : Device) (offset : Nat) (t : Transfer) : (s.transact d offset t).mem = s.mem := rfl
@[simp] theorem transact_io (d : Device) (offset : Nat) (t : Transfer) : (s.transact d offset t).io = ⟨d, offset, s.instret, t⟩ :: s.io := rfl

/-! ## signalTimerInterrupt -/

@[simp] theorem signalTimer_cfg : s.signalTimerInterrupt.cfg = s.cfg := rfl
@[simp] theorem signalTimer_regs : s.signalTimerInterrupt.regs = s.regs := rfl
@[simp] theorem signalTimer_pc : s.signalTimerInterrupt.pc = s.pc := rfl
@[simp] theorem signalTimer_reservation : s.signalTimerInterrupt.reservation = s.reservation := rfl
@[simp] theorem signalTimer_mode : s.signalTimerInterrupt.mode = s.mode := rfl
@[simp] theorem signalTimer_statusMIE : s.signalTimerInterrupt.statusMIE = s.statusMIE := rfl
@[simp] theorem signalTimer_statusMPIE : s.signalTimerInterrupt.statusMPIE = s.statusMPIE := rfl
@[simp] theorem signalTimer_statusMPP : s.signalTimerInterrupt.statusMPP = s.statusMPP := rfl
@[simp] theorem signalTimer_mie : s.signalTimerInterrupt.mie = s.mie := rfl
@[simp] theorem signalTimer_mip : s.signalTimerInterrupt.mip = s.mip ||| timerBit := rfl
@[simp] theorem signalTimer_mtvec : s.signalTimerInterrupt.mtvec = s.mtvec := rfl
@[simp] theorem signalTimer_mscratch : s.signalTimerInterrupt.mscratch = s.mscratch := rfl
@[simp] theorem signalTimer_mepc : s.signalTimerInterrupt.mepc = s.mepc := rfl
@[simp] theorem signalTimer_mcause : s.signalTimerInterrupt.mcause = s.mcause := rfl
@[simp] theorem signalTimer_mtval : s.signalTimerInterrupt.mtval = s.mtval := rfl
@[simp] theorem signalTimer_instret : s.signalTimerInterrupt.instret = s.instret := rfl
@[simp] theorem signalTimer_halt : s.signalTimerInterrupt.halt = s.halt := rfl
@[simp] theorem signalTimer_stopped : s.signalTimerInterrupt.stopped = s.stopped := rfl
@[simp] theorem signalTimer_mem : s.signalTimerInterrupt.mem = s.mem := rfl
@[simp] theorem signalTimer_io : s.signalTimerInterrupt.io = s.io := rfl

/-! ## clearTimerInterrupt -/

@[simp] theorem clearTimer_cfg : s.clearTimerInterrupt.cfg = s.cfg := rfl
@[simp] theorem clearTimer_regs : s.clearTimerInterrupt.regs = s.regs := rfl
@[simp] theorem clearTimer_pc : s.clearTimerInterrupt.pc = s.pc := rfl
@[simp] theorem clearTimer_reservation : s.clearTimerInterrupt.reservation = s.reservation := rfl
@[simp] theorem clearTimer_mode : s.clearTimerInterrupt.mode = s.mode := rfl
@[simp] theorem clearTimer_statusMIE : s.clearTimerInterrupt.statusMIE = s.statusMIE := rfl
@[simp] theorem clearTimer_statusMPIE : s.clearTimerInterrupt.statusMPIE = s.statusMPIE := rfl
@[simp] theorem clearTimer_statusMPP : s.clearTimerInterrupt.statusMPP = s.statusMPP := rfl
@[simp] theorem clearTimer_mie : s.clearTimerInterrupt.mie = s.mie := rfl
@[simp] theorem clearTimer_mip : s.clearTimerInterrupt.mip = s.mip &&& ~~~timerBit := rfl
@[simp] theorem clearTimer_mtvec : s.clearTimerInterrupt.mtvec = s.mtvec := rfl
@[simp] theorem clearTimer_mscratch : s.clearTimerInterrupt.mscratch = s.mscratch := rfl
@[simp] theorem clearTimer_mepc : s.clearTimerInterrupt.mepc = s.mepc := rfl
@[simp] theorem clearTimer_mcause : s.clearTimerInterrupt.mcause = s.mcause := rfl
@[simp] theorem clearTimer_mtval : s.clearTimerInterrupt.mtval = s.mtval := rfl
@[simp] theorem clearTimer_instret : s.clearTimerInterrupt.instret = s.instret := rfl
@[simp] theorem clearTimer_halt : s.clearTimerInterrupt.halt = s.halt := rfl
@[simp] theorem clearTimer_stopped : s.clearTimerInterrupt.stopped = s.stopped := rfl
@[simp] theorem clearTimer_mem : s.clearTimerInterrupt.mem = s.mem := rfl
@[simp] theorem clearTimer_io : s.clearTimerInterrupt.io = s.io := rfl

/-! ## clintTick -/

@[simp] theorem clintTick_cfg : s.clintTick.cfg = s.cfg := rfl
@[simp] theorem clintTick_regs : s.clintTick.regs = s.regs := rfl
@[simp] theorem clintTick_pc : s.clintTick.pc = s.pc := rfl
@[simp] theorem clintTick_reservation : s.clintTick.reservation = s.reservation := rfl
@[simp] theorem clintTick_mode : s.clintTick.mode = s.mode := rfl
@[simp] theorem clintTick_statusMIE : s.clintTick.statusMIE = s.statusMIE := rfl
@[simp] theorem clintTick_statusMPIE : s.clintTick.statusMPIE = s.statusMPIE := rfl
@[simp] theorem clintTick_statusMPP : s.clintTick.statusMPP = s.statusMPP := rfl
@[simp] theorem clintTick_mie : s.clintTick.mie = s.mie := rfl
@[simp] theorem clintTick_mtvec : s.clintTick.mtvec = s.mtvec := rfl
@[simp] theorem clintTick_mscratch : s.clintTick.mscratch = s.mscratch := rfl
@[simp] theorem clintTick_mepc : s.clintTick.mepc = s.mepc := rfl
@[simp] theorem clintTick_mcause : s.clintTick.mcause = s.mcause := rfl
@[simp] theorem clintTick_mtval : s.clintTick.mtval = s.mtval := rfl
@[simp] theorem clintTick_instret : s.clintTick.instret = s.instret := rfl
@[simp] theorem clintTick_halt : s.clintTick.halt = s.halt := rfl
@[simp] theorem clintTick_stopped : s.clintTick.stopped = s.stopped := rfl
@[simp] theorem clintTick_mem : s.clintTick.mem = s.mem := rfl
@[simp] theorem clintTick_io : s.clintTick.io = s.io := rfl

/-! ## retired -/

@[simp] theorem retired_cfg : s.retired.cfg = s.cfg := rfl
@[simp] theorem retired_regs : s.retired.regs = s.regs.set 0 0#32 := rfl
@[simp] theorem retired_pc : s.retired.pc = s.pc := rfl
@[simp] theorem retired_reservation : s.retired.reservation = s.reservation := rfl
@[simp] theorem retired_mode : s.retired.mode = s.mode := rfl
@[simp] theorem retired_statusMIE : s.retired.statusMIE = s.statusMIE := rfl
@[simp] theorem retired_statusMPIE : s.retired.statusMPIE = s.statusMPIE := rfl
@[simp] theorem retired_statusMPP : s.retired.statusMPP = s.statusMPP := rfl
@[simp] theorem retired_mie : s.retired.mie = s.mie := rfl
@[simp] theorem retired_mtvec : s.retired.mtvec = s.mtvec := rfl
@[simp] theorem retired_mscratch : s.retired.mscratch = s.mscratch := rfl
@[simp] theorem retired_mepc : s.retired.mepc = s.mepc := rfl
@[simp] theorem retired_mcause : s.retired.mcause = s.mcause := rfl
@[simp] theorem retired_mtval : s.retired.mtval = s.mtval := rfl
@[simp] theorem retired_instret : s.retired.instret = s.instret + 1 := rfl
@[simp] theorem retired_halt : s.retired.halt = s.halt := rfl
@[simp] theorem retired_stopped : s.retired.stopped = s.stopped := rfl
@[simp] theorem retired_mem : s.retired.mem = s.mem := rfl
@[simp] theorem retired_io : s.retired.io = s.io := rfl

/-! ## hostStop -/

@[simp] theorem hostStop_cfg : s.hostStop.cfg = s.cfg := rfl
@[simp] theorem hostStop_regs : s.hostStop.regs = s.regs := rfl
@[simp] theorem hostStop_pc : s.hostStop.pc = s.pc := rfl
@[simp] theorem hostStop_reservation : s.hostStop.reservation = s.reservation := rfl
@[simp] theorem hostStop_mode : s.hostStop.mode = s.mode := rfl
@[simp] theorem hostStop_statusMIE : s.hostStop.statusMIE = s.statusMIE := rfl
@[simp] theorem hostStop_statusMPIE : s.hostStop.statusMPIE = s.statusMPIE := rfl
@[simp] theorem hostStop_statusMPP : s.hostStop.statusMPP = s.statusMPP := rfl
@[simp] theorem hostStop_mie : s.hostStop.mie = s.mie := rfl
@[simp] theorem hostStop_mip : s.hostStop.mip = s.mip := rfl
@[simp] theorem hostStop_mtvec : s.hostStop.mtvec = s.mtvec := rfl
@[simp] theorem hostStop_mscratch : s.hostStop.mscratch = s.mscratch := rfl
@[simp] theorem hostStop_mepc : s.hostStop.mepc = s.mepc := rfl
@[simp] theorem hostStop_mcause : s.hostStop.mcause = s.mcause := rfl
@[simp] theorem hostStop_mtval : s.hostStop.mtval = s.mtval := rfl
@[simp] theorem hostStop_instret : s.hostStop.instret = s.instret := rfl
@[simp] theorem hostStop_halt : s.hostStop.halt = s.halt := rfl
@[simp] theorem hostStop_stopped : s.hostStop.stopped = (s.stopped || s.cfg.maxInsns == some s.instret) := rfl
@[simp] theorem hostStop_mem : s.hostStop.mem = s.mem := rfl
@[simp] theorem hostStop_io : s.hostStop.io = s.io := rfl

/-! ## General registers -/

@[simp] theorem x_zero : s.x 0#5 = 0#32 := by simp [State.x]

/-- A read after a write: the written register holds the value, x0 stays zero, the others are as before (10_state.md R21). -/
theorem x_setX (r q : Reg) (v : Word) : (s.setX r v).x q = if q = r ∧ r ≠ 0#5 then v else s.x q := by
  unfold State.x State.setX
  by_cases hr : r = 0#5
  · simp [hr]
  · by_cases hq : q = 0#5
    · subst hq
      simp [hr, Ne.symm hr]
    · by_cases h : q = r
      · subst h; simp [hr]
      · have hn : r.toNat ≠ q.toNat := fun e => h (BitVec.eq_of_toNat_eq e.symm)
        simp [hr, hq, h, Vector.getElem_set_ne, hn]

@[simp] theorem x_setX_same (r : Reg) (v : Word) : (s.setX r v).x r = if r = 0#5 then 0#32 else v := by
  by_cases hr : r = 0#5 <;> simp [x_setX, hr]

theorem x_setX_other (r q : Reg) (v : Word) (h : q ≠ r) : (s.setX r v).x q = s.x q := by
  simp [x_setX, h]

/-- Registers read from `regs` alone. -/
theorem x_congr (t : State) (h : t.regs = s.regs) (r : Reg) : t.x r = s.x r := by
  simp [State.x, h]

@[simp] theorem x_forceX0 (r : Reg) : s.forceX0.x r = s.x r := by
  unfold State.x State.forceX0
  by_cases hr : r = 0#5
  · simp [hr]
  · have hn : (0 : Nat) ≠ r.toNat := fun e => hr (BitVec.eq_of_toNat_eq e.symm)
    simp [hr, Vector.getElem_set_ne, hn]

@[simp] theorem x_advance (q : Reg) : s.advance.x q = s.x q := rfl
@[simp] theorem x_redirect (target : Word) (q : Reg) : (s.redirect target).x q = s.x q := rfl
@[simp] theorem x_halted (f : Fatal) (q : Reg) : (s.halted f).x q = s.x q := rfl
@[simp] theorem x_setRamByte (a : Nat) (b : Byte) (q : Reg) : (s.setRamByte a b).x q = s.x q := rfl
@[simp] theorem x_transact (d : Device) (offset : Nat) (t : Transfer) (q : Reg) : (s.transact d offset t).x q = s.x q := rfl
@[simp] theorem x_signalTimerInterrupt (q : Reg) : s.signalTimerInterrupt.x q = s.x q := rfl
@[simp] theorem x_clearTimerInterrupt (q : Reg) : s.clearTimerInterrupt.x q = s.x q := rfl
@[simp] theorem x_clintTick (q : Reg) : s.clintTick.x q = s.x q := rfl
@[simp] theorem x_hostStop (q : Reg) : s.hostStop.x q = s.x q := rfl
@[simp] theorem x_retired (q : Reg) : s.retired.x q = s.x q := x_forceX0 s q

/-! ## RAM bytes see only the configuration and the listed bytes -/

theorem ramByte_congr (t : State) (hc : t.cfg = s.cfg) (hm : t.mem = s.mem) (a : Nat) : t.ramByte a = s.ramByte a := by
  simp [State.ramByte, hc, hm]

@[simp] theorem ramByte_setX (r : Reg) (v : Word) (a : Nat) : (s.setX r v).ramByte a = s.ramByte a := by
  simp [State.ramByte]
@[simp] theorem ramByte_forceX0 (a : Nat) : s.forceX0.ramByte a = s.ramByte a := rfl
@[simp] theorem ramByte_advance (a : Nat) : s.advance.ramByte a = s.ramByte a := rfl
@[simp] theorem ramByte_redirect (target : Word) (a : Nat) : (s.redirect target).ramByte a = s.ramByte a := rfl
@[simp] theorem ramByte_halted (r : Fatal) (a : Nat) : (s.halted r).ramByte a = s.ramByte a := rfl
@[simp] theorem ramByte_transact (d : Device) (offset : Nat) (t : Transfer) (a : Nat) : (s.transact d offset t).ramByte a = s.ramByte a := rfl
@[simp] theorem ramByte_signalTimerInterrupt (a : Nat) : s.signalTimerInterrupt.ramByte a = s.ramByte a := rfl
@[simp] theorem ramByte_clearTimerInterrupt (a : Nat) : s.clearTimerInterrupt.ramByte a = s.ramByte a := rfl
@[simp] theorem ramByte_clintTick (a : Nat) : s.clintTick.ramByte a = s.ramByte a := rfl
@[simp] theorem ramByte_retired (a : Nat) : s.retired.ramByte a = s.ramByte a := rfl
@[simp] theorem ramByte_hostStop (a : Nat) : s.hostStop.ramByte a = s.ramByte a := rfl
/-! ## Two updates the laws of memory are stated with -/

/-- The state with transactions added to the record, newest first. -/
def State.addIo (txs : List DeviceTx) : State := { s with io := txs ++ s.io }

/-- The state with RAM replaced. -/
def State.putMem (m : Memory) : State := { s with mem := m }

@[simp] theorem addIo_cfg (txs : List DeviceTx) : (s.addIo txs).cfg = s.cfg := rfl
@[simp] theorem addIo_regs (txs : List DeviceTx) : (s.addIo txs).regs = s.regs := rfl
@[simp] theorem addIo_pc (txs : List DeviceTx) : (s.addIo txs).pc = s.pc := rfl
@[simp] theorem addIo_reservation (txs : List DeviceTx) : (s.addIo txs).reservation = s.reservation := rfl
@[simp] theorem addIo_mode (txs : List DeviceTx) : (s.addIo txs).mode = s.mode := rfl
@[simp] theorem addIo_statusMIE (txs : List DeviceTx) : (s.addIo txs).statusMIE = s.statusMIE := rfl
@[simp] theorem addIo_statusMPIE (txs : List DeviceTx) : (s.addIo txs).statusMPIE = s.statusMPIE := rfl
@[simp] theorem addIo_statusMPP (txs : List DeviceTx) : (s.addIo txs).statusMPP = s.statusMPP := rfl
@[simp] theorem addIo_mie (txs : List DeviceTx) : (s.addIo txs).mie = s.mie := rfl
@[simp] theorem addIo_mip (txs : List DeviceTx) : (s.addIo txs).mip = s.mip := rfl
@[simp] theorem addIo_mtvec (txs : List DeviceTx) : (s.addIo txs).mtvec = s.mtvec := rfl
@[simp] theorem addIo_mscratch (txs : List DeviceTx) : (s.addIo txs).mscratch = s.mscratch := rfl
@[simp] theorem addIo_mepc (txs : List DeviceTx) : (s.addIo txs).mepc = s.mepc := rfl
@[simp] theorem addIo_mcause (txs : List DeviceTx) : (s.addIo txs).mcause = s.mcause := rfl
@[simp] theorem addIo_mtval (txs : List DeviceTx) : (s.addIo txs).mtval = s.mtval := rfl
@[simp] theorem addIo_instret (txs : List DeviceTx) : (s.addIo txs).instret = s.instret := rfl
@[simp] theorem addIo_halt (txs : List DeviceTx) : (s.addIo txs).halt = s.halt := rfl
@[simp] theorem addIo_stopped (txs : List DeviceTx) : (s.addIo txs).stopped = s.stopped := rfl
@[simp] theorem addIo_mem (txs : List DeviceTx) : (s.addIo txs).mem = s.mem := rfl
@[simp] theorem addIo_io (txs : List DeviceTx) : (s.addIo txs).io = txs ++ s.io := rfl
@[simp] theorem x_addIo (txs : List DeviceTx) (q : Reg) : (s.addIo txs).x q = s.x q := rfl
@[simp] theorem putMem_cfg (m : Memory) : (s.putMem m).cfg = s.cfg := rfl
@[simp] theorem putMem_regs (m : Memory) : (s.putMem m).regs = s.regs := rfl
@[simp] theorem putMem_pc (m : Memory) : (s.putMem m).pc = s.pc := rfl
@[simp] theorem putMem_reservation (m : Memory) : (s.putMem m).reservation = s.reservation := rfl
@[simp] theorem putMem_mode (m : Memory) : (s.putMem m).mode = s.mode := rfl
@[simp] theorem putMem_statusMIE (m : Memory) : (s.putMem m).statusMIE = s.statusMIE := rfl
@[simp] theorem putMem_statusMPIE (m : Memory) : (s.putMem m).statusMPIE = s.statusMPIE := rfl
@[simp] theorem putMem_statusMPP (m : Memory) : (s.putMem m).statusMPP = s.statusMPP := rfl
@[simp] theorem putMem_mie (m : Memory) : (s.putMem m).mie = s.mie := rfl
@[simp] theorem putMem_mip (m : Memory) : (s.putMem m).mip = s.mip := rfl
@[simp] theorem putMem_mtvec (m : Memory) : (s.putMem m).mtvec = s.mtvec := rfl
@[simp] theorem putMem_mscratch (m : Memory) : (s.putMem m).mscratch = s.mscratch := rfl
@[simp] theorem putMem_mepc (m : Memory) : (s.putMem m).mepc = s.mepc := rfl
@[simp] theorem putMem_mcause (m : Memory) : (s.putMem m).mcause = s.mcause := rfl
@[simp] theorem putMem_mtval (m : Memory) : (s.putMem m).mtval = s.mtval := rfl
@[simp] theorem putMem_instret (m : Memory) : (s.putMem m).instret = s.instret := rfl
@[simp] theorem putMem_halt (m : Memory) : (s.putMem m).halt = s.halt := rfl
@[simp] theorem putMem_stopped (m : Memory) : (s.putMem m).stopped = s.stopped := rfl
@[simp] theorem putMem_mem (m : Memory) : (s.putMem m).mem = m := rfl
@[simp] theorem putMem_io (m : Memory) : (s.putMem m).io = s.io := rfl
@[simp] theorem x_putMem (m : Memory) (q : Reg) : (s.putMem m).x q = s.x q := rfl
@[simp] theorem ramByte_addIo (txs : List DeviceTx) (a : Nat) : (s.addIo txs).ramByte a = s.ramByte a := rfl
@[simp] theorem addIo_nil : s.addIo [] = s := rfl
@[simp] theorem addIo_addIo (txs more : List DeviceTx) : (s.addIo txs).addIo more = s.addIo (more ++ txs) := by
  simp [State.addIo]
theorem addIo_putMem (m : Memory) (txs : List DeviceTx) : (s.addIo txs).putMem m = (s.putMem m).addIo txs := rfl
@[simp] theorem putMem_putMem (m k : Memory) : (s.putMem m).putMem k = s.putMem k := rfl

end Sys2Proof.Machine
end

