-- ==== Sys2Proof/Laws/Memory.lean ====
section
/-! SUPPORT. RAM as a canonical list: read after write, the form kept by every write, and equal reads from equal lists. -/

namespace Sys2Proof.Machine

variable (fill : Byte)

theorem Memory.above_trans {a b : Nat} (h : a ≤ b) (m : Memory) (hb : Memory.above b m = true) :
    Memory.above a m = true := by
  simp only [Memory.above, List.all_eq_true, decide_eq_true_eq] at hb ⊢
  exact fun c hc => lt_of_le_of_lt h (hb c hc)

/-- An address below every listed one reads as an unlisted one. -/
theorem Memory.read_of_above {a : Nat} : ∀ (m : Memory), Memory.above a m = true → Memory.read fill m a = fill
  | [], _ => rfl
  | (k, v) :: rest, h => by
    simp only [Memory.above, List.all_cons, Bool.and_eq_true, decide_eq_true_eq] at h
    rw [Memory.read, if_neg (by omega)]
    exact Memory.read_of_above rest h.2

theorem Memory.wf_cons {k : Nat} {v : Byte} {rest : Memory} :
    Memory.wf fill ((k, v) :: rest) = true ↔
      Memory.above k rest = true ∧ v ≠ fill ∧ Memory.wf fill rest = true := by
  simp [Memory.wf, and_assoc]

/-- A read after a write: the written address holds the byte, every other address is as before. -/
theorem Memory.read_write (a : Nat) (b : Byte) : ∀ (m : Memory), Memory.wf fill m = true → ∀ q,
    Memory.read fill (Memory.write fill m a b) q = if q = a then b else Memory.read fill m q
  | [], _, q => by grind [Memory.write, Memory.read]
  | (k, v) :: rest, h, q => by
    obtain ⟨habove, hv, hrest⟩ := (Memory.wf_cons fill).1 h
    have ih := Memory.read_write a b rest hrest q
    have hlow : a ≤ k → Memory.read fill rest a = fill := fun hk =>
      Memory.read_of_above fill rest (Memory.above_trans hk rest habove)
    grind [Memory.write, Memory.read]

theorem Memory.above_cons {c k : Nat} {v : Byte} {rest : Memory} :
    Memory.above c ((k, v) :: rest) = true ↔ c < k ∧ Memory.above c rest = true := by
  simp [Memory.above]

theorem Memory.above_write {c a : Nat} (b : Byte) (hc : c < a) : ∀ (m : Memory), Memory.above c m = true →
    Memory.above c (Memory.write fill m a b) = true
  | [], h => by grind [Memory.write, Memory.above_cons]
  | (k, v) :: rest, h => by
    have ih := Memory.above_write b hc rest (Memory.above_cons.1 h).2
    grind [Memory.write, Memory.above_cons]

/-- Every write keeps the canonical form. -/
theorem Memory.wf_write (a : Nat) (b : Byte) : ∀ (m : Memory), Memory.wf fill m = true →
    Memory.wf fill (Memory.write fill m a b) = true
  | [], _ => by by_cases hb : b = fill <;> simp [Memory.write, Memory.wf, Memory.above, hb]
  | (k, v) :: rest, h => by
    obtain ⟨habove, hv, hrest⟩ := (Memory.wf_cons fill).1 h
    have ih := Memory.wf_write a b rest hrest
    have hup : k < a → Memory.above k (Memory.write fill rest a b) = true := fun hk =>
      Memory.above_write fill b hk rest habove
    have hlow : a < k → Memory.above a rest = true := fun hk =>
      Memory.above_trans (Nat.le_of_lt hk) rest habove
    grind [Memory.write, Memory.wf_cons, Memory.above_cons]

/-- What a write lists was listed before, or is the written byte. -/
theorem Memory.mem_write (a : Nat) (b : Byte) (c : Host.Cell) : ∀ (m : Memory), c ∈ Memory.write fill m a b →
    c ∈ m ∨ c = (a, b)
  | [], h => by
    by_cases hb : b = fill <;> simp_all [Memory.write]
  | (k, v) :: rest, h => by
    simp only [Memory.write] at h
    split_ifs at h
    · exact .inl h
    · rcases List.mem_cons.1 h with h | h
      · exact .inr h
      · exact .inl h
    · exact .inl (List.mem_cons_of_mem _ h)
    · rcases List.mem_cons.1 h with h | h
      · exact .inr h
      · exact .inl (List.mem_cons_of_mem _ h)
    · rcases List.mem_cons.1 h with h | h
      · exact .inl (h ▸ List.mem_cons_self ..)
      · exact (Memory.mem_write a b c rest h).imp (List.mem_cons_of_mem _) id

/-- A RAM byte after a RAM write (20_memory.md R65). -/
theorem ramByte_setRamByte (s : State) (h : Memory.wf s.cfg.ramFill s.mem = true) (a q : Nat) (b : Byte) :
    (s.setRamByte a b).ramByte q = if q = a then b else s.ramByte q :=
  Memory.read_write s.cfg.ramFill a b s.mem h q

end Sys2Proof.Machine
end

