-- ==== Sys2Proof/Laws/Access.lean ====
section
/-! SUPPORT. What the router and the multi-byte accesses can do: one exact answer for every access that completes, one for
every access that meets an unmapped byte (20_memory.md R61 to R69, R73). -/

namespace Sys2Proof.Machine

/-! ## Addresses -/

@[simp] theorem byteAddr_zero (a : Word) : byteAddr a 0 = a.toNat := by simp [byteAddr]

theorem byteAddr_succ (a : Word) (k : Nat) : byteAddr (a + 1#32) k = byteAddr a (k + 1) := by
  simp only [byteAddr, BitVec.ofNat_add]
  congr 1
  rw [BitVec.add_assoc, BitVec.add_comm 1#32]

/-- Two bytes of one access never share an address. -/
theorem byteAddr_inj {a : Word} {j k : Nat} (hj : j < 2 ^ 32) (hk : k < 2 ^ 32) (h : byteAddr a j = byteAddr a k) :
    j = k := by
  simp only [byteAddr, BitVec.toNat_add, BitVec.toNat_ofNat] at h
  omega

theorem Mapped.succ {s : State} {a : Word} {n : Nat} :
    Mapped s a (n + 1) ↔ regionOf s.cfg a.toNat ≠ none ∧ Mapped s (a + 1#32) n := by
  constructor
  · intro h
    exact ⟨by simpa using h 0 (by omega), fun k hk => byteAddr_succ a k ▸ h (k + 1) (by omega)⟩
  · rintro ⟨h0, h⟩ k hk
    cases k with
    | zero => simpa using h0
    | succ k => exact byteAddr_succ a k ▸ h k (by omega)

theorem InRam.mapped {s : State} {a : Word} {n : Nat} (h : InRam s a n) : Mapped s a n :=
  fun k hk => by simp [h k hk]

/-! ## Device transactions -/

/-- The transactions of an access depend on the configuration and the time alone. -/
theorem deviceTxs_congr {s t : State} (hc : t.cfg = s.cfg) (hi : t.instret = s.instret) (way : Byte → Transfer) :
    ∀ (bs : List Byte) (a : Word), deviceTxs t way a bs = deviceTxs s way a bs
  | [], _ => rfl
  | b :: bs, a => by simp only [deviceTxs, hc, hi, deviceTxs_congr hc hi way bs]

@[simp] theorem deviceTxs_addIo (s : State) (txs : List DeviceTx) (way : Byte → Transfer) (a : Word) (bs : List Byte) :
    deviceTxs (s.addIo txs) way a bs = deviceTxs s way a bs :=
  deviceTxs_congr (addIo_cfg s txs) (addIo_instret s txs) way bs a

@[simp] theorem deviceTxs_putMem (s : State) (m : Memory) (way : Byte → Transfer) (a : Word) (bs : List Byte) :
    deviceTxs (s.putMem m) way a bs = deviceTxs s way a bs :=
  deviceTxs_congr (putMem_cfg s m) (putMem_instret s m) way bs a

/-- An access that stays in RAM makes no transaction. -/
theorem deviceTxs_inRam {s : State} (way : Byte → Transfer) :
    ∀ (bs : List Byte) (a : Word), InRam s a bs.length → deviceTxs s way a bs = []
  | [], _, _ => rfl
  | b :: bs, a, h => by
    have h0 : regionOf s.cfg a.toNat = some .ram := by simpa using h 0 (by simp)
    have ht : InRam s (a + 1#32) bs.length := fun k hk => byteAddr_succ a k ▸ h (k + 1) (by simpa using hk)
    simp [deviceTxs, deviceAt, h0, deviceTxs_inRam way bs _ ht]

theorem regionOf_uart {c : Config} {a : Nat} (h : regionOf c a = some .uart) :
    c.uartBase ≤ a ∧ a - c.uartBase < uartSize := by
  simp only [regionOf, inWindow] at h
  grind

theorem regionOf_clint {c : Config} {a : Nat} (h : regionOf c a = some .clint) :
    c.clintBase ≤ a ∧ a - c.clintBase < c.clintSize := by
  simp only [regionOf, inWindow] at h
  grind

/-- Every transaction of an access lies in its window and carries the present time. -/
theorem deviceTxs_ok {s : State} (way : Byte → Transfer) :
    ∀ (bs : List Byte) (a : Word), ∀ t ∈ deviceTxs s way a bs, txOk s.cfg s.instret t
  | [], _, t, h => by simp [deviceTxs] at h
  | b :: bs, a, t, h => by
    rw [deviceTxs, List.mem_append] at h
    rcases h with h | h
    · exact deviceTxs_ok way bs _ t h
    · unfold deviceAt at h
      split at h
      · next heq =>
        split at heq
        · next hr => cases heq; simp at h; subst h; exact ⟨le_refl _, (regionOf_uart hr).2⟩
        · next hr => cases heq; simp at h; subst h; exact ⟨le_refl _, (regionOf_clint hr).2⟩
        · cases heq
        · cases heq
      · simp at h

/-! ## One byte -/

theorem readByte_ram {s : State} {a : Word} (h : regionOf s.cfg a.toNat = some .ram) :
    readByte a s = .ok (s.ramByte a.toNat) s := by simp [readByte, h]

theorem readByte_unmapped {s : State} {a : Word} (h : regionOf s.cfg a.toNat = none) :
    readByte a s = .unmapped a s := by simp [readByte, h]

/-- A read of a mapped byte: RAM gives its byte; a device gives some byte and gets one transaction. -/
theorem readByte_ok {s : State} {a : Word} (h : regionOf s.cfg a.toNat ≠ none) :
    ∃ b, (regionOf s.cfg a.toNat = some .ram → b = s.ramByte a.toNat) ∧
      readByte a s = .ok b (s.addIo (deviceTxs s .read a [b])) := by
  unfold readByte
  cases hr : regionOf s.cfg a.toNat with
  | none => exact absurd hr h
  | some r =>
    cases r with
    | ram => exact ⟨_, fun _ => rfl, by simp [deviceTxs, deviceAt, hr]⟩
    | uart => exact ⟨_, by simp, by simp [deviceTxs, deviceAt, hr, deviceRead, State.transact, State.addIo]; rfl⟩
    | clint => exact ⟨_, by simp, by simp [deviceTxs, deviceAt, hr, deviceRead, State.transact, State.addIo]; rfl⟩

theorem writeByte_ram {s : State} {a : Word} (b : Byte) (h : regionOf s.cfg a.toNat = some .ram) :
    writeByte a b s = .ok () (s.setRamByte a.toNat b) := by simp [writeByte, h]

theorem writeByte_unmapped {s : State} {a : Word} (b : Byte) (h : regionOf s.cfg a.toNat = none) :
    writeByte a b s = .unmapped a s := by simp [writeByte, h]

/-! ## Multi-byte reads -/

/-- A read whose bytes are all mapped completes; RAM bytes are RAM's, and the device bytes are recorded, newest first. -/
theorem readBytes_ok : ∀ (n : Nat) (a : Word) (s : State), Mapped s a n →
    ∃ bs : List Byte, bs.length = n ∧
      (∀ k, k < n → regionOf s.cfg (byteAddr a k) = some .ram → bs[k]? = some (s.ramByte (byteAddr a k))) ∧
      readBytes n a s = .ok bs (s.addIo (deviceTxs s .read a bs))
  | 0, a, s, _ => ⟨[], rfl, by simp, by simp [readBytes, deviceTxs]⟩
  | n + 1, a, s, h => by
    obtain ⟨h0, ht⟩ := Mapped.succ.1 h
    obtain ⟨b, hb, hrb⟩ := readByte_ok h0
    obtain ⟨bs, hlen, hram, hrbs⟩ :=
      readBytes_ok n (a + 1#32) (s.addIo (deviceTxs s .read a [b])) ht
    refine ⟨b :: bs, by simp [hlen], ?_, ?_⟩
    · intro k hk hr
      cases k with
      | zero => simp only [byteAddr_zero] at hr ⊢; simp [hb hr]
      | succ k =>
        rw [← byteAddr_succ] at hr ⊢
        simpa using hram k (by omega) hr
    · simp only [readBytes, hrb, Access.andThen, hrbs, deviceTxs_addIo, addIo_addIo]
      simp [deviceTxs]

theorem add_ofNat_succ (a : Word) (k : Nat) : a + 1#32 + BitVec.ofNat 32 k = a + BitVec.ofNat 32 (k + 1) := by
  rw [BitVec.ofNat_add, BitVec.add_assoc, BitVec.add_comm 1#32]

/-- The bytes below the first unmapped one, seen from the next address. -/
theorem FirstUnmapped.succ {s : State} {a : Word} {k : Nat} (h : FirstUnmapped s a (k + 1)) :
    regionOf s.cfg a.toNat ≠ none ∧ FirstUnmapped s (a + 1#32) k :=
  ⟨(Mapped.succ.1 h.1).1, (Mapped.succ.1 h.1).2, by rw [byteAddr_succ]; exact h.2⟩

theorem FirstUnmapped.zero {s : State} {a : Word} (h : FirstUnmapped s a 0) : regionOf s.cfg a.toNat = none := by
  simpa using h.2

/-- A read that meets an unmapped byte stops there, after the transactions of the bytes below it (R67). -/
theorem readBytes_unmapped (k : Nat) : ∀ (n : Nat) (a : Word) (s : State), k < n → FirstUnmapped s a k →
    ∃ bs : List Byte, bs.length = k ∧
      readBytes n a s = .unmapped (a + BitVec.ofNat 32 k) (s.addIo (deviceTxs s .read a bs)) := by
  induction k with
  | zero =>
    intro n a s hn h
    obtain ⟨m, rfl⟩ : ∃ m, n = m + 1 := ⟨n - 1, by omega⟩
    exact ⟨[], rfl, by simp [readBytes, readByte_unmapped h.zero, Access.andThen, deviceTxs]⟩
  | succ k ih =>
    intro n a s hn h
    obtain ⟨m, rfl⟩ : ∃ m, n = m + 1 := ⟨n - 1, by omega⟩
    obtain ⟨h0, ht⟩ := h.succ
    obtain ⟨b, hb, hrb⟩ := readByte_ok h0
    obtain ⟨bs, hlen, hrbs⟩ := ih m (a + 1#32) (s.addIo (deviceTxs s .read a [b])) (by omega) ht
    refine ⟨b :: bs, by simp [hlen], ?_⟩
    simp only [readBytes, hrb, Access.andThen, hrbs, deviceTxs_addIo, addIo_addIo,
      add_ofNat_succ]
    simp [deviceTxs]

/-- A read that stays in RAM gives RAM's bytes and changes nothing. -/
theorem readBytes_inRam (n : Nat) (a : Word) (s : State) (h : InRam s a n) :
    ∃ bs : List Byte, bs.length = n ∧ (∀ k, k < n → bs[k]? = some (s.ramByte (byteAddr a k))) ∧
      readBytes n a s = .ok bs s := by
  obtain ⟨bs, hlen, hram, hr⟩ := readBytes_ok n a s h.mapped
  exact ⟨bs, hlen, fun k hk => hram k hk (h k hk), by simp [hr, deviceTxs_inRam .read bs a (hlen ▸ h)]⟩

/-! ## Multi-byte writes -/

/-- RAM after the bytes of an access: those in RAM are stored, the others are not RAM's. -/
def storeMem (c : Config) : Word → List Byte → Memory → Memory
  | _, [], m => m
  | a, b :: bs, m =>
    storeMem c (a + 1#32) bs (if regionOf c a.toNat = some .ram then Memory.write c.ramFill m a.toNat b else m)

theorem writeByte_ok {s : State} {a : Word} (b : Byte) (h : regionOf s.cfg a.toNat ≠ none) :
    writeByte a b s =
      .ok () ((s.putMem (storeMem s.cfg a [b] s.mem)).addIo (deviceTxs s .write a [b])) := by
  unfold writeByte
  cases hr : regionOf s.cfg a.toNat with
  | none => exact absurd hr h
  | some r =>
    cases r <;> simp [deviceTxs, deviceAt, hr, State.transact, State.setRamByte, storeMem, State.addIo, State.putMem]

/-- A write whose bytes are all mapped completes: RAM bytes are stored, device bytes are sent, newest first. -/
theorem writeBytes_ok : ∀ (bs : List Byte) (a : Word) (s : State), Mapped s a bs.length →
    writeBytes bs a s = .ok () ((s.putMem (storeMem s.cfg a bs s.mem)).addIo (deviceTxs s .write a bs))
  | [], a, s, _ => rfl
  | b :: bs, a, s, h => by
    obtain ⟨h0, ht⟩ := Mapped.succ.1 h
    simp only [writeBytes, writeByte_ok b h0, Access.andThen]
    rw [writeBytes_ok bs (a + 1#32) ((s.putMem (storeMem s.cfg a [b] s.mem)).addIo (deviceTxs s .write a [b])) ht]
    simp [deviceTxs, storeMem, addIo_putMem]

/-- A write that meets an unmapped byte has written the bytes below it (R67). -/
theorem writeBytes_unmapped (k : Nat) : ∀ (bs : List Byte) (a : Word) (s : State), k < bs.length →
    FirstUnmapped s a k →
    writeBytes bs a s = .unmapped (a + BitVec.ofNat 32 k)
      ((s.putMem (storeMem s.cfg a (bs.take k) s.mem)).addIo (deviceTxs s .write a (bs.take k))) := by
  induction k with
  | zero =>
    intro bs a s hn h
    obtain ⟨b, bs, rfl⟩ := List.exists_cons_of_length_pos hn
    simp only [writeBytes, writeByte_unmapped b h.zero, Access.andThen, BitVec.add_zero]
    rfl
  | succ k ih =>
    intro bs a s hn h
    obtain ⟨b, bs, rfl⟩ := List.exists_cons_of_length_pos (by omega : 0 < bs.length)
    obtain ⟨h0, ht⟩ := h.succ
    simp only [writeBytes, writeByte_ok b h0, Access.andThen]
    rw [ih bs (a + 1#32) ((s.putMem (storeMem s.cfg a [b] s.mem)).addIo (deviceTxs s .write a [b]))
      (by simpa using hn) ht]
    simp [deviceTxs, storeMem, add_ofNat_succ, addIo_putMem]

theorem storeMem_wf (c : Config) : ∀ (bs : List Byte) (a : Word) (m : Memory), Memory.wf c.ramFill m = true →
    Memory.wf c.ramFill (storeMem c a bs m) = true
  | [], _, _, h => h
  | b :: bs, a, m, h => by
    apply storeMem_wf c bs
    split
    · exact Memory.wf_write c.ramFill _ b m h
    · exact h

/-- A store lists RAM addresses only. -/
theorem storeMem_ram (c : Config) : ∀ (bs : List Byte) (a : Word) (m : Memory),
    (∀ e ∈ m, regionOf c e.1 = some .ram) → ∀ e ∈ storeMem c a bs m, regionOf c e.1 = some .ram
  | [], _, _, h => h
  | b :: bs, a, m, h => by
    apply storeMem_ram c bs
    split
    · next hr =>
      intro e he
      rcases Memory.mem_write c.ramFill _ b e m he with h' | h'
      · exact h e h'
      · subst h'; exact hr
    · exact h

/-- An address that no stored RAM byte has reads as before. -/
theorem storeMem_read_other (c : Config) (q : Nat) : ∀ (bs : List Byte) (a : Word) (m : Memory),
    Memory.wf c.ramFill m = true →
    (∀ k, k < bs.length → regionOf c (byteAddr a k) = some .ram → q ≠ byteAddr a k) →
    Memory.read c.ramFill (storeMem c a bs m) q = Memory.read c.ramFill m q
  | [], _, _, _, _ => rfl
  | b :: bs, a, m, hw, h => by
    have ht : ∀ k, k < bs.length → regionOf c (byteAddr (a + 1#32) k) = some .ram → q ≠ byteAddr (a + 1#32) k :=
      fun k hk => byteAddr_succ a k ▸ h (k + 1) (by simpa using hk)
    have h0 := h 0 (by simp)
    simp only [byteAddr_zero] at h0
    rw [storeMem]
    split
    · next hr =>
      rw [storeMem_read_other c q bs _ _ (Memory.wf_write c.ramFill _ b m hw) ht,
        Memory.read_write c.ramFill _ b m hw, if_neg (h0 hr)]
    · exact storeMem_read_other c q bs _ _ hw ht

/-- A stored RAM byte reads as its byte of the access. -/
theorem storeMem_read_hit (c : Config) : ∀ (bs : List Byte) (a : Word) (m : Memory) (k : Nat),
    Memory.wf c.ramFill m = true → bs.length ≤ 2 ^ 32 → k < bs.length →
    regionOf c (byteAddr a k) = some .ram →
    some (Memory.read c.ramFill (storeMem c a bs m) (byteAddr a k)) = bs[k]?
  | b :: bs, a, m, 0, hw, hl, _, hr => by
    simp only [byteAddr_zero] at hr ⊢
    rw [storeMem, if_pos hr, storeMem_read_other c _ bs _ _ (Memory.wf_write c.ramFill _ b m hw),
      Memory.read_write c.ramFill _ b m hw]
    · simp
    · intro j hj _ he
      rw [byteAddr_succ, ← byteAddr_zero a] at he
      simp only [List.length_cons] at hl
      exact absurd (byteAddr_inj (by omega) (by omega) he) (by omega)
  | b :: bs, a, m, k + 1, hw, hl, hk, hr => by
    simp only [List.length_cons] at hl hk
    rw [← byteAddr_succ] at hr ⊢
    rw [storeMem]
    have hw' : Memory.wf c.ramFill
        (if regionOf c a.toNat = some .ram then Memory.write c.ramFill m a.toNat b else m) = true := by
      split
      · exact Memory.wf_write c.ramFill _ b m hw
      · exact hw
    simpa using storeMem_read_hit c bs (a + 1#32) _ k hw' (by omega) (by omega) hr

/-! ## Little-endian words -/

@[simp] theorem leBytes_length : ∀ (n : Nat) (v : Word), (leBytes n v).length = n
  | 0, _ => rfl
  | n + 1, v => by simp [leBytes, leBytes_length n]

/-- Byte `k` of a word (00_scope.md R15). -/
theorem leBytes_get : ∀ (n : Nat) (v : Word) (k : Nat), k < n →
    ∃ b : Byte, (leBytes n v)[k]? = some b ∧ b.toNat = v.toNat / 256 ^ k % 256
  | n + 1, v, 0, _ => ⟨v.setWidth 8, by simp [leBytes], by simp⟩
  | n + 1, v, k + 1, hk => by
    obtain ⟨b, hb, hv⟩ := leBytes_get n (v >>> 8) k (by omega)
    refine ⟨b, by simpa [leBytes] using hb, ?_⟩
    rw [hv, BitVec.toNat_ushiftRight, Nat.shiftRight_eq_div_pow, Nat.div_div_eq_div_mul]
    congr 2
    rw [pow_succ]; ring

theorem leNat_lt : ∀ bs : List Byte, leNat bs < 256 ^ bs.length
  | [] => by simp [leNat]
  | b :: bs => by
    have := leNat_lt bs
    have hb := b.isLt
    simp only [leNat, List.length_cons, pow_succ]
    omega

/-- The word of up to four bytes is the number they stand for (20_memory.md R68). -/
theorem leWord_toNat : ∀ bs : List Byte, bs.length ≤ 4 → (leWord bs).toNat = leNat bs
  | [], _ => rfl
  | b :: bs, h => by
    simp only [List.length_cons] at h
    have ih := leWord_toNat bs (by omega)
    have hlt := leNat_lt bs
    have hpow : 256 ^ bs.length ≤ 256 ^ 3 := Nat.pow_le_pow_right (by omega) (by omega)
    have hb := b.isLt
    have hsh : (leWord bs <<< 8).toNat = leNat bs <<< 8 := by
      rw [BitVec.toNat_shiftLeft, ih, Nat.shiftLeft_eq, Nat.mod_eq_of_lt]
      omega
    rw [leWord, leNat, BitVec.toNat_or, hsh, BitVec.toNat_setWidth, Nat.mod_eq_of_lt (by omega), Nat.or_comm,
      ← Nat.shiftLeft_add_eq_or_of_lt hb, Nat.shiftLeft_eq]
    omega

/-! ## Words in memory -/

/-- `MemRead(a, n)` of mapped bytes, for every width the core has. -/
theorem memRead_ok (n : Nat) (hn : n ≤ 4) (a : Word) (s : State) (h : Mapped s a n) :
    ∃ bs : List Byte, bs.length = n ∧
      (∀ k, k < n → regionOf s.cfg (byteAddr a k) = some .ram → bs[k]? = some (s.ramByte (byteAddr a k))) ∧
      (leWord bs).toNat = leNat bs ∧
      memRead n a s = .ok (leWord bs) (s.addIo (deviceTxs s .read a bs)) := by
  obtain ⟨bs, hlen, hram, hr⟩ := readBytes_ok n a s h
  exact ⟨bs, hlen, hram, leWord_toNat bs (by omega), by simp [memRead, hr, Access.andThen]⟩

/-- `MemRead(a, n)` of RAM bytes changes nothing. -/
theorem memRead_inRam (n : Nat) (hn : n ≤ 4) (a : Word) (s : State) (h : InRam s a n) :
    ∃ bs : List Byte, bs.length = n ∧ (∀ k, k < n → bs[k]? = some (s.ramByte (byteAddr a k))) ∧
      (leWord bs).toNat = leNat bs ∧ memRead n a s = .ok (leWord bs) s := by
  obtain ⟨bs, hlen, hram, hr⟩ := readBytes_inRam n a s h
  exact ⟨bs, hlen, hram, leWord_toNat bs (by omega), by simp [memRead, hr, Access.andThen]⟩

theorem memRead_unmapped (n k : Nat) (a : Word) (s : State) (hk : k < n) (h : FirstUnmapped s a k) :
    ∃ bs : List Byte, bs.length = k ∧
      memRead n a s = .unmapped (a + BitVec.ofNat 32 k) (s.addIo (deviceTxs s .read a bs)) := by
  obtain ⟨bs, hlen, hr⟩ := readBytes_unmapped k n a s hk h
  exact ⟨bs, hlen, by simp [memRead, hr, Access.andThen]⟩

/-- `MemWrite(a, n, v)` of mapped bytes. -/
theorem memWrite_ok (n : Nat) (a v : Word) (s : State) (h : Mapped s a n) :
    memWrite n a v s = .ok () ((s.putMem (storeMem s.cfg a (leBytes n v) s.mem)).addIo
      (deviceTxs s .write a (leBytes n v))) :=
  writeBytes_ok _ a s (by simpa using h)

theorem memWrite_unmapped (n k : Nat) (a v : Word) (s : State) (hk : k < n) (h : FirstUnmapped s a k) :
    memWrite n a v s = .unmapped (a + BitVec.ofNat 32 k) ((s.putMem (storeMem s.cfg a ((leBytes n v).take k) s.mem)).addIo
      (deviceTxs s .write a ((leBytes n v).take k))) :=
  writeBytes_unmapped k _ a s (by simpa using hk) h

/-- What RAM holds after `MemWrite(a, n, v)`, or after its first `k` bytes. -/
theorem ramHolds_storeMem (n k : Nat) (hk : k ≤ n) (hn : n ≤ 4) (a v : Word) (s t : State)
    (hw : Memory.wf s.cfg.ramFill s.mem = true) (hc : t.cfg = s.cfg)
    (hm : t.mem = storeMem s.cfg a ((leBytes n v).take k) s.mem) : RamHolds s t a k v.toNat := by
  have hlen : ((leBytes n v).take k).length = k := by simp [hk]
  constructor
  · intro j hj hr
    have hhit := storeMem_read_hit s.cfg ((leBytes n v).take k) a s.mem j hw (by omega) (by omega) hr
    obtain ⟨b, hb, hv⟩ := leBytes_get n v j (by omega)
    rw [List.getElem?_take_of_lt hj, hb, Option.some.injEq] at hhit
    rw [State.ramByte, hc, hm, hhit, hv]
  · intro b hb
    rw [State.ramByte, hc, hm]
    exact storeMem_read_other s.cfg b _ a s.mem hw (by rw [hlen]; exact hb)

/-- For any access there is either no unmapped byte, or a first one. -/
theorem mapped_or_firstUnmapped (s : State) (a : Word) : ∀ n,
    Mapped s a n ∨ ∃ k, k < n ∧ FirstUnmapped s a k
  | 0 => .inl fun k hk => absurd hk (by omega)
  | n + 1 => by
    rcases mapped_or_firstUnmapped s a n with h | ⟨k, hk, hf⟩
    · by_cases hn : regionOf s.cfg (byteAddr a n) = none
      · exact .inr ⟨n, by omega, h, hn⟩
      · refine .inl fun k hk => ?_
        rcases Nat.lt_succ_iff_lt_or_eq.1 hk with h' | h'
        · exact h k h'
        · exact h' ▸ hn
    · exact .inr ⟨k, by omega, hf⟩

end Sys2Proof.Machine
end

