-- ==== Sys2Proof/Laws/Instructions.lean ====
section
/-! SUPPORT. What the shared endings of instructions do: a write-back, a load, a store, an AMO, a branch, a division. One
lemma each says everything the operation can answer; an instruction's lemma cites it. -/

namespace Sys2Proof.Machine

/-! ## Frames -/

theorem SameCsrs.refl (s : State) : SameCsrs s s := ⟨rfl, rfl, rfl, rfl, rfl, rfl, rfl, rfl, rfl, rfl, rfl⟩
theorem SameRun.refl (s : State) : SameRun s s := ⟨rfl, rfl, rfl, rfl⟩

theorem sameCsrs_setX (s : State) (r : Reg) (v : Word) : SameCsrs s (s.setX r v) := by
  constructor <;> simp

theorem sameRun_setX (s : State) (r : Reg) (v : Word) : SameRun s (s.setX r v) := by
  constructor <;> simp

theorem sameRam_of_mem {s t : State} (hc : t.cfg = s.cfg) (hm : t.mem = s.mem) : SameRam s t :=
  fun a => ramByte_congr s t hc hm a

/-- The destination register after `setX`, and the others. -/
theorem writesReg_setX {p : Word → Prop} (s : State) (rd : Reg) {v : Word} (hv : p v) : WritesReg rd p s (s.setX rd v) :=
  ⟨fun h => by simp [h], fun h => by simpa [h] using hv, fun r hr => x_setX_other s rd r v hr⟩

theorem writesReg_congr {p : Word → Prop} {rd : Reg} {s t s' t' : State} (h : WritesReg rd p s t)
    (hs : ∀ r, s'.x r = s.x r) (ht : ∀ r, t'.x r = t.x r) : WritesReg rd p s' t' :=
  ⟨fun h0 => by rw [ht]; exact h.1 h0, fun h0 => by rw [ht]; exact h.2.1 h0, fun r hr => by rw [ht, hs]; exact h.2.2 r hr⟩

/-- The same for a write after other updates that leave the registers. -/
theorem writesReg_write {p : Word → Prop} {s u : State} {rd : Reg} {v : Word} (hs : ∀ r, u.x r = s.x r) (hv : p v) :
    WritesReg rd p s (u.setX rd v) :=
  writesReg_congr (writesReg_setX u rd hv) (fun r => (hs r).symm) (fun _ => rfl)

theorem writesReg_write_advance {p : Word → Prop} {s u : State} {rd : Reg} {v : Word} (hs : ∀ r, u.x r = s.x r)
    (hv : p v) : WritesReg rd p s (u.setX rd v).advance :=
  writesReg_congr (writesReg_setX u rd hv) (fun r => (hs r).symm) (fun _ => rfl)

/-! ## Write-back -/

/-- An instruction that ends in a write-back of a value completes, with that value. -/
theorem completesReg_writeBack {i : Instr} {s : State} {rd : Reg} {v : Word} {p : Word → Prop}
    (h : exec i s = s.writeBack rd v) (hv : p v) : CompletesReg i s rd p := by
  refine ⟨_, h, writesReg_write_advance (fun _ => rfl) hv, ⟨?_, ?_, ?_, ?_, ?_⟩, ?_⟩
  · constructor <;> simp
  · constructor <;> simp
  · simp
  · exact sameRam_of_mem (by simp) (by simp)
  · simp
  · simp

/-! ## Fatal endings -/

/-- A fatal condition in the state the instruction started from leaves everything as it was. -/
theorem haltedFrom_halted (s : State) (r : Fatal) : HaltedFrom s (s.halted r) r :=
  ⟨rfl, rfl, fun _ => rfl, ⟨rfl, rfl, rfl, rfl, rfl, rfl, rfl, rfl, rfl, rfl, rfl⟩, rfl, rfl, rfl, rfl⟩

theorem haltsClean_of_fatal {i : Instr} {s : State} {r : Fatal} (h : exec i s = fatal r s) : HaltsClean i s r :=
  ⟨_, h, haltedFrom_halted s r, fun _ => rfl, rfl⟩

/-- A fatal condition after memory traffic: only RAM and device ports can differ. -/
theorem haltedFrom_traffic (s : State) (m : Memory) (txs : List DeviceTx) (r : Fatal) :
    HaltedFrom s (((s.putMem m).addIo txs).halted r) r :=
  ⟨rfl, rfl, fun _ => rfl, ⟨rfl, rfl, rfl, rfl, rfl, rfl, rfl, rfl, rfl, rfl, rfl⟩, rfl, rfl, rfl, rfl⟩

/-! ## Loads -/

/-- Every answer of a load whose bytes are all mapped. -/
theorem load_mapped {n : Nat} (hn : n ≤ 4) (extend : Word → Word) (rd rs1 : Reg) (imm : BitVec 12) {s : State}
    (h : Mapped s (s.baseDisp rs1 imm) n) :
    ∃ bs : List Byte, bs.length = n ∧
      (∀ k, k < n → regionOf s.cfg (byteAddr (s.baseDisp rs1 imm) k) = some .ram →
        bs[k]? = some (s.ramByte (byteAddr (s.baseDisp rs1 imm) k))) ∧
      (leWord bs).toNat = leNat bs ∧
      load n extend rd rs1 imm s =
        .next ((s.addIo (deviceTxs s .read (s.baseDisp rs1 imm) bs)).setX rd (extend (leWord bs))).advance := by
  obtain ⟨bs, hlen, hram, hle, hr⟩ := memRead_ok n hn _ s h
  exact ⟨bs, hlen, hram, hle, by simp [load, hr, Access.finish, State.writeBack]⟩

/-- Every answer of a load that meets an unmapped byte. -/
theorem load_unmapped {n k : Nat} (hk : k < n) (extend : Word → Word) (rd rs1 : Reg) (imm : BitVec 12) {s : State}
    (h : FirstUnmapped s (s.baseDisp rs1 imm) k) :
    ∃ bs : List Byte, bs.length = k ∧
      load n extend rd rs1 imm s = fatal (.unmappedAddress (s.baseDisp rs1 imm + BitVec.ofNat 32 k))
        (s.addIo (deviceTxs s .read (s.baseDisp rs1 imm) bs)) := by
  obtain ⟨bs, hlen, hr⟩ := memRead_unmapped n k _ s hk h
  exact ⟨bs, hlen, by simp [load, hr, Access.finish]⟩

/-! ## Stores -/

theorem store_mapped {n : Nat} (rs1 rs2 : Reg) (imm : BitVec 12) {s : State} (h : Mapped s (s.baseDisp rs1 imm) n) :
    store n rs1 rs2 imm s =
      .next ((s.putMem (storeMem s.cfg (s.baseDisp rs1 imm) (leBytes n (s.x rs2)) s.mem)).addIo
        (deviceTxs s .write (s.baseDisp rs1 imm) (leBytes n (s.x rs2)))).advance := by
  simp [store, memWrite_ok n _ _ s h, Access.finish]

theorem store_unmapped {n k : Nat} (hk : k < n) (rs1 rs2 : Reg) (imm : BitVec 12) {s : State}
    (h : FirstUnmapped s (s.baseDisp rs1 imm) k) :
    store n rs1 rs2 imm s = fatal (.unmappedAddress (s.baseDisp rs1 imm + BitVec.ofNat 32 k))
      ((s.putMem (storeMem s.cfg (s.baseDisp rs1 imm) ((leBytes n (s.x rs2)).take k) s.mem)).addIo
        (deviceTxs s .write (s.baseDisp rs1 imm) ((leBytes n (s.x rs2)).take k))) := by
  simp [store, memWrite_unmapped n k _ _ s hk h, Access.finish]

/-- The number the low bytes of a word stand for. -/
theorem leNat_leBytes : ∀ (n : Nat) (v : Word), leNat (leBytes n v) = v.toNat % 256 ^ n
  | 0, v => by simp [leBytes, leNat, Nat.mod_one]
  | n + 1, v => by
    rw [leBytes, leNat, leNat_leBytes n, show (v.setWidth 8).toNat = v.toNat % 256 by simp,
      show (v >>> 8).toNat = v.toNat / 256 by simp [Nat.shiftRight_eq_div_pow], Nat.pow_succ', Nat.mod_mul]

theorem bytesOf_leBytes (n : Nat) (v : Word) : BytesOf (leBytes n v) n (unsigned v) :=
  ⟨leBytes_length n v, leNat_leBytes n v⟩

/-- The first bytes of a word's bytes are the bytes of the word. -/
theorem leBytes_take : ∀ (n k : Nat) (v : Word), k ≤ n → (leBytes n v).take k = leBytes k v
  | _, 0, _, _ => by simp [leBytes]
  | n + 1, k + 1, v, h => by simp [leBytes, leBytes_take n k (v >>> 8) (by omega)]

/-! ## AMOs -/

/-- The read and the write of an AMO whose four bytes are mapped: the write's transactions come after the read's. -/
theorem amo_mapped {inst : Word} {f : Word → Word → Word} {rd rs1 rs2 : Reg} {s : State}
    (ha : ¬(rd ≠ 0#5 ∧ (rd = rs1 ∨ rd = rs2) ∧ s.cfg.amoAlias = .fault)) (h : Mapped s (s.x rs1) 4) :
    ∃ bs : List Byte, bs.length = 4 ∧
      (∀ k, k < 4 → regionOf s.cfg (byteAddr (s.x rs1) k) = some .ram →
        bs[k]? = some (s.ramByte (byteAddr (s.x rs1) k))) ∧
      (leWord bs).toNat = leNat bs ∧
      amo inst f rd rs1 rs2 s =
        .next ((((s.addIo (deviceTxs s .read (s.x rs1) bs)).putMem
          (storeMem s.cfg (s.x rs1) (leBytes 4 (f (leWord bs) (s.x rs2))) s.mem)).addIo
            (deviceTxs s .write (s.x rs1) (leBytes 4 (f (leWord bs) (s.x rs2))))).setX rd (leWord bs)).advance := by
  obtain ⟨bs, hlen, hram, hle, hr⟩ := memRead_ok 4 (by omega) _ s h
  refine ⟨bs, hlen, hram, hle, ?_⟩
  have hw := memWrite_ok 4 (s.x rs1) (f (leWord bs) (s.x rs2)) (s.addIo (deviceTxs s .read (s.x rs1) bs)) h
  simp only [addIo_cfg, addIo_mem, deviceTxs_addIo] at hw
  simp [amo, ha, hr, hw, Access.andThen, Access.finish, State.writeBack]

theorem amo_unmapped {inst : Word} {f : Word → Word → Word} {rd rs1 rs2 : Reg} {s : State} {k : Nat}
    (ha : ¬(rd ≠ 0#5 ∧ (rd = rs1 ∨ rd = rs2) ∧ s.cfg.amoAlias = .fault)) (hk : k < 4) (h : FirstUnmapped s (s.x rs1) k) :
    ∃ bs : List Byte, bs.length = k ∧
      amo inst f rd rs1 rs2 s = fatal (.unmappedAddress (s.x rs1 + BitVec.ofNat 32 k))
        (s.addIo (deviceTxs s .read (s.x rs1) bs)) := by
  obtain ⟨bs, hlen, hr⟩ := memRead_unmapped 4 k _ s hk h
  exact ⟨bs, hlen, by simp [amo, ha, hr, Access.andThen, Access.finish]⟩

/-! ## LR.W and SC.W -/

theorem execLrW_mapped (rd rs1 : Reg) {s : State} (h : Mapped s (s.x rs1) 4) :
    ∃ bs : List Byte, bs.length = 4 ∧
      (∀ k, k < 4 → regionOf s.cfg (byteAddr (s.x rs1) k) = some .ram →
        bs[k]? = some (s.ramByte (byteAddr (s.x rs1) k))) ∧
      (leWord bs).toNat = leNat bs ∧
      execLrW rd rs1 s = .next
        ((((s.addIo (deviceTxs s .read (s.x rs1) bs)).setReservation (some (s.x rs1))).setX rd (leWord bs)).advance) := by
  obtain ⟨bs, hlen, hram, hle, hr⟩ := memRead_ok 4 (by omega) _ s h
  exact ⟨bs, hlen, hram, hle, by simp [execLrW, hr, Access.finish, State.writeBack]⟩

theorem execLrW_unmapped (rd rs1 : Reg) {s : State} {k : Nat} (hk : k < 4) (h : FirstUnmapped s (s.x rs1) k) :
    ∃ bs : List Byte, bs.length = k ∧ execLrW rd rs1 s = fatal (.unmappedAddress (s.x rs1 + BitVec.ofNat 32 k))
      (s.addIo (deviceTxs s .read (s.x rs1) bs)) := by
  obtain ⟨bs, hlen, hr⟩ := memRead_unmapped 4 k _ s hk h
  exact ⟨bs, hlen, by simp [execLrW, hr, Access.finish]⟩

theorem execScW_mapped (rd rs1 rs2 : Reg) {s : State} (hr : s.reservation = some (s.x rs1)) (h : Mapped s (s.x rs1) 4) :
    execScW rd rs1 rs2 s = .next
      (((((s.putMem (storeMem s.cfg (s.x rs1) (leBytes 4 (s.x rs2)) s.mem)).addIo
        (deviceTxs s .write (s.x rs1) (leBytes 4 (s.x rs2)))).setReservation none).setX rd 0#32).advance) := by
  simp [execScW, hr, memWrite_ok 4 _ _ s h, Access.finish, State.writeBack]

theorem execScW_unmapped (rd rs1 rs2 : Reg) {s : State} {k : Nat} (hr : s.reservation = some (s.x rs1)) (hk : k < 4)
    (h : FirstUnmapped s (s.x rs1) k) :
    execScW rd rs1 rs2 s = fatal (.unmappedAddress (s.x rs1 + BitVec.ofNat 32 k))
      ((s.putMem (storeMem s.cfg (s.x rs1) ((leBytes 4 (s.x rs2)).take k) s.mem)).addIo
        (deviceTxs s .write (s.x rs1) ((leBytes 4 (s.x rs2)).take k))) := by
  simp [execScW, hr, memWrite_unmapped 4 k _ _ s hk h, Access.finish]

theorem execScW_fails (rd rs1 rs2 : Reg) {s : State} (hr : s.reservation ≠ some (s.x rs1)) :
    execScW rd rs1 rs2 s = .next ((s.setReservation none).setX rd 1#32).advance := by
  simp [execScW, hr, State.writeBack]

/-! ## Branches and divisions -/

/-- A branch changes `pc` alone. -/
theorem branch_eq (c : Bool) (imm : BitVec 13) (s : State) :
    branch c imm s = .next { s with pc := if c then s.pc + sext13 imm else s.pc + 4#32 } := by
  cases c <;> rfl

/-- A division that is no corner, or has DIV_CORNER architectural, writes its result. -/
theorem finishDiv_go {inst : Word} {corner : Bool} {rd : Reg} {v : Word} {s : State}
    (h : s.cfg.divCorner = .fault → corner = false) : finishDiv inst corner rd v s = s.writeBack rd v := by
  unfold finishDiv
  split
  · next hc =>
    simp only [Bool.and_eq_true, decide_eq_true_eq] at hc
    simp [h hc.2] at hc
  · rfl

theorem finishDiv_fault {inst : Word} {corner : Bool} {rd : Reg} {v : Word} {s : State} (hc : corner = true)
    (h : s.cfg.divCorner = .fault) : finishDiv inst corner rd v s = fatal (.unimplementedInstruction inst) s := by
  simp [finishDiv, hc, h]

end Sys2Proof.Machine
end

