-- ==== Sys2Proof/Laws/Operands.lean ====
section
/-! SUPPORT. The operand forms as numbers: immediates, shift amounts, the effective address, the conditions. -/

namespace Sys2Proof.Machine

theorem sext12_toInt (f : BitVec 12) : (sext12 f).toInt = f.toInt := BitVec.toInt_signExtend_of_le (by omega)
theorem sext13_toInt (f : BitVec 13) : (sext13 f).toInt = f.toInt := BitVec.toInt_signExtend_of_le (by omega)
theorem sext20_toInt (f : BitVec 20) : (sext20 f).toInt = f.toInt := BitVec.toInt_signExtend_of_le (by omega)
theorem sext21_toInt (f : BitVec 21) : (sext21 f).toInt = f.toInt := BitVec.toInt_signExtend_of_le (by omega)

/-- Bit `k` of a sign-extended 12-bit field is its bit `min k 11`. -/
theorem sext12_bit (f : BitVec 12) (k : Nat) (hk : k < 32) : (sext12 f).getLsbD k = f.getLsbD (min k 11) := by
  simp [sext12, hk]
  grind

/-- Adding a word to an unsigned number counts the word's signed value, modulo 2^32. -/
theorem unsigned_add_signed (a b : Word) : (unsigned (a + b) : Int) = (unsigned a + b.toInt) % 2 ^ 32 := by
  simp only [unsigned, BitVec.toNat_add, BitVec.toInt_eq_toNat_cond]
  split <;> omega

theorem upperImm_toNat (f : BitVec 20) : (upperImm f).toNat = f.toNat * 4096 := by
  change (f ++ 0#12 : BitVec (20 + 12)).toNat = _
  rw [BitVec.toNat_append]
  simp [Nat.shiftLeft_eq]

theorem shiftAmount_eq (v : Word) : shiftAmount v = unsigned v % 32 := by
  simp [shiftAmount, unsigned]

theorem unsigned_boolWord (c : Bool) : unsigned (boolWord c) = if c = true then 1 else 0 := by
  cases c <;> rfl

@[simp] theorem lessSigned_iff (a b : Word) : lessSigned a b = true ↔ signed a < signed b := by simp [lessSigned]

@[simp] theorem lessUnsigned_iff (a b : Word) : lessUnsigned a b = true ↔ unsigned a < unsigned b := by
  simp [lessUnsigned]

theorem sext8_toInt (v : Word) :
    signed (sext8 v) =
      if v.toNat % 256 < 128 then ((v.toNat % 256 : Nat) : Int) else (v.toNat % 256 : Nat) - 256 := by
  rw [sext8, signed, BitVec.toInt_signExtend_of_le (by omega), BitVec.toInt_eq_toNat_cond]
  simp
  split <;> split <;> omega

theorem sext16_toInt (v : Word) :
    signed (sext16 v) =
      if v.toNat % 65536 < 32768 then ((v.toNat % 65536 : Nat) : Int) else (v.toNat % 65536 : Nat) - 65536 := by
  rw [sext16, signed, BitVec.toInt_signExtend_of_le (by omega), BitVec.toInt_eq_toNat_cond]
  simp
  split <;> split <;> omega

theorem zext8_toNat (v : Word) : unsigned (zext8 v) = v.toNat % 256 := by simp [zext8, unsigned]; omega

theorem zext16_toNat (v : Word) : unsigned (zext16 v) = v.toNat % 65536 := by simp [zext16, unsigned]; omega

/-- What ends in a write-back in every state is a register law. -/
theorem regLaw_of_writeBack {i : Instr} {name : String} {rd : Reg} {p : State → Word → Prop} {v : State → Word}
    (hr : InRow i name) (he : ∀ s, exec i s = s.writeBack rd (v s)) (hv : ∀ s, p s (v s)) : RegLaw i name rd p :=
  ⟨hr, fun s => completesReg_writeBack (he s) (hv s)⟩

/-- A word that decodes to nothing is rejected in every state. -/
theorem rejectsWord_of_decodeWord {w : Word} (h : decodeWord w = none) : RejectsWord w := by
  intro s
  have he : executeWord w s = fatal (.unimplementedInstruction w) s := by simp [executeWord, decode, h]
  exact ⟨_, he, haltedFrom_halted s _, fun _ => rfl, rfl⟩

end Sys2Proof.Machine
end

