-- ==== Sys2Proof/Laws/Division.lean ====
section
/-! SUPPORT. Division as integers: the conditions of the corners, and the results outside them, which stay in range. -/

namespace Sys2Proof.Machine

theorem signed_zero_iff (b : Word) : signed b = 0 ↔ b = 0#32 := by
  rw [signed]; constructor
  · intro h; exact BitVec.eq_of_toInt_eq (by simpa using h)
  · rintro rfl; rfl

theorem unsigned_zero_iff (b : Word) : unsigned b = 0 ↔ b = 0#32 := by
  rw [unsigned]; constructor
  · intro h; exact BitVec.eq_of_toNat_eq (by simpa using h)
  · rintro rfl; rfl

theorem overflow_iff (a b : Word) : divOverflow a b = true ↔ signed a = -2 ^ 31 ∧ signed b = -1 := by
  simp only [divOverflow, Bool.and_eq_true, decide_eq_true_eq, signed]
  constructor
  · rintro ⟨rfl, rfl⟩; decide
  · rintro ⟨h1, h2⟩; exact ⟨BitVec.eq_of_toInt_eq (by rw [h1]; decide), BitVec.eq_of_toInt_eq (by rw [h2]; decide)⟩

theorem toInt_range (a : Word) : -2 ^ 31 ≤ signed a ∧ signed a < 2 ^ 31 := by
  have := BitVec.toInt_lt (x := a); have := BitVec.le_toInt (x := a); simp [signed]; omega

theorem ofInt_of_range (z : Int) (h1 : -2 ^ 31 ≤ z) (h2 : z < 2 ^ 31) : signed (BitVec.ofInt 32 z) = z := by
  rw [signed, BitVec.toInt_ofInt, Int.bmod_eq_of_le] <;> omega

theorem tdiv_range (a b : Word) (hb : signed b ≠ 0) (ho : ¬(signed a = -2 ^ 31 ∧ signed b = -1)) :
    -2 ^ 31 ≤ Int.tdiv (signed a) (signed b) ∧ Int.tdiv (signed a) (signed b) < 2 ^ 31 := by
  have ⟨h1, h2⟩ := toInt_range a
  have hn : (Int.tdiv (signed a) (signed b)).natAbs ≤ (signed a).natAbs := by
    rw [Int.natAbs_tdiv]; exact Nat.div_le_self _ _
  by_cases hm : signed a = -2 ^ 31
  · have hb1 : signed b ≠ -1 := fun h => ho ⟨hm, h⟩
    by_cases hb2 : signed b = 1
    · rw [hb2]; simp [Int.tdiv_one]; omega
    · have : (Int.tdiv (signed a) (signed b)).natAbs < (signed a).natAbs := by
        rw [Int.natAbs_tdiv]; apply Nat.div_lt_self <;> omega
      omega
  · omega

theorem divSigned_toInt (a b : Word) (hb : signed b ≠ 0) (ho : ¬(signed a = -2 ^ 31 ∧ signed b = -1)) :
    signed (divSigned a b) = Int.tdiv (signed a) (signed b) := by
  have ⟨h1, h2⟩ := tdiv_range a b hb ho
  rw [divSigned, if_neg (by rwa [← signed_zero_iff]), if_neg (by rwa [overflow_iff]), ofInt_of_range _ h1 h2]

theorem remSigned_toInt (a b : Word) (hb : signed b ≠ 0) (ho : ¬(signed a = -2 ^ 31 ∧ signed b = -1)) :
    signed (remSigned a b) = signed a - signed b * Int.tdiv (signed a) (signed b) := by
  rw [remSigned, if_neg (by rwa [← signed_zero_iff]), if_neg (by rwa [overflow_iff])]
  have h : signed a - signed b * Int.tdiv (signed a) (signed b) = Int.tmod (signed a) (signed b) := by
    have := Int.mul_tdiv_add_tmod (signed a) (signed b); omega
  rw [h]
  have ⟨h1, h2⟩ := toInt_range a
  have hn : (Int.tmod (signed a) (signed b)).natAbs ≤ (signed a).natAbs := by
    rw [Int.natAbs_tmod]; exact Nat.mod_le _ _
  have : -2 ^ 31 ≤ Int.tmod (signed a) (signed b) ∧ Int.tmod (signed a) (signed b) < 2 ^ 31 := by
    have hb' := Int.tmod_lt_of_pos
    by_cases hm : signed a = -2 ^ 31
    · have hneg : Int.tmod (signed a) (signed b) ≤ 0 := by
        rw [hm, Int.neg_tmod]; have := Int.tmod_nonneg (signed b) (a := 2 ^ 31) (by omega); omega
      omega
    · omega
  exact ofInt_of_range _ this.1 this.2

end Sys2Proof.Machine
end

