-- ==== Sys2Proof/Laws/Encoding.lean ====
section
/-! SUPPORT. The encoder's formats bit by bit, what each field of a format reads back as, what a format makes of the fields
of a word, and the opcode table's masks as conditions on fields. -/

namespace Sys2Proof

/-! ## Each format, bit by bit (30_encoding.md R92 to R98) -/

theorem getLsbD_encodeR (f7 : BitVec 7) (rs2 rs1 : Reg) (f3 : BitVec 3) (rd : Reg) (op : BitVec 7) (i : Nat) :
    (encodeR f7 rs2 rs1 f3 rd op).getLsbD i =
      if i < 7 then op.getLsbD i else if i < 12 then rd.getLsbD (i - 7) else if i < 15 then f3.getLsbD (i - 12)
      else if i < 20 then rs1.getLsbD (i - 15) else if i < 25 then rs2.getLsbD (i - 20)
      else if i < 32 then f7.getLsbD (i - 25) else false := by
  change (f7 ++ rs2 ++ rs1 ++ f3 ++ rd ++ op).getLsbD i = _
  simp only [BitVec.getLsbD_append]
  grind

theorem getLsbD_encodeAmo (f5 : BitVec 5) (aq rl : Bool) (rs2 rs1 rd : Reg) (i : Nat) :
    (encodeAmo f5 aq rl rs2 rs1 rd).getLsbD i =
      if i < 7 then (0x2F#7).getLsbD i else if i < 12 then rd.getLsbD (i - 7)
      else if i < 15 then (0b010#3).getLsbD (i - 12) else if i < 20 then rs1.getLsbD (i - 15)
      else if i < 25 then rs2.getLsbD (i - 20) else if i < 26 then rl else if i < 27 then aq
      else if i < 32 then f5.getLsbD (i - 27) else false := by
  change (f5 ++ BitVec.ofBool aq ++ BitVec.ofBool rl ++ rs2 ++ rs1 ++ 0b010#3 ++ rd ++ 0x2F#7).getLsbD i = _
  simp only [BitVec.getLsbD_append, BitVec.getLsbD_ofBool]
  grind

theorem getLsbD_encodeI (imm : BitVec 12) (rs1 : Reg) (f3 : BitVec 3) (rd : Reg) (op : BitVec 7) (i : Nat) :
    (encodeI imm rs1 f3 rd op).getLsbD i =
      if i < 7 then op.getLsbD i else if i < 12 then rd.getLsbD (i - 7) else if i < 15 then f3.getLsbD (i - 12)
      else if i < 20 then rs1.getLsbD (i - 15) else if i < 32 then imm.getLsbD (i - 20) else false := by
  change (imm ++ rs1 ++ f3 ++ rd ++ op).getLsbD i = _
  simp only [BitVec.getLsbD_append]
  grind

theorem getLsbD_encodeS (imm : BitVec 12) (rs2 rs1 : Reg) (f3 : BitVec 3) (i : Nat) :
    (encodeS imm rs2 rs1 f3).getLsbD i =
      if i < 7 then (0x23#7).getLsbD i else if i < 12 then imm.getLsbD (i - 7)
      else if i < 15 then f3.getLsbD (i - 12) else if i < 20 then rs1.getLsbD (i - 15)
      else if i < 25 then rs2.getLsbD (i - 20) else if i < 32 then imm.getLsbD (i - 20) else false := by
  change (imm.extractLsb' 5 7 ++ rs2 ++ rs1 ++ f3 ++ imm.extractLsb' 0 5 ++ 0x23#7).getLsbD i = _
  simp only [BitVec.getLsbD_append, BitVec.getLsbD_extractLsb']
  grind

theorem getLsbD_encodeB (imm : BitVec 13) (rs2 rs1 : Reg) (f3 : BitVec 3) (i : Nat) :
    (encodeB imm rs2 rs1 f3).getLsbD i =
      if i < 7 then (0x63#7).getLsbD i else if i < 8 then imm.getLsbD (i + 4)
      else if i < 12 then imm.getLsbD (i - 7) else if i < 15 then f3.getLsbD (i - 12)
      else if i < 20 then rs1.getLsbD (i - 15) else if i < 25 then rs2.getLsbD (i - 20)
      else if i < 31 then imm.getLsbD (i - 20) else if i < 32 then imm.getLsbD (i - 19) else false := by
  change (imm.extractLsb' 12 1 ++ imm.extractLsb' 5 6 ++ rs2 ++ rs1 ++ f3 ++ imm.extractLsb' 1 4 ++ imm.extractLsb' 11 1
    ++ 0x63#7).getLsbD i = _
  simp only [BitVec.getLsbD_append, BitVec.getLsbD_extractLsb']
  grind

theorem getLsbD_encodeU (imm : BitVec 20) (rd : Reg) (op : BitVec 7) (i : Nat) :
    (encodeU imm rd op).getLsbD i =
      if i < 7 then op.getLsbD i else if i < 12 then rd.getLsbD (i - 7) else if i < 32 then imm.getLsbD (i - 12)
      else false := by
  change (imm ++ rd ++ op).getLsbD i = _
  simp only [BitVec.getLsbD_append]
  grind

theorem getLsbD_encodeJ (imm : BitVec 21) (rd : Reg) (i : Nat) :
    (encodeJ imm rd).getLsbD i =
      if i < 7 then (0x6F#7).getLsbD i else if i < 12 then rd.getLsbD (i - 7) else if i < 20 then imm.getLsbD i
      else if i < 21 then imm.getLsbD (i - 9) else if i < 31 then imm.getLsbD (i - 20)
      else if i < 32 then imm.getLsbD (i - 11) else false := by
  change (imm.extractLsb' 20 1 ++ imm.extractLsb' 1 10 ++ imm.extractLsb' 11 1 ++ imm.extractLsb' 12 8 ++ rd
    ++ 0x6F#7).getLsbD i = _
  simp only [BitVec.getLsbD_append, BitVec.getLsbD_extractLsb']
  grind

/-! ## Fields of an encoded word -/

@[simp] theorem opcodeField_encodeR (f7 : BitVec 7) (rs2 rs1 : Reg) (f3 : BitVec 3) (rd : Reg) (op : BitVec 7) :
    opcodeField (encodeR f7 rs2 rs1 f3 rd op) = op := by
  apply BitVec.eq_of_getLsbD_eq
  intro i hi
  simp only [opcodeField, BitVec.getLsbD_extractLsb', getLsbD_encodeR]
  grind

@[simp] theorem rdField_encodeR (f7 : BitVec 7) (rs2 rs1 : Reg) (f3 : BitVec 3) (rd : Reg) (op : BitVec 7) :
    rdField (encodeR f7 rs2 rs1 f3 rd op) = rd := by
  apply BitVec.eq_of_getLsbD_eq
  intro i hi
  simp only [rdField, BitVec.getLsbD_extractLsb', getLsbD_encodeR]
  grind

@[simp] theorem funct3Field_encodeR (f7 : BitVec 7) (rs2 rs1 : Reg) (f3 : BitVec 3) (rd : Reg) (op : BitVec 7) :
    funct3Field (encodeR f7 rs2 rs1 f3 rd op) = f3 := by
  apply BitVec.eq_of_getLsbD_eq
  intro i hi
  simp only [funct3Field, BitVec.getLsbD_extractLsb', getLsbD_encodeR]
  grind

@[simp] theorem rs1Field_encodeR (f7 : BitVec 7) (rs2 rs1 : Reg) (f3 : BitVec 3) (rd : Reg) (op : BitVec 7) :
    rs1Field (encodeR f7 rs2 rs1 f3 rd op) = rs1 := by
  apply BitVec.eq_of_getLsbD_eq
  intro i hi
  simp only [rs1Field, BitVec.getLsbD_extractLsb', getLsbD_encodeR]
  grind

@[simp] theorem rs2Field_encodeR (f7 : BitVec 7) (rs2 rs1 : Reg) (f3 : BitVec 3) (rd : Reg) (op : BitVec 7) :
    rs2Field (encodeR f7 rs2 rs1 f3 rd op) = rs2 := by
  apply BitVec.eq_of_getLsbD_eq
  intro i hi
  simp only [rs2Field, BitVec.getLsbD_extractLsb', getLsbD_encodeR]
  grind

@[simp] theorem funct7Field_encodeR (f7 : BitVec 7) (rs2 rs1 : Reg) (f3 : BitVec 3) (rd : Reg) (op : BitVec 7) :
    funct7Field (encodeR f7 rs2 rs1 f3 rd op) = f7 := by
  apply BitVec.eq_of_getLsbD_eq
  intro i hi
  simp only [funct7Field, BitVec.getLsbD_extractLsb', getLsbD_encodeR]
  grind

@[simp] theorem opcodeField_encodeAmo (f5 : BitVec 5) (aq rl : Bool) (rs2 rs1 rd : Reg) :
    opcodeField (encodeAmo f5 aq rl rs2 rs1 rd) = 0x2F#7 := by
  apply BitVec.eq_of_getLsbD_eq
  intro i hi
  simp only [opcodeField, BitVec.getLsbD_extractLsb', getLsbD_encodeAmo]
  grind

@[simp] theorem rdField_encodeAmo (f5 : BitVec 5) (aq rl : Bool) (rs2 rs1 rd : Reg) :
    rdField (encodeAmo f5 aq rl rs2 rs1 rd) = rd := by
  apply BitVec.eq_of_getLsbD_eq
  intro i hi
  simp only [rdField, BitVec.getLsbD_extractLsb', getLsbD_encodeAmo]
  grind

@[simp] theorem funct3Field_encodeAmo (f5 : BitVec 5) (aq rl : Bool) (rs2 rs1 rd : Reg) :
    funct3Field (encodeAmo f5 aq rl rs2 rs1 rd) = 0b010#3 := by
  apply BitVec.eq_of_getLsbD_eq
  intro i hi
  simp only [funct3Field, BitVec.getLsbD_extractLsb', getLsbD_encodeAmo]
  grind

@[simp] theorem rs1Field_encodeAmo (f5 : BitVec 5) (aq rl : Bool) (rs2 rs1 rd : Reg) :
    rs1Field (encodeAmo f5 aq rl rs2 rs1 rd) = rs1 := by
  apply BitVec.eq_of_getLsbD_eq
  intro i hi
  simp only [rs1Field, BitVec.getLsbD_extractLsb', getLsbD_encodeAmo]
  grind

@[simp] theorem rs2Field_encodeAmo (f5 : BitVec 5) (aq rl : Bool) (rs2 rs1 rd : Reg) :
    rs2Field (encodeAmo f5 aq rl rs2 rs1 rd) = rs2 := by
  apply BitVec.eq_of_getLsbD_eq
  intro i hi
  simp only [rs2Field, BitVec.getLsbD_extractLsb', getLsbD_encodeAmo]
  grind

@[simp] theorem funct5Field_encodeAmo (f5 : BitVec 5) (aq rl : Bool) (rs2 rs1 rd : Reg) :
    funct5Field (encodeAmo f5 aq rl rs2 rs1 rd) = f5 := by
  apply BitVec.eq_of_getLsbD_eq
  intro i hi
  simp only [funct5Field, BitVec.getLsbD_extractLsb', getLsbD_encodeAmo]
  grind

@[simp] theorem opcodeField_encodeI (imm : BitVec 12) (rs1 : Reg) (f3 : BitVec 3) (rd : Reg) (op : BitVec 7) :
    opcodeField (encodeI imm rs1 f3 rd op) = op := by
  apply BitVec.eq_of_getLsbD_eq
  intro i hi
  simp only [opcodeField, BitVec.getLsbD_extractLsb', getLsbD_encodeI]
  grind

@[simp] theorem rdField_encodeI (imm : BitVec 12) (rs1 : Reg) (f3 : BitVec 3) (rd : Reg) (op : BitVec 7) :
    rdField (encodeI imm rs1 f3 rd op) = rd := by
  apply BitVec.eq_of_getLsbD_eq
  intro i hi
  simp only [rdField, BitVec.getLsbD_extractLsb', getLsbD_encodeI]
  grind

@[simp] theorem funct3Field_encodeI (imm : BitVec 12) (rs1 : Reg) (f3 : BitVec 3) (rd : Reg) (op : BitVec 7) :
    funct3Field (encodeI imm rs1 f3 rd op) = f3 := by
  apply BitVec.eq_of_getLsbD_eq
  intro i hi
  simp only [funct3Field, BitVec.getLsbD_extractLsb', getLsbD_encodeI]
  grind

@[simp] theorem rs1Field_encodeI (imm : BitVec 12) (rs1 : Reg) (f3 : BitVec 3) (rd : Reg) (op : BitVec 7) :
    rs1Field (encodeI imm rs1 f3 rd op) = rs1 := by
  apply BitVec.eq_of_getLsbD_eq
  intro i hi
  simp only [rs1Field, BitVec.getLsbD_extractLsb', getLsbD_encodeI]
  grind

@[simp] theorem immIField_encodeI (imm : BitVec 12) (rs1 : Reg) (f3 : BitVec 3) (rd : Reg) (op : BitVec 7) :
    immIField (encodeI imm rs1 f3 rd op) = imm := by
  apply BitVec.eq_of_getLsbD_eq
  intro i hi
  simp only [immIField, BitVec.getLsbD_extractLsb', getLsbD_encodeI]
  grind

@[simp] theorem opcodeField_encodeS (imm : BitVec 12) (rs2 rs1 : Reg) (f3 : BitVec 3) :
    opcodeField (encodeS imm rs2 rs1 f3) = 0x23#7 := by
  apply BitVec.eq_of_getLsbD_eq
  intro i hi
  simp only [opcodeField, BitVec.getLsbD_extractLsb', getLsbD_encodeS]
  grind

@[simp] theorem funct3Field_encodeS (imm : BitVec 12) (rs2 rs1 : Reg) (f3 : BitVec 3) :
    funct3Field (encodeS imm rs2 rs1 f3) = f3 := by
  apply BitVec.eq_of_getLsbD_eq
  intro i hi
  simp only [funct3Field, BitVec.getLsbD_extractLsb', getLsbD_encodeS]
  grind

@[simp] theorem rs1Field_encodeS (imm : BitVec 12) (rs2 rs1 : Reg) (f3 : BitVec 3) :
    rs1Field (encodeS imm rs2 rs1 f3) = rs1 := by
  apply BitVec.eq_of_getLsbD_eq
  intro i hi
  simp only [rs1Field, BitVec.getLsbD_extractLsb', getLsbD_encodeS]
  grind

@[simp] theorem rs2Field_encodeS (imm : BitVec 12) (rs2 rs1 : Reg) (f3 : BitVec 3) :
    rs2Field (encodeS imm rs2 rs1 f3) = rs2 := by
  apply BitVec.eq_of_getLsbD_eq
  intro i hi
  simp only [rs2Field, BitVec.getLsbD_extractLsb', getLsbD_encodeS]
  grind

@[simp] theorem opcodeField_encodeB (imm : BitVec 13) (rs2 rs1 : Reg) (f3 : BitVec 3) :
    opcodeField (encodeB imm rs2 rs1 f3) = 0x63#7 := by
  apply BitVec.eq_of_getLsbD_eq
  intro i hi
  simp only [opcodeField, BitVec.getLsbD_extractLsb', getLsbD_encodeB]
  grind

@[simp] theorem funct3Field_encodeB (imm : BitVec 13) (rs2 rs1 : Reg) (f3 : BitVec 3) :
    funct3Field (encodeB imm rs2 rs1 f3) = f3 := by
  apply BitVec.eq_of_getLsbD_eq
  intro i hi
  simp only [funct3Field, BitVec.getLsbD_extractLsb', getLsbD_encodeB]
  grind

@[simp] theorem rs1Field_encodeB (imm : BitVec 13) (rs2 rs1 : Reg) (f3 : BitVec 3) :
    rs1Field (encodeB imm rs2 rs1 f3) = rs1 := by
  apply BitVec.eq_of_getLsbD_eq
  intro i hi
  simp only [rs1Field, BitVec.getLsbD_extractLsb', getLsbD_encodeB]
  grind

@[simp] theorem rs2Field_encodeB (imm : BitVec 13) (rs2 rs1 : Reg) (f3 : BitVec 3) :
    rs2Field (encodeB imm rs2 rs1 f3) = rs2 := by
  apply BitVec.eq_of_getLsbD_eq
  intro i hi
  simp only [rs2Field, BitVec.getLsbD_extractLsb', getLsbD_encodeB]
  grind

@[simp] theorem opcodeField_encodeU (imm : BitVec 20) (rd : Reg) (op : BitVec 7) :
    opcodeField (encodeU imm rd op) = op := by
  apply BitVec.eq_of_getLsbD_eq
  intro i hi
  simp only [opcodeField, BitVec.getLsbD_extractLsb', getLsbD_encodeU]
  grind

@[simp] theorem rdField_encodeU (imm : BitVec 20) (rd : Reg) (op : BitVec 7) :
    rdField (encodeU imm rd op) = rd := by
  apply BitVec.eq_of_getLsbD_eq
  intro i hi
  simp only [rdField, BitVec.getLsbD_extractLsb', getLsbD_encodeU]
  grind

@[simp] theorem immUField_encodeU (imm : BitVec 20) (rd : Reg) (op : BitVec 7) :
    immUField (encodeU imm rd op) = imm := by
  apply BitVec.eq_of_getLsbD_eq
  intro i hi
  simp only [immUField, BitVec.getLsbD_extractLsb', getLsbD_encodeU]
  grind

@[simp] theorem opcodeField_encodeJ (imm : BitVec 21) (rd : Reg) :
    opcodeField (encodeJ imm rd) = 0x6F#7 := by
  apply BitVec.eq_of_getLsbD_eq
  intro i hi
  simp only [opcodeField, BitVec.getLsbD_extractLsb', getLsbD_encodeJ]
  grind

@[simp] theorem rdField_encodeJ (imm : BitVec 21) (rd : Reg) :
    rdField (encodeJ imm rd) = rd := by
  apply BitVec.eq_of_getLsbD_eq
  intro i hi
  simp only [rdField, BitVec.getLsbD_extractLsb', getLsbD_encodeJ]
  grind

@[simp] theorem aqField_encodeAmo (f5 : BitVec 5) (aq rl : Bool) (rs2 rs1 rd : Reg) :
    aqField (encodeAmo f5 aq rl rs2 rs1 rd) = aq := by rw [aqField, getLsbD_encodeAmo]; rfl

@[simp] theorem rlField_encodeAmo (f5 : BitVec 5) (aq rl : Bool) (rs2 rs1 rd : Reg) :
    rlField (encodeAmo f5 aq rl rs2 rs1 rd) = rl := by rw [rlField, getLsbD_encodeAmo]; rfl

/-! ## The split immediates, bit by bit and read back -/

theorem getLsbD_immSField (w : Word) (i : Nat) :
    (immSField w).getLsbD i = if i < 5 then w.getLsbD (i + 7) else if i < 12 then w.getLsbD (i + 20) else false := by
  change (w.extractLsb' 25 7 ++ w.extractLsb' 7 5).getLsbD i = _
  simp only [BitVec.getLsbD_append, BitVec.getLsbD_extractLsb']
  grind

theorem getLsbD_immBField (w : Word) (i : Nat) :
    (immBField w).getLsbD i =
      if i < 1 then false else if i < 5 then w.getLsbD (i + 7) else if i < 11 then w.getLsbD (i + 20)
      else if i < 12 then w.getLsbD 7 else if i < 13 then w.getLsbD 31 else false := by
  change (w.extractLsb' 31 1 ++ w.extractLsb' 7 1 ++ w.extractLsb' 25 6 ++ w.extractLsb' 8 4 ++ 0#1).getLsbD i = _
  simp only [BitVec.getLsbD_append, BitVec.getLsbD_extractLsb']
  grind

theorem getLsbD_immJField (w : Word) (i : Nat) :
    (immJField w).getLsbD i =
      if i < 1 then false else if i < 11 then w.getLsbD (i + 20) else if i < 12 then w.getLsbD 20
      else if i < 20 then w.getLsbD i else if i < 21 then w.getLsbD 31 else false := by
  change (w.extractLsb' 31 1 ++ w.extractLsb' 12 8 ++ w.extractLsb' 20 1 ++ w.extractLsb' 21 10 ++ 0#1).getLsbD i = _
  simp only [BitVec.getLsbD_append, BitVec.getLsbD_extractLsb']
  grind

@[simp] theorem immSField_encodeS (imm : BitVec 12) (rs2 rs1 : Reg) (f3 : BitVec 3) :
    immSField (encodeS imm rs2 rs1 f3) = imm := by
  apply BitVec.eq_of_getLsbD_eq
  intro i hi
  simp only [getLsbD_immSField, getLsbD_encodeS]
  grind

theorem immBField_encodeB (imm : BitVec 13) (rs2 rs1 : Reg) (f3 : BitVec 3) (h : imm.getLsbD 0 = false) :
    immBField (encodeB imm rs2 rs1 f3) = imm := by
  apply BitVec.eq_of_getLsbD_eq
  intro i hi
  simp only [getLsbD_immBField, getLsbD_encodeB]
  grind

theorem immJField_encodeJ (imm : BitVec 21) (rd : Reg) (h : imm.getLsbD 0 = false) :
    immJField (encodeJ imm rd) = imm := by
  apply BitVec.eq_of_getLsbD_eq
  intro i hi
  simp only [getLsbD_immJField, getLsbD_encodeJ]
  grind

theorem immBField_even (w : Word) : (immBField w).getLsbD 0 = false := by rw [getLsbD_immBField]; rfl

theorem immJField_even (w : Word) : (immJField w).getLsbD 0 = false := by rw [getLsbD_immJField]; rfl

/-! ## A word from its own fields -/

theorem encodeR_fields (w : Word) :
    encodeR (funct7Field w) (rs2Field w) (rs1Field w) (funct3Field w) (rdField w) (opcodeField w) = w := by
  apply BitVec.eq_of_getLsbD_eq
  intro i hi
  simp only [getLsbD_encodeR, funct7Field, rs2Field, rs1Field, funct3Field, rdField, opcodeField,
    BitVec.getLsbD_extractLsb']
  grind

theorem encodeAmo_fields (w : Word) (h3 : funct3Field w = 0b010#3) (ho : opcodeField w = 0x2F#7) :
    encodeAmo (funct5Field w) (aqField w) (rlField w) (rs2Field w) (rs1Field w) (rdField w) = w := by
  apply BitVec.eq_of_getLsbD_eq
  intro i hi
  rw [getLsbD_encodeAmo, ← h3, ← ho]
  simp only [funct5Field, aqField, rlField, rs2Field, rs1Field, funct3Field, rdField, opcodeField,
    BitVec.getLsbD_extractLsb']
  grind

theorem encodeI_fields (w : Word) :
    encodeI (immIField w) (rs1Field w) (funct3Field w) (rdField w) (opcodeField w) = w := by
  apply BitVec.eq_of_getLsbD_eq
  intro i hi
  simp only [getLsbD_encodeI, immIField, rs1Field, funct3Field, rdField, opcodeField, BitVec.getLsbD_extractLsb']
  grind

theorem encodeS_fields (w : Word) (ho : opcodeField w = 0x23#7) :
    encodeS (immSField w) (rs2Field w) (rs1Field w) (funct3Field w) = w := by
  apply BitVec.eq_of_getLsbD_eq
  intro i hi
  rw [getLsbD_encodeS, ← ho]
  simp only [getLsbD_immSField, rs2Field, rs1Field, funct3Field, opcodeField, BitVec.getLsbD_extractLsb']
  grind

theorem encodeB_fields (w : Word) (ho : opcodeField w = 0x63#7) :
    encodeB (immBField w) (rs2Field w) (rs1Field w) (funct3Field w) = w := by
  apply BitVec.eq_of_getLsbD_eq
  intro i hi
  rw [getLsbD_encodeB, ← ho]
  simp only [getLsbD_immBField, rs2Field, rs1Field, funct3Field, opcodeField, BitVec.getLsbD_extractLsb']
  grind

theorem encodeU_fields (w : Word) : encodeU (immUField w) (rdField w) (opcodeField w) = w := by
  apply BitVec.eq_of_getLsbD_eq
  intro i hi
  simp only [getLsbD_encodeU, immUField, rdField, opcodeField, BitVec.getLsbD_extractLsb']
  grind

theorem encodeJ_fields (w : Word) (ho : opcodeField w = 0x6F#7) : encodeJ (immJField w) (rdField w) = w := by
  apply BitVec.eq_of_getLsbD_eq
  intro i hi
  rw [getLsbD_encodeJ, ← ho]
  simp only [getLsbD_immJField, rdField, opcodeField, BitVec.getLsbD_extractLsb']
  grind

/-! ## Masks as conditions on fields -/

/-- Bit `i` of a word agrees with bit `i` of another where a field they share agrees. -/
theorem bit_of_field {w p : Word} {start len : Nat} (h : w.extractLsb' start len = p.extractLsb' start len) {i : Nat}
    (h1 : start ≤ i) (h2 : i < start + len) : w.getLsbD i = p.getLsbD i := by
  have := congrArg (fun v => v.getLsbD (i - start)) h
  simpa [BitVec.getLsbD_extractLsb', show i - start < len by omega, show start + (i - start) = i by omega] using this

/-- A field of a masked word, where the mask covers the field. -/
theorem field_of_and {w mask p : Word} {start len : Nat} (h : w &&& mask = p)
    (hm : mask.extractLsb' start len = BitVec.allOnes len) : w.extractLsb' start len = p.extractLsb' start len := by
  rw [← h, BitVec.extractLsb'_and, hm, BitVec.and_allOnes]

theorem mask_opcode (w p : Word) (hp : p &&& 0x0000007f#32 = p) :
    w &&& 0x0000007f#32 = p ↔
      opcodeField w = opcodeField p := by
  refine ⟨fun h => field_of_and h (by decide),
    fun h0 => ?_⟩
  rw [← hp]
  apply BitVec.eq_of_getLsbD_eq
  intro i hi
  have b0 := @bit_of_field _ _ _ _ h0 i
  rw [BitVec.getLsbD_and, BitVec.getLsbD_and]
  interval_cases i <;> simp_all

theorem mask_funct3 (w p : Word) (hp : p &&& 0x0000707f#32 = p) :
    w &&& 0x0000707f#32 = p ↔
      opcodeField w = opcodeField p ∧ funct3Field w = funct3Field p := by
  refine ⟨fun h => ⟨field_of_and h (by decide), field_of_and h (by decide)⟩,
    fun ⟨h0, h1⟩ => ?_⟩
  rw [← hp]
  apply BitVec.eq_of_getLsbD_eq
  intro i hi
  have b0 := @bit_of_field _ _ _ _ h0 i
  have b1 := @bit_of_field _ _ _ _ h1 i
  rw [BitVec.getLsbD_and, BitVec.getLsbD_and]
  interval_cases i <;> simp_all

theorem mask_funct7 (w p : Word) (hp : p &&& 0xfe00707f#32 = p) :
    w &&& 0xfe00707f#32 = p ↔
      opcodeField w = opcodeField p ∧ funct3Field w = funct3Field p ∧ funct7Field w = funct7Field p := by
  refine ⟨fun h => ⟨field_of_and h (by decide), field_of_and h (by decide), field_of_and h (by decide)⟩,
    fun ⟨h0, h1, h2⟩ => ?_⟩
  rw [← hp]
  apply BitVec.eq_of_getLsbD_eq
  intro i hi
  have b0 := @bit_of_field _ _ _ _ h0 i
  have b1 := @bit_of_field _ _ _ _ h1 i
  have b2 := @bit_of_field _ _ _ _ h2 i
  rw [BitVec.getLsbD_and, BitVec.getLsbD_and]
  interval_cases i <;> simp_all

theorem mask_funct5 (w p : Word) (hp : p &&& 0xf800707f#32 = p) :
    w &&& 0xf800707f#32 = p ↔
      opcodeField w = opcodeField p ∧ funct3Field w = funct3Field p ∧ funct5Field w = funct5Field p := by
  refine ⟨fun h => ⟨field_of_and h (by decide), field_of_and h (by decide), field_of_and h (by decide)⟩,
    fun ⟨h0, h1, h2⟩ => ?_⟩
  rw [← hp]
  apply BitVec.eq_of_getLsbD_eq
  intro i hi
  have b0 := @bit_of_field _ _ _ _ h0 i
  have b1 := @bit_of_field _ _ _ _ h1 i
  have b2 := @bit_of_field _ _ _ _ h2 i
  rw [BitVec.getLsbD_and, BitVec.getLsbD_and]
  interval_cases i <;> simp_all

theorem mask_loadReserved (w p : Word) (hp : p &&& 0xf9f0707f#32 = p) :
    w &&& 0xf9f0707f#32 = p ↔
      opcodeField w = opcodeField p ∧ funct3Field w = funct3Field p ∧ funct5Field w = funct5Field p ∧
        rs2Field w = rs2Field p := by
  refine ⟨fun h => ⟨field_of_and h (by decide), field_of_and h (by decide), field_of_and h (by decide),
    field_of_and h (by decide)⟩,
    fun ⟨h0, h1, h2, h3⟩ => ?_⟩
  rw [← hp]
  apply BitVec.eq_of_getLsbD_eq
  intro i hi
  have b0 := @bit_of_field _ _ _ _ h0 i
  have b1 := @bit_of_field _ _ _ _ h1 i
  have b2 := @bit_of_field _ _ _ _ h2 i
  have b3 := @bit_of_field _ _ _ _ h3 i
  rw [BitVec.getLsbD_and, BitVec.getLsbD_and]
  interval_cases i <;> simp_all

theorem mask_word (w p : Word) : w &&& 0xffffffff#32 = p ↔ w = p := by
  rw [show (0xffffffff#32 : Word) = BitVec.allOnes 32 by decide, BitVec.and_allOnes]

end Sys2Proof
end

