-- ==== Sys2Proof/Laws/Traps.lean ====
section
/-! SUPPORT. CSRs, traps and the interrupt check: what the primitives answer. -/

namespace Sys2Proof.Machine

/-- A 2-bit value always fits a privilege field (10_state.md R35). -/
@[simp] theorem privilegeField_toNat (p : Priv) : privilegeField p.toNat = .ok p := by
  revert p
  decide

@[simp] theorem orFatal_ok {α : Type} (v : α) (s : State) (k : α → Result) : orFatal (.ok v) s k = k v := rfl
@[simp] theorem orFatal_error {α : Type} (r : Fatal) (s : State) (k : α → Result) :
    orFatal (.error r) s k = fatal r s := rfl

/-! ## mstatus (10_state.md R37 to R39) -/

/-- The bits mstatus shows. -/
theorem mstatus_bit (s : State) (k : Nat) :
    s.mstatus.getLsbD k =
      if k = 3 then s.statusMIE else if k = 7 then s.statusMPIE
      else if k = 11 then s.statusMPP.getLsbD 0 else if k = 12 then s.statusMPP.getLsbD 1 else false := by
  by_cases hk : k < 32
  · simp only [State.mstatus]
    interval_cases k <;> simp
  · rw [BitVec.getLsbD_of_ge _ _ (by omega)]
    grind

/-- mstatus is a function of the three flags. -/
theorem mstatus_congr {s t : State} (h1 : t.statusMIE = s.statusMIE) (h2 : t.statusMPIE = s.statusMPIE)
    (h3 : t.statusMPP = s.statusMPP) : t.mstatus = s.mstatus := by
  simp only [State.mstatus, h1, h2, h3]

/-- What a write of mstatus may change: it answers a state with other flags and nothing else. -/
theorem setMstatus_frame (s : State) (v : Word) : ∃ a b c, s.setMstatus v =
    .ok { s with statusMIE := a, statusMPIE := b, statusMPP := c } := by
  simp only [State.setMstatus, privilegeField_toNat]
  split <;> split <;> split <;> exact ⟨_, _, _, rfl⟩

/-! ## CSR numbers -/

theorem csrOf_none_iff (n : CsrNum) : csrOf n = none ↔ ¬csrReadable n := by
  simp only [csrReadable, csrWritable, List.mem_cons, List.not_mem_nil, or_false]
  constructor
  · rintro h ((rfl | rfl | rfl | rfl | rfl | rfl | rfl | rfl) | (rfl | rfl | rfl | rfl)) <;> cases h
  · intro h
    simp only [not_or] at h
    simp [csrOf, h]

/-- The number of a recognised CSR. -/
def Csr.number : Csr → CsrNum
  | .mstatus => 0x300#12 | .mie => 0x304#12 | .mtvec => 0x305#12 | .mscratch => 0x340#12 | .mepc => 0x341#12
  | .mcause => 0x342#12 | .mtval => 0x343#12 | .mip => 0x344#12 | .mvendorid => 0xF11#12 | .marchid => 0xF12#12
  | .mimpid => 0xF13#12 | .mhartid => 0xF14#12

theorem csrOf_some_iff (n : CsrNum) (c : Csr) : csrOf n = some c ↔ n = c.number := by
  constructor
  · intro h
    by_contra hn
    have hr : csrReadable n := by
      by_contra hr
      rw [(csrOf_none_iff n).2 hr] at h
      cases h
    simp only [csrReadable, csrWritable, List.mem_cons, List.not_mem_nil, or_false] at hr
    rcases hr with (rfl | rfl | rfl | rfl | rfl | rfl | rfl | rfl) | (rfl | rfl | rfl | rfl) <;> cases h <;> exact hn rfl
  · rintro rfl
    cases c <;> rfl

theorem csrRead_some {s : State} {n : CsrNum} {c : Csr} (inst : Word) (h : csrOf n = some c) :
    s.csrRead n inst = .ok (s.csrValue c) := by simp [State.csrRead, h]

/-- A CSR read answers a value exactly for the recognised numbers. -/
theorem csrRead_readable {s : State} {n : CsrNum} (inst : Word) (h : csrReadable n) :
    ∃ c, csrOf n = some c ∧ s.csrRead n inst = .ok (s.csrValue c) := by
  cases hc : csrOf n with
  | none => exact absurd h ((csrOf_none_iff n).1 hc)
  | some c => exact ⟨c, rfl, csrRead_some inst hc⟩

theorem csrRead_unreadable {s : State} {n : CsrNum} (inst : Word) (h : ¬csrReadable n) :
    s.csrRead n inst = .error (.unknownCSR n inst) := by simp [State.csrRead, (csrOf_none_iff n).2 h]

theorem csrWritable.readable {n : CsrNum} (h : csrWritable n) : csrReadable n := .inl h

theorem csrWrite_unwritable {s : State} {n : CsrNum} (v inst : Word) (h : ¬csrWritable n) :
    s.csrWrite n v inst = .error (.unknownCSR n inst) := by
  cases hc : csrOf n with
  | none => simp [State.csrWrite, hc]
  | some c =>
    rw [csrOf_some_iff] at hc
    subst hc
    cases c <;> first | rfl | exact absurd (by simp [csrWritable, Csr.number]) h

/-- A CSR write never touches registers, memory, the mode or the rest of the machine. -/
theorem csrWrite_frame {s t : State} {n : CsrNum} {v inst : Word} (h : s.csrWrite n v inst = .ok t) :
    t.cfg = s.cfg ∧ t.regs = s.regs ∧ t.pc = s.pc ∧ t.reservation = s.reservation ∧ t.mode = s.mode ∧
      t.instret = s.instret ∧ t.halt = s.halt ∧ t.stopped = s.stopped ∧ t.mem = s.mem ∧ t.io = s.io := by
  obtain ⟨a, b, c, hm⟩ := setMstatus_frame s v
  unfold State.csrWrite at h
  split at h
  · rw [hm] at h; cases h; exact ⟨rfl, rfl, rfl, rfl, rfl, rfl, rfl, rfl, rfl, rfl⟩
  all_goals first | (cases h; exact ⟨rfl, rfl, rfl, rfl, rfl, rfl, rfl, rfl, rfl, rfl⟩) | cases h

/-! ## The interrupt check (60_exceptions.md R320, R321) -/

/-- `mip & mie`, without the short cut. -/
theorem pending_eq (s : State) : s.pending = s.mip &&& s.mie := by
  unfold State.pending
  split
  · next h => simp [h]
  · rfl

/-- Trap entry never fails. -/
theorem enterTrap_ok (s : State) (cause faultingPc : Word) : ∃ t, s.enterTrap cause faultingPc = .ok t := by
  simp only [State.enterTrap, privilegeField_toNat]
  exact ⟨_, rfl⟩

/-- Every answer of the interrupt check. -/
theorem interruptCheck_cases (s : State) :
    (s.interruptCheck = .next s ∧ (s.statusMIE = false ∨ s.mip &&& s.mie = 0#32)) ∨
    (∃ t, s.enterTrap timerCause s.pc = .ok t ∧ s.interruptCheck = .next t ∧ s.statusMIE = true ∧
      (s.mip &&& s.mie).getLsbD 7 = true) ∨
    (s.interruptCheck = fatal (.unmodelledInterrupt (s.mip &&& s.mie)) s ∧ s.statusMIE = true ∧
      s.mip &&& s.mie ≠ 0#32 ∧ (s.mip &&& s.mie).getLsbD 7 = false) := by
  obtain ⟨t, ht⟩ := enterTrap_ok s timerCause s.pc
  unfold State.interruptCheck
  rw [pending_eq, ht]
  by_cases h1 : s.statusMIE = true
  · by_cases h2 : s.mip &&& s.mie = 0#32
    · left; simp [h2]
    · by_cases h3 : (s.mip &&& s.mie).getLsbD 7 = true
      · right; left
        exact ⟨t, rfl, by simp only [h1, h3, Bool.true_and, bne_iff_ne, ne_eq, h2, not_false_eq_true, if_true,
          orFatal_ok], h1, h3⟩
      · right; right
        refine ⟨?_, h1, h2, by simpa using h3⟩
        simp only [h1, h3, Bool.true_and, bne_iff_ne, ne_eq, h2, not_false_eq_true, if_true, if_false,
          Bool.false_eq_true]
  · left; simp [h1]

end Sys2Proof.Machine
end

