-- ==== Sys2Proof/Laws/Step.lean ====
section
/-! SUPPORT. What a step can do: the fetch, the engine's answer, the retirement, each said once. -/

namespace Sys2Proof.Machine

/-! ## Fetch -/

/-- A fetch changes nothing but the device log. -/
theorem fetch_ok {s u : State} {w : Word} (h : fetch s = .ok w u) :
    ∃ bs : List Byte, bs.length = 4 ∧ w = leWord bs ∧ u = s.addIo (deviceTxs s .read s.pc bs) ∧ Mapped s s.pc 4 ∧
      ∀ k, k < 4 → regionOf s.cfg (byteAddr s.pc k) = some .ram → bs[k]? = some (s.ramByte (byteAddr s.pc k)) := by
  rcases mapped_or_firstUnmapped s s.pc 4 with hm | ⟨k, hk, hu⟩
  · obtain ⟨bs, hlen, hram, _, hr⟩ := memRead_ok 4 (by omega) s.pc s hm
    unfold fetch at h
    rw [hr] at h
    cases h
    exact ⟨bs, hlen, rfl, rfl, hm, hram⟩
  · obtain ⟨bs, _, hr⟩ := memRead_unmapped 4 k s.pc s hk hu
    unfold fetch at h
    rw [hr] at h
    cases h

theorem Fetches.frame {s u : State} {i : Instr} (h : Fetches s i u) : ∃ txs, u = s.addIo txs := by
  obtain ⟨w, hf, _⟩ := h
  obtain ⟨bs, _, _, hu, _⟩ := fetch_ok hf
  exact ⟨_, hu⟩

/-! ## The step -/

theorem runningStep_fetched {s u : State} {w : Word} (h : fetch s = .ok w u) :
    runningStep s = thenRetire (executeWord w u) := by
  unfold runningStep
  rw [h]
  simp only [Access.finish]
  cases executeWord w u <;> rfl

theorem step_running {s : State} (h : Running s) : step s = runningStep s := by
  simp [step, stepSequence, h.config, h.halt, h.stopped]

/-- A running core whose word decodes: the step is the engine's answer, then the retirement. -/
theorem step_fetches {s u : State} {i : Instr} (hr : Running s) (h : Fetches s i u) :
    step s = thenRetire (exec i u) := by
  obtain ⟨w, hf, hd⟩ := h
  rw [step_running hr, runningStep_fetched hf]
  simp [executeWord, hd]

theorem step_fetch_unmapped {s u : State} {a : Word} (hr : Running s) (h : fetch s = .unmapped a u) :
    step s = fatal (.unmappedAddress a) u := by
  rw [step_running hr]
  unfold runningStep
  rw [h]
  rfl

theorem step_undecoded {s u : State} {w : Word} {e : DecodeReject} (hr : Running s) (h : fetch s = .ok w u)
    (hd : decode w = .error e) : step s = fatal (.unimplementedInstruction w) u := by
  rw [step_running hr, runningStep_fetched h]
  simp [executeWord, hd, fatal, thenRetire]

/-- A step that does not refuse and does not meet a halted core starts from a running core. -/
theorem running_of_step {s : State} (h : (∃ t, step s = .next t) ∨ ∃ r t, step s = .fault (.fatal r t)) :
    Running s := by
  unfold step stepSequence at h
  by_cases hc : validConfig s.cfg = true
  · rw [if_pos hc] at h
    cases hh : s.halt with
    | some r => simp [hh] at h
    | none =>
      cases hs : s.stopped with
      | true => simp [hh, hs] at h
      | false => exact ⟨hc, hh, hs⟩
  · simp [hc] at h

/-- Every way a step of a running core goes: an unmapped fetch, an undecoded word, or an instruction. -/
theorem step_cases {s : State} (hr : Running s) :
    (∃ k bs, k < 4 ∧ FirstUnmapped s s.pc k ∧ bs.length = k ∧
      step s = fatal (.unmappedAddress (s.pc + BitVec.ofNat 32 k)) (s.addIo (deviceTxs s .read s.pc bs))) ∨
    (∃ w u, fetch s = .ok w u ∧ decode w = .error (.unimplemented w) ∧
      step s = fatal (.unimplementedInstruction w) u) ∨
    ∃ w u i, fetch s = .ok w u ∧ decode w = .ok i ∧ step s = thenRetire (exec i u) := by
  rcases mapped_or_firstUnmapped s s.pc 4 with hm | ⟨k, hk, hu⟩
  · obtain ⟨bs, _, _, _, hf⟩ := memRead_ok 4 (by omega) s.pc s hm
    have hf : fetch s = .ok (leWord bs) (s.addIo (deviceTxs s .read s.pc bs)) := hf
    right
    cases hd : decode (leWord bs) with
    | ok i => exact .inr ⟨_, _, i, hf, hd, step_fetches hr ⟨_, hf, hd⟩⟩
    | error e =>
      refine .inl ⟨_, _, hf, ?_, step_undecoded hr hf hd⟩
      unfold decode at hd ⊢
      split at hd
      · cases hd
      · rfl
  · obtain ⟨bs, hlen, hf⟩ := memRead_unmapped 4 k s.pc s hk hu
    exact .inl ⟨k, bs, hk, hu, hlen, step_fetch_unmapped hr hf⟩

/-- What the boot collaborator's write leaves. -/
theorem loadRam_eq : ∀ (bs : List Byte) (a : Word) (s : State),
    s.loadRam a bs = s.putMem (storeMem s.cfg a bs s.mem)
  | [], _, _ => rfl
  | b :: bs, a, s => by
    rw [State.loadRam, loadRam_eq bs, storeMem]
    split <;> rfl

/-! ## Retirement -/

/-- Step 5 changes no register an instruction can read. -/
theorem x_of_forced {s t : State} (h : t.regs = s.regs.set 0 0#32) (r : Reg) : t.x r = s.x r := by
  simp only [State.x, h]
  split
  · rfl
  · next h0 => exact Vector.getElem_set_ne _ _ (by intro hh; apply h0; apply BitVec.eq_of_toNat_eq; simp [← hh])

theorem retire_next {v t : State} (h : v.retired.interruptCheck = .next t) : retire v = .next t.hostStop := by
  simp [retire, h]

theorem retire_fault {v : State} {f : Fault} (h : v.retired.interruptCheck = .fault f) : retire v = .fault f := by
  simp [retire, h]

/-- Every answer of the retirement: no trap, the timer trap, or the fatal check. -/
theorem retire_cases (v : State) :
    (retire v = .next v.retired.hostStop) ∨
    (∃ t, v.retired.enterTrap timerCause v.retired.pc = .ok t ∧ retire v = .next t.hostStop) ∨
    (retire v = fatal (.unmodelledInterrupt (v.retired.mip &&& v.mie)) v.retired) := by
  rcases interruptCheck_cases v.retired with ⟨h, _⟩ | ⟨t, ht, h, _⟩ | ⟨h, _⟩
  · exact .inl (retire_next h)
  · exact .inr (.inl ⟨t, ht, retire_next h⟩)
  · exact .inr (.inr (retire_fault h))

/-- What the retirement of an instruction leaves and changes when the core goes on. -/
theorem retire_frame {v t : State} (h : retire v = .next t) :
    t.cfg = v.cfg ∧ t.regs = v.regs.set 0 0#32 ∧ t.halt = v.halt ∧ t.mem = v.mem ∧ t.io = v.io ∧
      t.instret = v.instret + 1 ∧ t.reservation = v.reservation ∧ t.mscratch = v.mscratch ∧
      t.stopped = (v.stopped || v.cfg.maxInsns == some (v.instret + 1)) ∧
      ((t.mode = v.mode ∧ t.statusMPP = v.statusMPP ∧ t.pc = v.pc ∧ t.mepc = v.mepc ∧ t.mcause = v.mcause) ∨
        (t.mode = 3#2 ∧ t.statusMPP = v.mode ∧ t.pc = v.mtvec ∧ t.mepc = v.pc ∧ t.mcause = 0x80000007#32 ∧
          t.statusMIE = false ∧ t.mtvec = v.mtvec)) := by
  rcases retire_cases v with h' | ⟨u, hu, h'⟩ | h' <;> rw [h'] at h <;> cases h
  · exact ⟨rfl, rfl, rfl, rfl, rfl, rfl, rfl, rfl, rfl, .inl ⟨rfl, rfl, rfl, rfl, rfl⟩⟩
  · simp only [State.enterTrap, privilegeField_toNat] at hu
    cases hu
    exact ⟨rfl, rfl, rfl, rfl, rfl, rfl, rfl, rfl, rfl, .inr ⟨rfl, rfl, rfl, rfl, rfl, rfl, rfl⟩⟩

/-- A step that goes on: what was fetched, what the engine answered, and how it retired. -/
theorem step_next {s t : State} (h : step s = .next t) :
    ∃ w u i v, Running s ∧ fetch s = .ok w u ∧ decode w = .ok i ∧ exec i u = .next v ∧ retire v = .next t := by
  have hr := running_of_step (.inl ⟨t, h⟩)
  rcases step_cases hr with ⟨k, bs, _, _, _, hs⟩ | ⟨w, u, _, _, hs⟩ | ⟨w, u, i, hf, hd, hs⟩
  · rw [hs] at h; cases h
  · rw [hs] at h; cases h
  · rw [hs] at h
    cases he : exec i u with
    | next v => exact ⟨w, u, i, v, hr, hf, hd, he, by simpa [he, thenRetire] using h⟩
    | fault f => simp [he, thenRetire] at h
    | refused r => simp [he, thenRetire] at h

/-- Every way a step is fatal: an unmapped fetch, an undecoded word, the instruction, or the interrupt check. -/
theorem step_fatal {s t : State} {r : Fatal} (h : step s = .fault (.fatal r t)) :
    Running s ∧
      ((∃ k bs, k < 4 ∧ FirstUnmapped s s.pc k ∧ bs.length = k ∧ r = .unmappedAddress (s.pc + BitVec.ofNat 32 k) ∧
          t = (s.addIo (deviceTxs s .read s.pc bs)).halted r) ∨
        (∃ w u, fetch s = .ok w u ∧ decode w = .error (.unimplemented w) ∧ r = .unimplementedInstruction w ∧
          t = u.halted r) ∨
        (∃ w u i, fetch s = .ok w u ∧ decode w = .ok i ∧ exec i u = .fault (.fatal r t)) ∨
        (∃ w u i v, fetch s = .ok w u ∧ decode w = .ok i ∧ exec i u = .next v ∧
          r = .unmodelledInterrupt (v.retired.mip &&& v.mie) ∧ t = v.retired.halted r)) := by
  have hr := running_of_step (.inr ⟨r, t, h⟩)
  refine ⟨hr, ?_⟩
  rcases step_cases hr with ⟨k, bs, h1, h2, h3, hs⟩ | ⟨w, u, hf, hd, hs⟩ | ⟨w, u, i, hf, hd, hs⟩
  · rw [hs] at h; cases h; exact .inl ⟨k, bs, h1, h2, h3, rfl, rfl⟩
  · rw [hs] at h; cases h; exact .inr (.inl ⟨w, u, hf, hd, rfl, rfl⟩)
  · rw [hs] at h
    cases he : exec i u with
    | next v =>
      rw [he, thenRetire] at h
      rcases retire_cases v with h' | ⟨_, _, h'⟩ | h' <;> rw [h'] at h <;> cases h
      exact .inr (.inr (.inr ⟨w, u, i, v, hf, hd, he, rfl, rfl⟩))
    | fault f => rw [he, thenRetire] at h; cases h; exact .inr (.inr (.inl ⟨w, u, i, hf, hd, he⟩))
    | refused r => rw [he, thenRetire] at h; cases h

end Sys2Proof.Machine
end

