-- ==== Sys2Proof/Laws/Exec.lean ====
section
/-! SUPPORT. Everything the execution engine can answer, for every instruction at once: a next state with its frame, or a
fatal condition with its reason and what it leaves. Claims about all instructions cite `exec_answer`. -/

namespace Sys2Proof.Machine

/-- What memory traffic of an instruction can do: RAM stays canonical and inside its region, the device log grows by
transactions inside their windows. -/
structure Traffic (i : Instr) (s : State) (m : Memory) (txs : List DeviceTx) : Prop where
  wf    : Memory.wf s.cfg.ramFill s.mem = true → Memory.wf s.cfg.ramFill m = true
  ram   : (∀ c ∈ s.mem, regionOf s.cfg c.1 = some .ram) → ∀ c ∈ m, regionOf s.cfg c.1 = some .ram
  io    : ∀ x ∈ txs, txOk s.cfg s.instret x
  mem   : isStoring i = false → m = s.mem
  quiet : isStoring i = false → isLoading i = false → txs = []

/-- The frame of an instruction that completes. -/
structure ExecNext (i : Instr) (s t : State) : Prop where
  run         : SameRun s t
  regs        : ∀ r, destination i ≠ some r → t.x r = s.x r
  traffic     : ∃ txs, t.io = txs ++ s.io ∧ Traffic i s t.mem txs
  reservation : isReservationInstr i = false → t.reservation = s.reservation
  mode        : i ≠ .mret → t.mode = s.mode
  csrs        : isCsrInstr i = false → i ≠ .mret → SameCsrs s t
  mscratch    : csrNamed i ≠ some 0x340#12 → t.mscratch = s.mscratch
  mcause      : csrNamed i ≠ some 0x342#12 → t.mcause = s.mcause

/-- Why an instruction can be fatal. -/
def ExecReason (i : Instr) (s : State) (r : Fatal) : Prop :=
  r = .unimplementedInstruction (encode i) ∨ (∃ a, r = .unmappedAddress a ∧ regionOf s.cfg a.toNat = none) ∨
    ∃ n, csrNamed i = some n ∧ r = .unknownCSR n (encode i)

/-- The RAM a fatal condition leaves: as before, or, where a store of several bytes halts at its byte `k`, with the bytes
below that one written. -/
def FatalRam (i : Instr) (s : State) (m : Memory) (r : Fatal) : Prop :=
  match wideStore s i with
  | none => m = s.mem
  | some w => ∃ k, k < w.bytes ∧ FirstUnmapped s w.address k ∧ r = .unmappedAddress (w.address + BitVec.ofNat 32 k) ∧
      m = storeMem s.cfg w.address ((leBytes w.bytes w.value).take k) s.mem

theorem wideStore_bytes_le {i : Instr} {s : State} {w : WideStore} (h : wideStore s i = some w) : w.bytes ≤ 4 := by
  cases i <;> cases h <;> simp

/-- The two kinds of answer: an instruction never refuses. -/
inductive ExecAnswer (i : Instr) (s : State) : Result → Prop where
  | next (t : State) (frame : ExecNext i s t) : ExecAnswer i s (.next t)
  | fatal (r : Fatal) (m : Memory) (txs : List DeviceTx) (traffic : Traffic i s m txs)
      (ram : FatalRam i s m r)
      (reason : ExecReason i s r) : ExecAnswer i s (fatal r ((s.putMem m).addIo txs))

/-! ## Traffic -/

theorem Traffic.none (i : Instr) (s : State) : Traffic i s s.mem [] :=
  ⟨id, id, by simp, fun _ => rfl, fun _ _ => rfl⟩

theorem Traffic.reads {i : Instr} (s : State) (hl : isLoading i = true) (a : Word) (bs : List Byte) :
    Traffic i s s.mem (deviceTxs s .read a bs) :=
  ⟨id, id, deviceTxs_ok _ bs a, fun _ => rfl, fun _ h => by simp [hl] at h⟩

theorem Traffic.writes {i : Instr} (s : State) (hs : isStoring i = true) (a : Word) (bs : List Byte) :
    Traffic i s (storeMem s.cfg a bs s.mem) (deviceTxs s .write a bs) :=
  ⟨storeMem_wf s.cfg bs a s.mem, storeMem_ram s.cfg bs a s.mem, deviceTxs_ok _ bs a, fun h => by simp [hs] at h,
    fun h => by simp [hs] at h⟩

/-! ## Answers of the shared endings -/

section
variable {i : Instr} {s : State}

/-- An instruction that changes registers, `pc`, the reservation, RAM and the device log alone. -/
theorem execNext_of_sameCsrs {t : State} (hrun : SameRun s t) (hcsr : SameCsrs s t)
    (hregs : ∀ r, destination i ≠ some r → t.x r = s.x r)
    (htraffic : ∃ txs, t.io = txs ++ s.io ∧ Traffic i s t.mem txs)
    (hres : isReservationInstr i = false → t.reservation = s.reservation) : ExecNext i s t :=
  ⟨hrun, hregs, htraffic, hres, fun _ => hcsr.mode, fun _ _ => hcsr, fun _ => hcsr.mscratch, fun _ => hcsr.mcause⟩

theorem answer_writeBack {rd : Reg} (v : Word) (hd : destination i = some rd) : ExecAnswer i s (s.writeBack rd v) := by
  refine .next _ (execNext_of_sameCsrs ?_ ?_ ?_ ⟨[], by simp, by simpa using Traffic.none i s⟩ ?_)
  · constructor <;> simp
  · constructor <;> simp
  · intro r hr
    exact x_setX_other s rd r v (by rw [hd] at hr; simpa [eq_comm] using hr)
  · simp

theorem answer_pc (p : Word) : ExecAnswer i s (.next { s with pc := p }) :=
  .next _ (execNext_of_sameCsrs ⟨rfl, rfl, rfl, rfl⟩ ⟨rfl, rfl, rfl, rfl, rfl, rfl, rfl, rfl, rfl, rfl, rfl⟩
    (fun _ _ => rfl) ⟨[], rfl, Traffic.none i s⟩ fun _ => rfl)

theorem answer_jump {rd : Reg} (target v : Word) (hd : destination i = some rd) :
    ExecAnswer i s (.next ((s.redirect target).setX rd v)) := by
  refine .next _ (execNext_of_sameCsrs ?_ ?_ ?_ ⟨[], by simp, by simpa using Traffic.none i s⟩ ?_)
  · constructor <;> simp
  · constructor <;> simp
  · intro r hr
    exact x_setX_other (s.redirect target) rd r v (by rw [hd] at hr; simpa [eq_comm] using hr)
  · simp

theorem answer_branch (c : Bool) (imm : BitVec 13) : ExecAnswer i s (branch c imm s) := by
  rw [branch_eq]
  exact answer_pc _

theorem FatalRam.unchanged {r : Fatal} (hw : wideStore s i = none) : FatalRam i s s.mem r := by simp [FatalRam, hw]

/-- A fatal condition before any effect. -/
theorem answer_fatal {r : Fatal} (hw : wideStore s i = none) (hr : ExecReason i s r) : ExecAnswer i s (fatal r s) :=
  .fatal r s.mem [] (Traffic.none i s) (.unchanged hw) hr

theorem answer_finishDiv {rd : Reg} (corner : Bool) (v : Word) (hd : destination i = some rd)
    (hw : wideStore s i = none) : ExecAnswer i s (finishDiv (encode i) corner rd v s) := by
  unfold finishDiv
  split
  · exact answer_fatal hw (.inl rfl)
  · exact answer_writeBack v hd

theorem FirstUnmapped.reason {a : Word} {k : Nat} (h : FirstUnmapped s a k) :
    ExecReason i s (.unmappedAddress (a + BitVec.ofNat 32 k)) := .inr (.inl ⟨_, rfl, h.2⟩)

theorem answer_load {n : Nat} (hn : n ≤ 4) (extend : Word → Word) {rd : Reg} (rs1 : Reg) (imm : BitVec 12)
    (hd : destination i = some rd) (hl : isLoading i = true) (hw : wideStore s i = none) :
    ExecAnswer i s (load n extend rd rs1 imm s) := by
  rcases mapped_or_firstUnmapped s (s.baseDisp rs1 imm) n with hm | ⟨k, hk, hu⟩
  · obtain ⟨bs, _, _, _, hx⟩ := load_mapped hn extend rd rs1 imm hm
    rw [hx]
    refine .next _ (execNext_of_sameCsrs ?_ ?_ ?_
      ⟨deviceTxs s .read (s.baseDisp rs1 imm) bs, by simp, by simpa using Traffic.reads s hl _ bs⟩ ?_)
    · constructor <;> simp
    · constructor <;> simp
    · intro r hr
      exact x_setX_other _ rd r _ (by rw [hd] at hr; simpa [eq_comm] using hr)
    · simp
  · obtain ⟨bs, _, hx⟩ := load_unmapped hk extend rd rs1 imm hu
    rw [hx]
    exact .fatal _ s.mem _ (Traffic.reads s hl _ bs) (.unchanged hw) hu.reason

theorem answer_store {n : Nat} (rs1 rs2 : Reg) (imm : BitVec 12) (hs : isStoring i = true)
    (hb : n = 1 ∧ wideStore s i = none ∨ wideStore s i = some ⟨s.baseDisp rs1 imm, n, s.x rs2⟩) :
    ExecAnswer i s (store n rs1 rs2 imm s) := by
  rcases mapped_or_firstUnmapped s (s.baseDisp rs1 imm) n with hm | ⟨k, hk, hu⟩
  · rw [store_mapped rs1 rs2 imm hm]
    refine .next _ (execNext_of_sameCsrs ?_ ?_ (fun _ _ => rfl)
      ⟨deviceTxs s .write (s.baseDisp rs1 imm) (leBytes n (s.x rs2)), by simp, Traffic.writes s hs _ _⟩ ?_)
    · constructor <;> simp
    · constructor <;> simp
    · simp
  · rw [store_unmapped hk rs1 rs2 imm hu]
    refine .fatal _ _ _ (Traffic.writes s hs _ _) ?_ hu.reason
    rcases hb with ⟨rfl, hb⟩ | hb
    · obtain rfl : k = 0 := by omega
      exact .unchanged hb
    · simpa only [FatalRam, hb] using ⟨k, hk, hu, rfl, rfl⟩

theorem answer_amo (f : Word → Word → Word) {rd : Reg} (rs1 rs2 : Reg) (hd : destination i = some rd)
    (hs : isStoring i = true) (hl : isLoading i = true) (hw : wideStore s i = none) :
    ExecAnswer i s (amo (encode i) f rd rs1 rs2 s) := by
  by_cases ha : rd ≠ 0#5 ∧ (rd = rs1 ∨ rd = rs2) ∧ s.cfg.amoAlias = .fault
  · rw [amo, if_pos ha]
    exact answer_fatal hw (.inl rfl)
  · rcases mapped_or_firstUnmapped s (s.x rs1) 4 with hm | ⟨k, hk, hu⟩
    · obtain ⟨bs, _, _, _, hx⟩ := amo_mapped (inst := encode i) (f := f) ha hm
      rw [hx]
      refine .next _ (execNext_of_sameCsrs ?_ ?_ ?_
        ⟨deviceTxs s .write (s.x rs1) (leBytes 4 (f (leWord bs) (s.x rs2))) ++ deviceTxs s .read (s.x rs1) bs,
          by simp, ?_⟩ ?_)
      · constructor <;> simp
      · constructor <;> simp
      · intro r hr
        rw [x_advance, x_setX_other _ rd r _ (by rw [hd] at hr; simpa [eq_comm] using hr), x_addIo, x_putMem, x_addIo]
      · have h1 := Traffic.writes s hs (s.x rs1) (leBytes 4 (f (leWord bs) (s.x rs2)))
        have h2 := Traffic.reads s hl (s.x rs1) bs
        refine ⟨by simpa using h1.wf, by simpa using h1.ram, fun x hx => ?_, by simp [hs], by simp [hs]⟩
        rcases List.mem_append.1 hx with h | h
        · exact h1.io x h
        · exact h2.io x h
      · simp
    · obtain ⟨bs, _, hx⟩ := amo_unmapped (inst := encode i) (f := f) ha hk hu
      rw [hx]
      exact .fatal _ s.mem _ (Traffic.reads s hl _ bs) (.unchanged hw) hu.reason

theorem answer_csrAccess {csr : CsrNum} {rd : Reg} (reads writes : Bool) (new : Word → Word)
    (hd : destination i = some rd) (hn : csrNamed i = some csr) (hc : isCsrInstr i = true)
    (hwide : wideStore s i = none) : ExecAnswer i s (csrAccess (encode i) csr rd reads writes new s) := by
  unfold csrAccess
  have hread : ∀ e, (if reads then s.csrRead csr (encode i) else .ok 0#32) = .error e →
      e = .unknownCSR csr (encode i) := by
    intro e he
    split at he
    · unfold State.csrRead at he
      split at he
      · cases he
      · cases he; rfl
    · cases he
  cases hr : (if reads then s.csrRead csr (encode i) else .ok 0#32 : Except Fatal Word) with
  | error e =>
    obtain rfl := hread e hr
    exact answer_fatal hwide (.inr (.inr ⟨csr, hn, rfl⟩))
  | ok old =>
    rw [orFatal_ok]
    cases hw : (if writes then s.csrWrite csr (new old) (encode i) else .ok s : Except Fatal State) with
    | error e =>
      have he : e = .unknownCSR csr (encode i) := by
        split at hw
        · by_cases hx : csrWritable csr
          · exfalso
            simp only [csrWritable, List.mem_cons, List.not_mem_nil, or_false] at hx
            rcases hx with rfl | rfl | rfl | rfl | rfl | rfl | rfl | rfl
            · obtain ⟨a, b, c, hm⟩ := setMstatus_frame s (new old)
              rw [show s.csrWrite 0x300#12 (new old) (encode i) = s.setMstatus (new old) from rfl, hm] at hw
              cases hw
            all_goals cases hw
          · rw [csrWrite_unwritable _ _ hx] at hw
            cases hw
            rfl
        · cases hw
      subst he
      exact answer_fatal hwide (.inr (.inr ⟨csr, hn, rfl⟩))
    | ok t =>
      rw [orFatal_ok]
      have key : t.cfg = s.cfg ∧ t.regs = s.regs ∧ t.pc = s.pc ∧ t.reservation = s.reservation ∧ t.mode = s.mode ∧
          t.instret = s.instret ∧ t.halt = s.halt ∧ t.stopped = s.stopped ∧ t.mem = s.mem ∧ t.io = s.io := by
        split at hw
        · exact csrWrite_frame hw
        · cases hw
          exact ⟨rfl, rfl, rfl, rfl, rfl, rfl, rfl, rfl, rfl, rfl⟩
      have key2 : (csr ≠ 0x340#12 → t.mscratch = s.mscratch) ∧ (csr ≠ 0x342#12 → t.mcause = s.mcause) := by
        split at hw
        · cases ho : csrOf csr with
          | none => simp [State.csrWrite, ho] at hw
          | some c =>
            obtain ⟨a, b, d, hm⟩ := setMstatus_frame s (new old)
            rw [csrOf_some_iff] at ho
            subst ho
            cases c
            case mstatus =>
              rw [show s.csrWrite Csr.mstatus.number (new old) (encode i) = s.setMstatus (new old) from rfl, hm] at hw
              cases hw
              exact ⟨fun _ => rfl, fun _ => rfl⟩
            case mscratch => cases hw; exact ⟨fun h => absurd rfl h, fun _ => rfl⟩
            case mcause => cases hw; exact ⟨fun _ => rfl, fun h => absurd rfl h⟩
            all_goals cases hw
            all_goals exact ⟨fun _ => rfl, fun _ => rfl⟩
        · cases hw
          exact ⟨fun _ => rfl, fun _ => rfl⟩
      obtain ⟨hcfg, hregs, hpc, hres, hmode, hin, hhalt, hstop, hmem, hio⟩ := key
      have hx : ∀ r, t.x r = s.x r := fun r => by simp [State.x, hregs]
      refine .next _ ⟨⟨by simpa, by simpa, by simpa, by simpa⟩, ?_, ⟨[], by simpa, ?_⟩, fun _ => by simpa,
        fun _ => by simpa, fun h => by simp [hc] at h, fun h => ?_, fun h => ?_⟩
      · intro r hr
        rw [x_advance, x_setX_other t rd r old (by rw [hd] at hr; simpa [eq_comm] using hr), hx]
      · simpa [hmem] using Traffic.none i s
      · rw [advance_mscratch, setX_mscratch]
        exact key2.1 (by simpa [hn] using h)
      · rw [advance_mcause, setX_mcause]
        exact key2.2 (by simpa [hn] using h)

theorem answer_mret : ExecAnswer .mret s (execMret s) := by
  unfold execMret State.returnFromTrap
  simp only [privilegeField_toNat]
  refine .next _ ⟨⟨rfl, rfl, rfl, rfl⟩, fun _ _ => rfl, ⟨[], rfl, Traffic.none _ s⟩, fun _ => rfl,
    fun h => absurd rfl h, fun _ h => absurd rfl h, fun _ => rfl, fun _ => rfl⟩

theorem answer_lrW (rd rs1 : Reg) (aq rl : Bool) : ExecAnswer (.lrW rd rs1 aq rl) s (execLrW rd rs1 s) := by
  rcases mapped_or_firstUnmapped s (s.x rs1) 4 with hm | ⟨k, hk, hu⟩
  · obtain ⟨bs, _, _, _, hx⟩ := execLrW_mapped rd rs1 hm
    rw [hx]
    refine .next _ (execNext_of_sameCsrs ?_ ?_ ?_ 
      ⟨deviceTxs s .read (s.x rs1) bs, by simp, by simpa using Traffic.reads s rfl _ bs⟩ ?_)
    · constructor <;> simp
    · constructor <;> simp
    · intro r hr
      exact x_setX_other _ rd r _ (by simpa [destination, eq_comm] using hr)
    · intro h; cases h
  · obtain ⟨bs, _, hx⟩ := execLrW_unmapped rd rs1 hk hu
    rw [hx]
    exact .fatal _ s.mem _ (Traffic.reads s rfl _ bs) (.unchanged rfl) hu.reason

theorem answer_scW (rd rs1 rs2 : Reg) (aq rl : Bool) :
    ExecAnswer (.scW rd rs1 rs2 aq rl) s (execScW rd rs1 rs2 s) := by
  by_cases hr : s.reservation = some (s.x rs1)
  · rcases mapped_or_firstUnmapped s (s.x rs1) 4 with hm | ⟨k, hk, hu⟩
    · rw [execScW_mapped rd rs1 rs2 hr hm]
      generalize leBytes 4 (s.x rs2) = bs
      refine .next _ (execNext_of_sameCsrs ?_ ?_ ?_ 
        ⟨deviceTxs s .write (s.x rs1) bs, by simp, by simpa using Traffic.writes s rfl _ bs⟩ ?_)
      · constructor <;> simp
      · constructor <;> simp
      · intro r hr
        exact x_setX_other _ rd r _ (by simpa [destination, eq_comm] using hr)
      · intro h; cases h
    · rw [execScW_unmapped rd rs1 rs2 hr hk hu]
      exact .fatal _ _ _ (Traffic.writes s rfl _ _) ⟨k, hk, hu, rfl, rfl⟩ hu.reason
  · rw [execScW_fails rd rs1 rs2 hr]
    refine .next _ (execNext_of_sameCsrs ?_ ?_ ?_ ⟨[], by simp, by simpa using Traffic.none _ s⟩ ?_)
    · constructor <;> simp
    · constructor <;> simp
    · intro r hr
      exact x_setX_other _ rd r _ (by simpa [destination, eq_comm] using hr)
    · intro h; cases h

end

/-- Everything the execution engine can answer. -/
theorem exec_answer (i : Instr) (s : State) : ExecAnswer i s (exec i s) := by
  cases i with
  | lb | lh | lw | lbu | lhu => exact answer_load (by omega) _ _ _ rfl rfl rfl
  | sb => exact answer_store _ _ _ rfl (.inl ⟨rfl, rfl⟩)
  | sh | sw => exact answer_store _ _ _ rfl (.inr rfl)
  | addi | sltiu | xori | ori | andi | slli | srli | srai => exact answer_writeBack _ rfl
  | add | sub | sll | slt | sltu | xor | srl | sra | or | and => exact answer_writeBack _ rfl
  | mul | mulh | mulhu | lui | auipc => exact answer_writeBack _ rfl
  | div | divu | rem | remu => exact answer_finishDiv _ _ rfl rfl
  | lrW => exact answer_lrW ..
  | scW => exact answer_scW ..
  | amoaddW | amoorW => exact answer_amo _ _ _ rfl rfl rfl rfl
  | beq | bne | blt | bge | bltu | bgeu => exact answer_branch _ _
  | jal | jalr => exact answer_jump _ _ rfl
  | csrrw | csrrs | csrrc | csrrwi | csrrsi | csrrci => exact answer_csrAccess _ _ _ rfl rfl rfl rfl
  | ecall | ebreak | fence => exact answer_pc _
  | mret => exact answer_mret

theorem exec_next {i : Instr} {s t : State} (h : exec i s = .next t) : ExecNext i s t := by
  have ha := exec_answer i s
  rw [h] at ha
  cases ha with
  | next _ hf => exact hf

theorem exec_fatal {i : Instr} {s t : State} {r : Fatal} (h : exec i s = .fault (.fatal r t)) :
    ∃ m txs, t = ((s.putMem m).addIo txs).halted r ∧ Traffic i s m txs ∧
      FatalRam i s m r ∧ ExecReason i s r := by
  have ha := exec_answer i s
  generalize exec i s = x at h ha
  cases ha with
  | next _ _ => cases h
  | fatal r' m txs ht hp hr => cases h; exact ⟨m, txs, rfl, ht, hp, hr⟩

end Sys2Proof.Machine
end

