-- ==== Sys2Proof/Laws/Neutral.lean ====
section
/-! SUPPORT. State updates an instruction neither sees nor disturbs: running it commutes with them. Claims that a piece of
state is private to some instructions cite `exec_neutral`. -/

namespace Sys2Proof.Machine

/-- An update that leaves configuration, registers, `pc`, count, RAM and device log, and commutes with updates of them. -/
structure Neutral (f : State → State) : Prop where
  cfg     : ∀ s, (f s).cfg = s.cfg
  regs    : ∀ s, (f s).regs = s.regs
  pc      : ∀ s, (f s).pc = s.pc
  instret : ∀ s, (f s).instret = s.instret
  mem     : ∀ s, (f s).mem = s.mem
  io      : ∀ s, (f s).io = s.io
  setRegs : ∀ s v, { f s with regs := v } = f { s with regs := v }
  setPc   : ∀ s v, { f s with pc := v } = f { s with pc := v }
  setMem  : ∀ s v, { f s with mem := v } = f { s with mem := v }
  setIo   : ∀ s v, { f s with io := v } = f { s with io := v }
  setHalt : ∀ s v, { f s with halt := v } = f { s with halt := v }

/-- The same update inside the answer of a memory operation. -/
def Access.mapState {α : Type} (f : State → State) : Access α → Access α
  | .ok v s => .ok v (f s)
  | .unmapped a s => .unmapped a (f s)

namespace Neutral
variable {f : State → State}

theorem x (h : Neutral f) (s : State) (r : Reg) : (f s).x r = s.x r := by simp [State.x, h.regs]

theorem setX (h : Neutral f) (s : State) (r : Reg) (v : Word) : (f s).setX r v = f (s.setX r v) := by
  unfold State.setX
  split
  · rfl
  · rw [h.regs, h.setRegs]

theorem advance (h : Neutral f) (s : State) : (f s).advance = f s.advance := by
  rw [State.advance, h.pc, h.setPc]; rfl

theorem redirect (h : Neutral f) (s : State) (t : Word) : (f s).redirect t = f (s.redirect t) := h.setPc s t

theorem baseDisp (h : Neutral f) (s : State) (r : Reg) (imm : BitVec 12) : (f s).baseDisp r imm = s.baseDisp r imm := by
  simp [State.baseDisp, h.x]

theorem writeBack (h : Neutral f) (s : State) (r : Reg) (v : Word) :
    (f s).writeBack r v = mapResult f (s.writeBack r v) := by
  simp [State.writeBack, mapResult, h.setX, h.advance]

theorem fatal (h : Neutral f) (r : Fatal) (s : State) :
    Machine.fatal r (f s) = mapResult f (Machine.fatal r s) :=
  congrArg (fun t => Host.Outcome.fault (Fault.fatal r t))
    ((h.setHalt s _).trans (congrArg (fun p => f { s with halt := some ⟨r, p⟩ }) (h.pc s)))

theorem ramByte (h : Neutral f) (s : State) (a : Nat) : (f s).ramByte a = s.ramByte a := by
  simp [State.ramByte, h.cfg, h.mem]

theorem setRamByte (h : Neutral f) (s : State) (a : Nat) (b : Byte) : (f s).setRamByte a b = f (s.setRamByte a b) :=
  (h.setMem s _).trans (by rw [h.cfg, h.mem]; rfl)

theorem transact (h : Neutral f) (s : State) (d : Device) (o : Nat) (t : Transfer) :
    (f s).transact d o t = f (s.transact d o t) :=
  (h.setIo s _).trans (by rw [h.io, h.instret]; rfl)

theorem readByte (h : Neutral f) (a : Word) (s : State) :
    Machine.readByte a (f s) = (Machine.readByte a s).mapState f := by
  simp only [Machine.readByte, h.cfg]
  split <;> simp only [deviceRead, Access.mapState, h.ramByte, h.io, h.instret, h.transact]

theorem writeByte (h : Neutral f) (a : Word) (b : Byte) (s : State) :
    Machine.writeByte a b (f s) = (Machine.writeByte a b s).mapState f := by
  simp only [Machine.writeByte, h.cfg]
  split <;> simp only [Access.mapState, h.setRamByte, h.transact]

theorem readBytes (h : Neutral f) : ∀ (n : Nat) (a : Word) (s : State),
    Machine.readBytes n a (f s) = (Machine.readBytes n a s).mapState f
  | 0, _, _ => rfl
  | n + 1, a, s => by
    rw [Machine.readBytes, Machine.readBytes, h.readByte]
    cases Machine.readByte a s with
    | ok b t =>
      simp only [Access.mapState, Access.andThen, readBytes h n]
      cases Machine.readBytes n (a + 1#32) t <;> rfl
    | unmapped => rfl

theorem writeBytes (h : Neutral f) : ∀ (bs : List Byte) (a : Word) (s : State),
    Machine.writeBytes bs a (f s) = (Machine.writeBytes bs a s).mapState f
  | [], _, _ => rfl
  | b :: bs, a, s => by
    rw [Machine.writeBytes, Machine.writeBytes, h.writeByte]
    cases Machine.writeByte a b s with
    | ok b t => simp only [Access.mapState, Access.andThen, writeBytes h bs]
    | unmapped => rfl

theorem memRead (h : Neutral f) (n : Nat) (a : Word) (s : State) :
    Machine.memRead n a (f s) = (Machine.memRead n a s).mapState f := by
  rw [Machine.memRead, Machine.memRead, h.readBytes]
  cases Machine.readBytes n a s <;> rfl

theorem memWrite (h : Neutral f) (n : Nat) (a v : Word) (s : State) :
    Machine.memWrite n a v (f s) = (Machine.memWrite n a v s).mapState f := h.writeBytes _ _ _

/-- The end of an instruction in a memory operation. -/
theorem finish (h : Neutral f) {α : Type} (m : Access α) {k : α → State → Result}
    (hk : ∀ v s, k v (f s) = mapResult f (k v s)) : (m.mapState f).finish k = mapResult f (m.finish k) := by
  cases m with
  | ok v s => exact hk v s
  | unmapped a s => exact h.fatal _ s

theorem load (h : Neutral f) (n : Nat) (extend : Word → Word) (rd rs1 : Reg) (imm : BitVec 12) (s : State) :
    Machine.load n extend rd rs1 imm (f s) = mapResult f (Machine.load n extend rd rs1 imm s) := by
  simp only [Machine.load, h.baseDisp, h.memRead]
  exact h.finish _ fun v t => h.writeBack t _ _

theorem store (h : Neutral f) (n : Nat) (rs1 rs2 : Reg) (imm : BitVec 12) (s : State) :
    Machine.store n rs1 rs2 imm (f s) = mapResult f (Machine.store n rs1 rs2 imm s) := by
  simp only [Machine.store, h.baseDisp, h.x, h.memWrite]
  exact h.finish _ fun _ t => by rw [h.advance]; rfl

theorem branch (h : Neutral f) (c : Bool) (imm : BitVec 13) (s : State) :
    Machine.branch c imm (f s) = mapResult f (Machine.branch c imm s) := by
  cases c
  · simp only [Machine.branch, Bool.false_eq_true, if_false, mapResult, h.advance]
  · simp only [Machine.branch, if_true, mapResult, State.pcRelative, h.pc, h.redirect]

theorem finishDiv (h : Neutral f) (inst : Word) (c : Bool) (rd : Reg) (v : Word) (s : State) :
    Machine.finishDiv inst c rd v (f s) = mapResult f (Machine.finishDiv inst c rd v s) := by
  simp only [Machine.finishDiv, h.cfg]
  split
  · exact h.fatal _ s
  · exact h.writeBack s _ _

theorem amo (h : Neutral f) (inst : Word) (g : Word → Word → Word) (rd rs1 rs2 : Reg) (s : State) :
    Machine.amo inst g rd rs1 rs2 (f s) = mapResult f (Machine.amo inst g rd rs1 rs2 s) := by
  simp only [Machine.amo, h.cfg, h.x, h.memRead]
  split
  · exact h.fatal _ s
  · cases Machine.memRead 4 (s.x rs1) s with
    | unmapped a t => exact h.fatal _ t
    | ok old t =>
      simp only [Access.mapState, Access.andThen, h.memWrite]
      cases Machine.memWrite 4 (s.x rs1) (g old (s.x rs2)) t with
      | ok _ u => exact h.writeBack u _ _
      | unmapped a u => exact h.fatal _ u

/-- A CSR instruction, for an update its CSR neither shows nor overwrites. -/
theorem csrAccess (h : Neutral f) (inst : Word) (csr : CsrNum) (rd : Reg) (reads writes : Bool) (new : Word → Word)
    (s : State) (hr : (f s).csrRead csr inst = s.csrRead csr inst)
    (hw : ∀ v, (f s).csrWrite csr v inst = (s.csrWrite csr v inst).map f) :
    Machine.csrAccess inst csr rd reads writes new (f s) = mapResult f (Machine.csrAccess inst csr rd reads writes new s) := by
  simp only [Machine.csrAccess, hr, hw]
  cases hx : (if reads = true then s.csrRead csr inst else .ok 0#32 : Except Fatal Word) with
  | error e => exact h.fatal e s
  | ok old =>
    simp only [orFatal_ok]
    cases writes with
    | false => exact h.writeBack s rd old
    | true =>
      simp only [if_true]
      cases s.csrWrite csr (new old) inst with
      | error e => exact h.fatal e s
      | ok t => exact h.writeBack t rd old

end Neutral

/-- Running an instruction commutes with a neutral update, where the reservation, the CSR the instruction names and the
return from trap do too. -/
theorem exec_neutral {f : State → State} (h : Neutral f) (i : Instr) (s : State)
    (hres : isReservationInstr i = true → ∀ u, (f u).reservation = u.reservation ∧
      ∀ r, (f u).setReservation r = f (u.setReservation r))
    (hcsr : ∀ n inst, csrNamed i = some n → (f s).csrRead n inst = s.csrRead n inst ∧
      ∀ v, (f s).csrWrite n v inst = (s.csrWrite n v inst).map f)
    (hret : i = .mret → (f s).returnFromTrap = s.returnFromTrap.map f) :
    exec i (f s) = mapResult f (exec i s) := by
  cases i with
  | lb | lh | lw | lbu | lhu => exact h.load ..
  | sb | sh | sw => exact h.store ..
  | addi rd rs1 imm => simpa only [exec, execAddi, h.x] using h.writeBack s ..
  | sltiu rd rs1 imm => simpa only [exec, execSltiu, h.x] using h.writeBack s ..
  | xori rd rs1 imm => simpa only [exec, execXori, h.x] using h.writeBack s ..
  | ori rd rs1 imm => simpa only [exec, execOri, h.x] using h.writeBack s ..
  | andi rd rs1 imm => simpa only [exec, execAndi, h.x] using h.writeBack s ..
  | slli rd rs1 n => simpa only [exec, execSlli, h.x] using h.writeBack s ..
  | srli rd rs1 n => simpa only [exec, execSrli, h.x] using h.writeBack s ..
  | srai rd rs1 n => simpa only [exec, execSrai, h.x] using h.writeBack s ..
  | add rd rs1 rs2 => simpa only [exec, execAdd, h.x] using h.writeBack s ..
  | sub rd rs1 rs2 => simpa only [exec, execSub, h.x] using h.writeBack s ..
  | sll rd rs1 rs2 => simpa only [exec, execSll, h.x] using h.writeBack s ..
  | slt rd rs1 rs2 => simpa only [exec, execSlt, h.x] using h.writeBack s ..
  | sltu rd rs1 rs2 => simpa only [exec, execSltu, h.x] using h.writeBack s ..
  | xor rd rs1 rs2 => simpa only [exec, execXor, h.x] using h.writeBack s ..
  | srl rd rs1 rs2 => simpa only [exec, execSrl, h.x] using h.writeBack s ..
  | sra rd rs1 rs2 => simpa only [exec, execSra, h.x] using h.writeBack s ..
  | or rd rs1 rs2 => simpa only [exec, execOr, h.x] using h.writeBack s ..
  | and rd rs1 rs2 => simpa only [exec, execAnd, h.x] using h.writeBack s ..
  | mul rd rs1 rs2 => simpa only [exec, execMul, h.x] using h.writeBack s ..
  | mulh rd rs1 rs2 => simpa only [exec, execMulh, h.x] using h.writeBack s ..
  | mulhu rd rs1 rs2 => simpa only [exec, execMulhu, h.x] using h.writeBack s ..
  | div rd rs1 rs2 => simpa only [exec, execDiv, h.x] using h.finishDiv ..
  | divu rd rs1 rs2 => simpa only [exec, execDivu, h.x] using h.finishDiv ..
  | rem rd rs1 rs2 => simpa only [exec, execRem, h.x] using h.finishDiv ..
  | remu rd rs1 rs2 => simpa only [exec, execRemu, h.x] using h.finishDiv ..
  | lrW rd rs1 aq rl =>
    simp only [exec, execLrW, h.x, h.memRead]
    exact h.finish _ fun v t => by rw [((hres rfl) t).2]; exact h.writeBack ..
  | scW rd rs1 rs2 aq rl =>
    simp only [exec, execScW, h.x, h.memWrite, ((hres rfl) s).1]
    split
    · exact h.finish _ fun v t => by rw [((hres rfl) t).2]; exact h.writeBack ..
    · rw [((hres rfl) s).2]
      exact h.writeBack ..
  | amoaddW | amoorW => exact h.amo ..
  | beq rs1 rs2 imm => simpa only [exec, execBeq, h.x] using h.branch ..
  | bne rs1 rs2 imm => simpa only [exec, execBne, h.x] using h.branch ..
  | blt rs1 rs2 imm => simpa only [exec, execBlt, h.x] using h.branch ..
  | bge rs1 rs2 imm => simpa only [exec, execBge, h.x] using h.branch ..
  | bltu rs1 rs2 imm => simpa only [exec, execBltu, h.x] using h.branch ..
  | bgeu rs1 rs2 imm => simpa only [exec, execBgeu, h.x] using h.branch ..
  | lui rd imm => exact h.writeBack s ..
  | auipc rd imm => simpa only [exec, execAuipc, h.pc] using h.writeBack s ..
  | jal rd imm =>
    simp only [exec, execJal, State.pcRelative, State.link, h.pc, h.redirect, h.setX]
    rfl
  | jalr rd rs1 imm =>
    simp only [exec, execJalr, State.jalrTarget, State.link, h.pc, h.x, h.redirect, h.setX]
    rfl
  | csrrw rd rs1 csr =>
    simpa only [exec, execCsrrw, h.x] using h.csrAccess _ csr _ _ _ _ s (hcsr csr _ rfl).1 (hcsr csr _ rfl).2
  | csrrs rd rs1 csr =>
    simpa only [exec, execCsrrs, h.x] using h.csrAccess _ csr _ _ _ _ s (hcsr csr _ rfl).1 (hcsr csr _ rfl).2
  | csrrc rd rs1 csr =>
    simpa only [exec, execCsrrc, h.x] using h.csrAccess _ csr _ _ _ _ s (hcsr csr _ rfl).1 (hcsr csr _ rfl).2
  | csrrwi rd uimm csr => exact h.csrAccess _ csr _ _ _ _ s (hcsr csr _ rfl).1 (hcsr csr _ rfl).2
  | csrrsi rd uimm csr => exact h.csrAccess _ csr _ _ _ _ s (hcsr csr _ rfl).1 (hcsr csr _ rfl).2
  | csrrci rd uimm csr => exact h.csrAccess _ csr _ _ _ _ s (hcsr csr _ rfl).1 (hcsr csr _ rfl).2
  | ecall | ebreak | fence =>
    simp only [exec, execEcall, execEbreak, execFence, mapResult, h.advance]
  | mret =>
    simp only [exec, execMret, hret rfl]
    cases s.returnFromTrap with
    | ok t => rfl
    | error e => exact h.fatal e s

end Sys2Proof.Machine
end

