-- ==== Sys2Proof/Laws/PerInstr.lean ====
section
/-! SUPPORT. One lemma per constructor: the word the encoder gives an instruction matches the opcode table's row of its
mnemonic (30_encoding.md R110). -/

namespace Sys2Proof.Laws.EncodeMatchesRow

open Sys2Proof Sys2Proof.Machine

/-- The encoding of an instruction matches the row its mnemonic names. -/
def Statement (i : Instr) : Prop := InRow i i.mnemonic

theorem lb (rd rs1 : Reg) (imm : BitVec 12) : Statement (.lb rd rs1 imm) :=
  ⟨⟨"LB", 0x0000707f#32, 0x00000003#32⟩, by decide, rfl, beq_iff_eq.2 ((mask_funct3 _ _ (by decide)).2 (by simp [encode]; decide))⟩

theorem lh (rd rs1 : Reg) (imm : BitVec 12) : Statement (.lh rd rs1 imm) :=
  ⟨⟨"LH", 0x0000707f#32, 0x00001003#32⟩, by decide, rfl, beq_iff_eq.2 ((mask_funct3 _ _ (by decide)).2 (by simp [encode]; decide))⟩

theorem lw (rd rs1 : Reg) (imm : BitVec 12) : Statement (.lw rd rs1 imm) :=
  ⟨⟨"LW", 0x0000707f#32, 0x00002003#32⟩, by decide, rfl, beq_iff_eq.2 ((mask_funct3 _ _ (by decide)).2 (by simp [encode]; decide))⟩

theorem lbu (rd rs1 : Reg) (imm : BitVec 12) : Statement (.lbu rd rs1 imm) :=
  ⟨⟨"LBU", 0x0000707f#32, 0x00004003#32⟩, by decide, rfl, beq_iff_eq.2 ((mask_funct3 _ _ (by decide)).2 (by simp [encode]; decide))⟩

theorem lhu (rd rs1 : Reg) (imm : BitVec 12) : Statement (.lhu rd rs1 imm) :=
  ⟨⟨"LHU", 0x0000707f#32, 0x00005003#32⟩, by decide, rfl, beq_iff_eq.2 ((mask_funct3 _ _ (by decide)).2 (by simp [encode]; decide))⟩

theorem sb (rs1 rs2 : Reg) (imm : BitVec 12) : Statement (.sb rs1 rs2 imm) :=
  ⟨⟨"SB", 0x0000707f#32, 0x00000023#32⟩, by decide, rfl, beq_iff_eq.2 ((mask_funct3 _ _ (by decide)).2 (by simp [encode]; decide))⟩

theorem sh (rs1 rs2 : Reg) (imm : BitVec 12) : Statement (.sh rs1 rs2 imm) :=
  ⟨⟨"SH", 0x0000707f#32, 0x00001023#32⟩, by decide, rfl, beq_iff_eq.2 ((mask_funct3 _ _ (by decide)).2 (by simp [encode]; decide))⟩

theorem sw (rs1 rs2 : Reg) (imm : BitVec 12) : Statement (.sw rs1 rs2 imm) :=
  ⟨⟨"SW", 0x0000707f#32, 0x00002023#32⟩, by decide, rfl, beq_iff_eq.2 ((mask_funct3 _ _ (by decide)).2 (by simp [encode]; decide))⟩

theorem addi (rd rs1 : Reg) (imm : BitVec 12) : Statement (.addi rd rs1 imm) :=
  ⟨⟨"ADDI", 0x0000707f#32, 0x00000013#32⟩, by decide, rfl, beq_iff_eq.2 ((mask_funct3 _ _ (by decide)).2 (by simp [encode]; decide))⟩

theorem sltiu (rd rs1 : Reg) (imm : BitVec 12) : Statement (.sltiu rd rs1 imm) :=
  ⟨⟨"SLTIU", 0x0000707f#32, 0x00003013#32⟩, by decide, rfl, beq_iff_eq.2 ((mask_funct3 _ _ (by decide)).2 (by simp [encode]; decide))⟩

theorem xori (rd rs1 : Reg) (imm : BitVec 12) : Statement (.xori rd rs1 imm) :=
  ⟨⟨"XORI", 0x0000707f#32, 0x00004013#32⟩, by decide, rfl, beq_iff_eq.2 ((mask_funct3 _ _ (by decide)).2 (by simp [encode]; decide))⟩

theorem ori (rd rs1 : Reg) (imm : BitVec 12) : Statement (.ori rd rs1 imm) :=
  ⟨⟨"ORI", 0x0000707f#32, 0x00006013#32⟩, by decide, rfl, beq_iff_eq.2 ((mask_funct3 _ _ (by decide)).2 (by simp [encode]; decide))⟩

theorem andi (rd rs1 : Reg) (imm : BitVec 12) : Statement (.andi rd rs1 imm) :=
  ⟨⟨"ANDI", 0x0000707f#32, 0x00007013#32⟩, by decide, rfl, beq_iff_eq.2 ((mask_funct3 _ _ (by decide)).2 (by simp [encode]; decide))⟩

theorem slli (rd rs1 : Reg) (shamt : BitVec 5) : Statement (.slli rd rs1 shamt) :=
  ⟨⟨"SLLI", 0xfe00707f#32, 0x00001013#32⟩, by decide, rfl, beq_iff_eq.2 ((mask_funct7 _ _ (by decide)).2 (by simp [encode]; decide))⟩

theorem srli (rd rs1 : Reg) (shamt : BitVec 5) : Statement (.srli rd rs1 shamt) :=
  ⟨⟨"SRLI", 0xfe00707f#32, 0x00005013#32⟩, by decide, rfl, beq_iff_eq.2 ((mask_funct7 _ _ (by decide)).2 (by simp [encode]; decide))⟩

theorem srai (rd rs1 : Reg) (shamt : BitVec 5) : Statement (.srai rd rs1 shamt) :=
  ⟨⟨"SRAI", 0xfe00707f#32, 0x40005013#32⟩, by decide, rfl, beq_iff_eq.2 ((mask_funct7 _ _ (by decide)).2 (by simp [encode]; decide))⟩

theorem add (rd rs1 rs2 : Reg) : Statement (.add rd rs1 rs2) :=
  ⟨⟨"ADD", 0xfe00707f#32, 0x00000033#32⟩, by decide, rfl, beq_iff_eq.2 ((mask_funct7 _ _ (by decide)).2 (by simp [encode]; decide))⟩

theorem sub (rd rs1 rs2 : Reg) : Statement (.sub rd rs1 rs2) :=
  ⟨⟨"SUB", 0xfe00707f#32, 0x40000033#32⟩, by decide, rfl, beq_iff_eq.2 ((mask_funct7 _ _ (by decide)).2 (by simp [encode]; decide))⟩

theorem sll (rd rs1 rs2 : Reg) : Statement (.sll rd rs1 rs2) :=
  ⟨⟨"SLL", 0xfe00707f#32, 0x00001033#32⟩, by decide, rfl, beq_iff_eq.2 ((mask_funct7 _ _ (by decide)).2 (by simp [encode]; decide))⟩

theorem slt (rd rs1 rs2 : Reg) : Statement (.slt rd rs1 rs2) :=
  ⟨⟨"SLT", 0xfe00707f#32, 0x00002033#32⟩, by decide, rfl, beq_iff_eq.2 ((mask_funct7 _ _ (by decide)).2 (by simp [encode]; decide))⟩

theorem sltu (rd rs1 rs2 : Reg) : Statement (.sltu rd rs1 rs2) :=
  ⟨⟨"SLTU", 0xfe00707f#32, 0x00003033#32⟩, by decide, rfl, beq_iff_eq.2 ((mask_funct7 _ _ (by decide)).2 (by simp [encode]; decide))⟩

theorem xor (rd rs1 rs2 : Reg) : Statement (.xor rd rs1 rs2) :=
  ⟨⟨"XOR", 0xfe00707f#32, 0x00004033#32⟩, by decide, rfl, beq_iff_eq.2 ((mask_funct7 _ _ (by decide)).2 (by simp [encode]; decide))⟩

theorem srl (rd rs1 rs2 : Reg) : Statement (.srl rd rs1 rs2) :=
  ⟨⟨"SRL", 0xfe00707f#32, 0x00005033#32⟩, by decide, rfl, beq_iff_eq.2 ((mask_funct7 _ _ (by decide)).2 (by simp [encode]; decide))⟩

theorem sra (rd rs1 rs2 : Reg) : Statement (.sra rd rs1 rs2) :=
  ⟨⟨"SRA", 0xfe00707f#32, 0x40005033#32⟩, by decide, rfl, beq_iff_eq.2 ((mask_funct7 _ _ (by decide)).2 (by simp [encode]; decide))⟩

theorem or (rd rs1 rs2 : Reg) : Statement (.or rd rs1 rs2) :=
  ⟨⟨"OR", 0xfe00707f#32, 0x00006033#32⟩, by decide, rfl, beq_iff_eq.2 ((mask_funct7 _ _ (by decide)).2 (by simp [encode]; decide))⟩

theorem and (rd rs1 rs2 : Reg) : Statement (.and rd rs1 rs2) :=
  ⟨⟨"AND", 0xfe00707f#32, 0x00007033#32⟩, by decide, rfl, beq_iff_eq.2 ((mask_funct7 _ _ (by decide)).2 (by simp [encode]; decide))⟩

theorem mul (rd rs1 rs2 : Reg) : Statement (.mul rd rs1 rs2) :=
  ⟨⟨"MUL", 0xfe00707f#32, 0x02000033#32⟩, by decide, rfl, beq_iff_eq.2 ((mask_funct7 _ _ (by decide)).2 (by simp [encode]; decide))⟩

theorem mulh (rd rs1 rs2 : Reg) : Statement (.mulh rd rs1 rs2) :=
  ⟨⟨"MULH", 0xfe00707f#32, 0x02001033#32⟩, by decide, rfl, beq_iff_eq.2 ((mask_funct7 _ _ (by decide)).2 (by simp [encode]; decide))⟩

theorem mulhu (rd rs1 rs2 : Reg) : Statement (.mulhu rd rs1 rs2) :=
  ⟨⟨"MULHU", 0xfe00707f#32, 0x02003033#32⟩, by decide, rfl, beq_iff_eq.2 ((mask_funct7 _ _ (by decide)).2 (by simp [encode]; decide))⟩

theorem div (rd rs1 rs2 : Reg) : Statement (.div rd rs1 rs2) :=
  ⟨⟨"DIV", 0xfe00707f#32, 0x02004033#32⟩, by decide, rfl, beq_iff_eq.2 ((mask_funct7 _ _ (by decide)).2 (by simp [encode]; decide))⟩

theorem divu (rd rs1 rs2 : Reg) : Statement (.divu rd rs1 rs2) :=
  ⟨⟨"DIVU", 0xfe00707f#32, 0x02005033#32⟩, by decide, rfl, beq_iff_eq.2 ((mask_funct7 _ _ (by decide)).2 (by simp [encode]; decide))⟩

theorem rem (rd rs1 rs2 : Reg) : Statement (.rem rd rs1 rs2) :=
  ⟨⟨"REM", 0xfe00707f#32, 0x02006033#32⟩, by decide, rfl, beq_iff_eq.2 ((mask_funct7 _ _ (by decide)).2 (by simp [encode]; decide))⟩

theorem remu (rd rs1 rs2 : Reg) : Statement (.remu rd rs1 rs2) :=
  ⟨⟨"REMU", 0xfe00707f#32, 0x02007033#32⟩, by decide, rfl, beq_iff_eq.2 ((mask_funct7 _ _ (by decide)).2 (by simp [encode]; decide))⟩

theorem lrW (rd rs1 : Reg) (aq rl : Bool) : Statement (.lrW rd rs1 aq rl) :=
  ⟨⟨"LR.W", 0xf9f0707f#32, 0x1000202f#32⟩, by decide, rfl, beq_iff_eq.2 ((mask_loadReserved _ _ (by decide)).2 (by simp [encode]; decide))⟩

theorem scW (rd rs1 rs2 : Reg) (aq rl : Bool) : Statement (.scW rd rs1 rs2 aq rl) :=
  ⟨⟨"SC.W", 0xf800707f#32, 0x1800202f#32⟩, by decide, rfl, beq_iff_eq.2 ((mask_funct5 _ _ (by decide)).2 (by simp [encode]; decide))⟩

theorem amoaddW (rd rs1 rs2 : Reg) (aq rl : Bool) : Statement (.amoaddW rd rs1 rs2 aq rl) :=
  ⟨⟨"AMOADD.W", 0xf800707f#32, 0x0000202f#32⟩, by decide, rfl, beq_iff_eq.2 ((mask_funct5 _ _ (by decide)).2 (by simp [encode]; decide))⟩

theorem amoorW (rd rs1 rs2 : Reg) (aq rl : Bool) : Statement (.amoorW rd rs1 rs2 aq rl) :=
  ⟨⟨"AMOOR.W", 0xf800707f#32, 0x4000202f#32⟩, by decide, rfl, beq_iff_eq.2 ((mask_funct5 _ _ (by decide)).2 (by simp [encode]; decide))⟩

theorem beq (rs1 rs2 : Reg) (imm : BitVec 13) : Statement (.beq rs1 rs2 imm) :=
  ⟨⟨"BEQ", 0x0000707f#32, 0x00000063#32⟩, by decide, rfl, beq_iff_eq.2 ((mask_funct3 _ _ (by decide)).2 (by simp [encode]; decide))⟩

theorem bne (rs1 rs2 : Reg) (imm : BitVec 13) : Statement (.bne rs1 rs2 imm) :=
  ⟨⟨"BNE", 0x0000707f#32, 0x00001063#32⟩, by decide, rfl, beq_iff_eq.2 ((mask_funct3 _ _ (by decide)).2 (by simp [encode]; decide))⟩

theorem blt (rs1 rs2 : Reg) (imm : BitVec 13) : Statement (.blt rs1 rs2 imm) :=
  ⟨⟨"BLT", 0x0000707f#32, 0x00004063#32⟩, by decide, rfl, beq_iff_eq.2 ((mask_funct3 _ _ (by decide)).2 (by simp [encode]; decide))⟩

theorem bge (rs1 rs2 : Reg) (imm : BitVec 13) : Statement (.bge rs1 rs2 imm) :=
  ⟨⟨"BGE", 0x0000707f#32, 0x00005063#32⟩, by decide, rfl, beq_iff_eq.2 ((mask_funct3 _ _ (by decide)).2 (by simp [encode]; decide))⟩

theorem bltu (rs1 rs2 : Reg) (imm : BitVec 13) : Statement (.bltu rs1 rs2 imm) :=
  ⟨⟨"BLTU", 0x0000707f#32, 0x00006063#32⟩, by decide, rfl, beq_iff_eq.2 ((mask_funct3 _ _ (by decide)).2 (by simp [encode]; decide))⟩

theorem bgeu (rs1 rs2 : Reg) (imm : BitVec 13) : Statement (.bgeu rs1 rs2 imm) :=
  ⟨⟨"BGEU", 0x0000707f#32, 0x00007063#32⟩, by decide, rfl, beq_iff_eq.2 ((mask_funct3 _ _ (by decide)).2 (by simp [encode]; decide))⟩

theorem lui (rd : Reg) (imm : BitVec 20) : Statement (.lui rd imm) :=
  ⟨⟨"LUI", 0x0000007f#32, 0x00000037#32⟩, by decide, rfl, beq_iff_eq.2 ((mask_opcode _ _ (by decide)).2 (by simp [encode]; rfl))⟩

theorem auipc (rd : Reg) (imm : BitVec 20) : Statement (.auipc rd imm) :=
  ⟨⟨"AUIPC", 0x0000007f#32, 0x00000017#32⟩, by decide, rfl, beq_iff_eq.2 ((mask_opcode _ _ (by decide)).2 (by simp [encode]; rfl))⟩

theorem jal (rd : Reg) (imm : BitVec 21) : Statement (.jal rd imm) :=
  ⟨⟨"JAL", 0x0000007f#32, 0x0000006f#32⟩, by decide, rfl, beq_iff_eq.2 ((mask_opcode _ _ (by decide)).2 (by simp [encode]; rfl))⟩

theorem jalr (rd rs1 : Reg) (imm : BitVec 12) : Statement (.jalr rd rs1 imm) :=
  ⟨⟨"JALR", 0x0000707f#32, 0x00000067#32⟩, by decide, rfl, beq_iff_eq.2 ((mask_funct3 _ _ (by decide)).2 (by simp [encode]; decide))⟩

theorem csrrw (rd rs1 : Reg) (csr : CsrNum) : Statement (.csrrw rd rs1 csr) :=
  ⟨⟨"CSRRW", 0x0000707f#32, 0x00001073#32⟩, by decide, rfl, beq_iff_eq.2 ((mask_funct3 _ _ (by decide)).2 (by simp [encode]; decide))⟩

theorem csrrs (rd rs1 : Reg) (csr : CsrNum) : Statement (.csrrs rd rs1 csr) :=
  ⟨⟨"CSRRS", 0x0000707f#32, 0x00002073#32⟩, by decide, rfl, beq_iff_eq.2 ((mask_funct3 _ _ (by decide)).2 (by simp [encode]; decide))⟩

theorem csrrc (rd rs1 : Reg) (csr : CsrNum) : Statement (.csrrc rd rs1 csr) :=
  ⟨⟨"CSRRC", 0x0000707f#32, 0x00003073#32⟩, by decide, rfl, beq_iff_eq.2 ((mask_funct3 _ _ (by decide)).2 (by simp [encode]; decide))⟩

theorem csrrwi (rd : Reg) (uimm : BitVec 5) (csr : CsrNum) : Statement (.csrrwi rd uimm csr) :=
  ⟨⟨"CSRRWI", 0x0000707f#32, 0x00005073#32⟩, by decide, rfl, beq_iff_eq.2 ((mask_funct3 _ _ (by decide)).2 (by simp [encode]; decide))⟩

theorem csrrsi (rd : Reg) (uimm : BitVec 5) (csr : CsrNum) : Statement (.csrrsi rd uimm csr) :=
  ⟨⟨"CSRRSI", 0x0000707f#32, 0x00006073#32⟩, by decide, rfl, beq_iff_eq.2 ((mask_funct3 _ _ (by decide)).2 (by simp [encode]; decide))⟩

theorem csrrci (rd : Reg) (uimm : BitVec 5) (csr : CsrNum) : Statement (.csrrci rd uimm csr) :=
  ⟨⟨"CSRRCI", 0x0000707f#32, 0x00007073#32⟩, by decide, rfl, beq_iff_eq.2 ((mask_funct3 _ _ (by decide)).2 (by simp [encode]; decide))⟩

theorem ecall : Statement .ecall :=
  ⟨⟨"ECALL", 0xffffffff#32, 0x00000073#32⟩, by decide, rfl, beq_iff_eq.2 ((mask_word _ _).2 rfl)⟩

theorem ebreak : Statement .ebreak :=
  ⟨⟨"EBREAK", 0xffffffff#32, 0x00100073#32⟩, by decide, rfl, beq_iff_eq.2 ((mask_word _ _).2 rfl)⟩

theorem mret : Statement .mret :=
  ⟨⟨"MRET", 0xffffffff#32, 0x30200073#32⟩, by decide, rfl, beq_iff_eq.2 ((mask_word _ _).2 rfl)⟩

theorem fence (rd rs1 : Reg) (imm : BitVec 12) : Statement (.fence rd rs1 imm) :=
  ⟨⟨"FENCE", 0x0000707f#32, 0x0000000f#32⟩, by decide, rfl, beq_iff_eq.2 ((mask_funct3 _ _ (by decide)).2 (by simp [encode]; decide))⟩

end Sys2Proof.Laws.EncodeMatchesRow
end

