-- ==== Sys2Proof/Tests/Slice0.lean ====
section
/-! SUPPORT. The model's own tests and the witnesses of the statements' hypotheses. Expected values are those of
95_test_vectors.md, or are written out from the rule named; a step test runs one step. -/

namespace Sys2Proof.Machine

/-- A word of RAM, loaded from outside. -/
def State.putWord (s : State) (a v : Word) : State := s.loadRam a (leBytes 4 v)

/-- The word RAM holds at an address. -/
def State.wordAt (s : State) (a : Nat) : Word :=
  leWord [s.ramByte a, s.ramByte (a + 1), s.ramByte (a + 2), s.ramByte (a + 3)]

/-- A CSR set by the test. -/
def State.putCsr (s : State) (n : CsrNum) (v : Word) : State :=
  match s.csrWrite n v 0#32 with
  | .ok t => t
  | .error _ => s

/-- The configuration of 95_test_vectors.md, with a CLINT that stays quiet. -/
def base : State := { State.reset with cfg := { Config.initial with clint := .script [] } }

/-- The step of `s` with a word at `pc` goes on, is counted, and ends in a state `p` holds of. -/
def goes (w : Nat) (s : State) (p : State → Bool) : Bool :=
  match step (s.withFetchWord 32 w) with
  | .next t => t.instret == s.instret + 1 && p t
  | .fault _ => false
  | .refused _ => false

/-- The step of `s` with a word at `pc` halts with a reason, in a state that keeps the registers. -/
def halts (w : Nat) (s : State) (r : Fatal) : Bool :=
  match step (s.withFetchWord 32 w) with
  | .fault (.fatal q t) => q == r && t.halt == some ⟨r, s.pc⟩ && t.regs == s.regs && t.instret == s.instret
  | .fault (.alreadyHalted _) => false
  | .next _ => false
  | .refused _ => false

/-! ## Well-formedness: what the check refuses, and the boundary it accepts -/

theorem test_wf_refuses_odd_branches :
    (Instr.beq 1#5 2#5 1#13).wf = false ∧ (Instr.bne 1#5 2#5 0x1FFF#13).wf = false ∧
    (Instr.blt 1#5 2#5 3#13).wf = false ∧ (Instr.bge 1#5 2#5 5#13).wf = false ∧
    (Instr.bltu 1#5 2#5 7#13).wf = false ∧ (Instr.bgeu 1#5 2#5 9#13).wf = false := by decide
theorem test_wf_refuses_odd_jal : (Instr.jal 1#5 1#21).wf = false ∧ (Instr.jal 1#5 0x1FFFFF#21).wf = false := by decide
theorem test_wf_accepts_even : (Instr.beq 1#5 2#5 0x1FFE#13).wf = true ∧ (Instr.jal 1#5 0x100000#21).wf = true := by
  decide
theorem test_odd_branch_is_no_word : decode (encode (.beq 1#5 2#5 1#13)) = .ok (.beq 1#5 2#5 0#13) := by decide

/-! ## Decoding: every constructor, its word written out field by field -/

/-- 30_encoding.md R94, R131 to R135. -/
theorem test_decode_loads :
    decode (0b100000000001#12 ++ 0b00001#5 ++ 0b000#3 ++ 0b00011#5 ++ 0b0000011#7) = .ok (.lb 3#5 1#5 0x801#12) ∧
    decode (0b100000000001#12 ++ 0b00001#5 ++ 0b001#3 ++ 0b00011#5 ++ 0b0000011#7) = .ok (.lh 3#5 1#5 0x801#12) ∧
    decode (0b100000000001#12 ++ 0b00001#5 ++ 0b010#3 ++ 0b00011#5 ++ 0b0000011#7) = .ok (.lw 3#5 1#5 0x801#12) ∧
    decode (0b100000000001#12 ++ 0b00001#5 ++ 0b100#3 ++ 0b00011#5 ++ 0b0000011#7) = .ok (.lbu 3#5 1#5 0x801#12) ∧
    decode (0b100000000001#12 ++ 0b00001#5 ++ 0b101#3 ++ 0b00011#5 ++ 0b0000011#7) = .ok (.lhu 3#5 1#5 0x801#12) := by decide

/-- 30_encoding.md R95, R136 to R138. -/
theorem test_decode_stores :
    decode (0b0111111#7 ++ 0b00010#5 ++ 0b00001#5 ++ 0b000#3 ++ 0b00001#5 ++ 0b0100011#7) = .ok (.sb 1#5 2#5 0x7E1#12) ∧
    decode (0b0111111#7 ++ 0b00010#5 ++ 0b00001#5 ++ 0b001#3 ++ 0b00001#5 ++ 0b0100011#7) = .ok (.sh 1#5 2#5 0x7E1#12) ∧
    decode (0b0111111#7 ++ 0b00010#5 ++ 0b00001#5 ++ 0b010#3 ++ 0b00001#5 ++ 0b0100011#7) = .ok (.sw 1#5 2#5 0x7E1#12) := by decide

/-- 30_encoding.md R94, R151 to R155. -/
theorem test_decode_alu_immediate :
    decode (0b011111111110#12 ++ 0b00001#5 ++ 0b000#3 ++ 0b00011#5 ++ 0b0010011#7) = .ok (.addi 3#5 1#5 0x7FE#12) ∧
    decode (0b011111111110#12 ++ 0b00001#5 ++ 0b011#3 ++ 0b00011#5 ++ 0b0010011#7) = .ok (.sltiu 3#5 1#5 0x7FE#12) ∧
    decode (0b011111111110#12 ++ 0b00001#5 ++ 0b100#3 ++ 0b00011#5 ++ 0b0010011#7) = .ok (.xori 3#5 1#5 0x7FE#12) ∧
    decode (0b011111111110#12 ++ 0b00001#5 ++ 0b110#3 ++ 0b00011#5 ++ 0b0010011#7) = .ok (.ori 3#5 1#5 0x7FE#12) ∧
    decode (0b011111111110#12 ++ 0b00001#5 ++ 0b111#3 ++ 0b00011#5 ++ 0b0010011#7) = .ok (.andi 3#5 1#5 0x7FE#12) := by decide

/-- 30_encoding.md R113, R156 to R158. -/
theorem test_decode_shift_immediate :
    decode (0b0000000#7 ++ 0b10001#5 ++ 0b00001#5 ++ 0b001#3 ++ 0b00011#5 ++ 0b0010011#7) = .ok (.slli 3#5 1#5 17#5) ∧
    decode (0b0000000#7 ++ 0b10001#5 ++ 0b00001#5 ++ 0b101#3 ++ 0b00011#5 ++ 0b0010011#7) = .ok (.srli 3#5 1#5 17#5) ∧
    decode (0b0100000#7 ++ 0b10001#5 ++ 0b00001#5 ++ 0b101#3 ++ 0b00011#5 ++ 0b0010011#7) = .ok (.srai 3#5 1#5 17#5) := by decide

/-- 30_encoding.md R93, R171 to R180. -/
theorem test_decode_alu_register :
    decode (0b0000000#7 ++ 0b00010#5 ++ 0b00001#5 ++ 0b000#3 ++ 0b00011#5 ++ 0b0110011#7) = .ok (.add 3#5 1#5 2#5) ∧
    decode (0b0100000#7 ++ 0b00010#5 ++ 0b00001#5 ++ 0b000#3 ++ 0b00011#5 ++ 0b0110011#7) = .ok (.sub 3#5 1#5 2#5) ∧
    decode (0b0000000#7 ++ 0b00010#5 ++ 0b00001#5 ++ 0b001#3 ++ 0b00011#5 ++ 0b0110011#7) = .ok (.sll 3#5 1#5 2#5) ∧
    decode (0b0000000#7 ++ 0b00010#5 ++ 0b00001#5 ++ 0b010#3 ++ 0b00011#5 ++ 0b0110011#7) = .ok (.slt 3#5 1#5 2#5) ∧
    decode (0b0000000#7 ++ 0b00010#5 ++ 0b00001#5 ++ 0b011#3 ++ 0b00011#5 ++ 0b0110011#7) = .ok (.sltu 3#5 1#5 2#5) ∧
    decode (0b0000000#7 ++ 0b00010#5 ++ 0b00001#5 ++ 0b100#3 ++ 0b00011#5 ++ 0b0110011#7) = .ok (.xor 3#5 1#5 2#5) ∧
    decode (0b0000000#7 ++ 0b00010#5 ++ 0b00001#5 ++ 0b101#3 ++ 0b00011#5 ++ 0b0110011#7) = .ok (.srl 3#5 1#5 2#5) ∧
    decode (0b0100000#7 ++ 0b00010#5 ++ 0b00001#5 ++ 0b101#3 ++ 0b00011#5 ++ 0b0110011#7) = .ok (.sra 3#5 1#5 2#5) ∧
    decode (0b0000000#7 ++ 0b00010#5 ++ 0b00001#5 ++ 0b110#3 ++ 0b00011#5 ++ 0b0110011#7) = .ok (.or 3#5 1#5 2#5) ∧
    decode (0b0000000#7 ++ 0b00010#5 ++ 0b00001#5 ++ 0b111#3 ++ 0b00011#5 ++ 0b0110011#7) = .ok (.and 3#5 1#5 2#5) := by decide

/-- 30_encoding.md R93, R191 to R197. -/
theorem test_decode_muldiv :
    decode (0b0000001#7 ++ 0b00010#5 ++ 0b00001#5 ++ 0b000#3 ++ 0b00011#5 ++ 0b0110011#7) = .ok (.mul 3#5 1#5 2#5) ∧
    decode (0b0000001#7 ++ 0b00010#5 ++ 0b00001#5 ++ 0b001#3 ++ 0b00011#5 ++ 0b0110011#7) = .ok (.mulh 3#5 1#5 2#5) ∧
    decode (0b0000001#7 ++ 0b00010#5 ++ 0b00001#5 ++ 0b011#3 ++ 0b00011#5 ++ 0b0110011#7) = .ok (.mulhu 3#5 1#5 2#5) ∧
    decode (0b0000001#7 ++ 0b00010#5 ++ 0b00001#5 ++ 0b100#3 ++ 0b00011#5 ++ 0b0110011#7) = .ok (.div 3#5 1#5 2#5) ∧
    decode (0b0000001#7 ++ 0b00010#5 ++ 0b00001#5 ++ 0b101#3 ++ 0b00011#5 ++ 0b0110011#7) = .ok (.divu 3#5 1#5 2#5) ∧
    decode (0b0000001#7 ++ 0b00010#5 ++ 0b00001#5 ++ 0b110#3 ++ 0b00011#5 ++ 0b0110011#7) = .ok (.rem 3#5 1#5 2#5) ∧
    decode (0b0000001#7 ++ 0b00010#5 ++ 0b00001#5 ++ 0b111#3 ++ 0b00011#5 ++ 0b0110011#7) = .ok (.remu 3#5 1#5 2#5) := by decide

/-- 30_encoding.md R115, R212 to R215. -/
theorem test_decode_atomics :
    decode (0b00010#5 ++ 0b1#1 ++ 0b0#1 ++ 0b00000#5 ++ 0b00001#5 ++ 0b010#3 ++ 0b00011#5 ++ 0b0101111#7) = .ok (.lrW 3#5 1#5 true false) ∧
    decode (0b00011#5 ++ 0b0#1 ++ 0b1#1 ++ 0b00010#5 ++ 0b00001#5 ++ 0b010#3 ++ 0b00011#5 ++ 0b0101111#7) = .ok (.scW 3#5 1#5 2#5 false true) ∧
    decode (0b00000#5 ++ 0b0#1 ++ 0b0#1 ++ 0b00010#5 ++ 0b00001#5 ++ 0b010#3 ++ 0b00011#5 ++ 0b0101111#7) = .ok (.amoaddW 3#5 1#5 2#5 false false) ∧
    decode (0b01000#5 ++ 0b1#1 ++ 0b1#1 ++ 0b00010#5 ++ 0b00001#5 ++ 0b010#3 ++ 0b00011#5 ++ 0b0101111#7) = .ok (.amoorW 3#5 1#5 2#5 true true) := by decide

/-- 30_encoding.md R96, R231 to R236. -/
theorem test_decode_branches :
    decode (0b1#1 ++ 0b000000#6 ++ 0b00010#5 ++ 0b00001#5 ++ 0b000#3 ++ 0b0000#4 ++ 0b0#1 ++ 0b1100011#7) = .ok (.beq 1#5 2#5 0x1000#13) ∧
    decode (0b0#1 ++ 0b000000#6 ++ 0b00010#5 ++ 0b00001#5 ++ 0b001#3 ++ 0b0000#4 ++ 0b1#1 ++ 0b1100011#7) = .ok (.bne 1#5 2#5 0x0800#13) ∧
    decode (0b0#1 ++ 0b010101#6 ++ 0b00010#5 ++ 0b00001#5 ++ 0b100#3 ++ 0b0101#4 ++ 0b1#1 ++ 0b1100011#7) = .ok (.blt 1#5 2#5 0x0AAA#13) ∧
    decode (0b1#1 ++ 0b111111#6 ++ 0b00010#5 ++ 0b00001#5 ++ 0b101#3 ++ 0b1111#4 ++ 0b1#1 ++ 0b1100011#7) = .ok (.bge 1#5 2#5 0x1FFE#13) ∧
    decode (0b0#1 ++ 0b000000#6 ++ 0b00010#5 ++ 0b00001#5 ++ 0b110#3 ++ 0b0001#4 ++ 0b0#1 ++ 0b1100011#7) = .ok (.bltu 1#5 2#5 0x0002#13) ∧
    decode (0b0#1 ++ 0b111110#6 ++ 0b00010#5 ++ 0b00001#5 ++ 0b111#3 ++ 0b0000#4 ++ 0b1#1 ++ 0b1100011#7) = .ok (.bgeu 1#5 2#5 0x0FC0#13) := by decide

/-- 30_encoding.md R97, R250, R251. -/
theorem test_decode_upper_immediates :
    decode (0b10000000000000000001#20 ++ 0b00011#5 ++ 0b0110111#7) = .ok (.lui 3#5 0x80001#20) ∧
    decode (0b01111111111111111110#20 ++ 0b00011#5 ++ 0b0010111#7) = .ok (.auipc 3#5 0x7FFFE#20) := by decide

/-- 30_encoding.md R98, R260; R94, R261. -/
theorem test_decode_jumps :
    decode (0b0#1 ++ 0b0000000000#10 ++ 0b0#1 ++ 0b11111111#8 ++ 0b00011#5 ++ 0b1101111#7) = .ok (.jal 3#5 0x0FF000#21) ∧
    decode (0b1#1 ++ 0b0000000001#10 ++ 0b1#1 ++ 0b00000000#8 ++ 0b00011#5 ++ 0b1101111#7) = .ok (.jal 3#5 0x100802#21) ∧
    decode (0b111111111111#12 ++ 0b00001#5 ++ 0b000#3 ++ 0b00011#5 ++ 0b1100111#7) = .ok (.jalr 3#5 1#5 0xFFF#12) := by decide

/-- 30_encoding.md R94, R273 to R278. -/
theorem test_decode_csr :
    decode (0b001100000101#12 ++ 0b00001#5 ++ 0b001#3 ++ 0b00011#5 ++ 0b1110011#7) = .ok (.csrrw 3#5 1#5 0x305#12) ∧
    decode (0b001100000101#12 ++ 0b00001#5 ++ 0b010#3 ++ 0b00011#5 ++ 0b1110011#7) = .ok (.csrrs 3#5 1#5 0x305#12) ∧
    decode (0b001100000101#12 ++ 0b00001#5 ++ 0b011#3 ++ 0b00011#5 ++ 0b1110011#7) = .ok (.csrrc 3#5 1#5 0x305#12) ∧
    decode (0b001100000101#12 ++ 0b00001#5 ++ 0b101#3 ++ 0b00011#5 ++ 0b1110011#7) = .ok (.csrrwi 3#5 1#5 0x305#12) ∧
    decode (0b001100000101#12 ++ 0b00001#5 ++ 0b110#3 ++ 0b00011#5 ++ 0b1110011#7) = .ok (.csrrsi 3#5 1#5 0x305#12) ∧
    decode (0b001100000101#12 ++ 0b00001#5 ++ 0b111#3 ++ 0b00011#5 ++ 0b1110011#7) = .ok (.csrrci 3#5 1#5 0x305#12) := by decide

/-- 30_encoding.md R114, R279 to R281, R300. -/
theorem test_decode_system :
    decode (0b000000000000#12 ++ 0b00000#5 ++ 0b000#3 ++ 0b00000#5 ++ 0b1110011#7) = .ok (.ecall) ∧
    decode (0b000000000001#12 ++ 0b00000#5 ++ 0b000#3 ++ 0b00000#5 ++ 0b1110011#7) = .ok (.ebreak) ∧
    decode (0b001100000010#12 ++ 0b00000#5 ++ 0b000#3 ++ 0b00000#5 ++ 0b1110011#7) = .ok (.mret) ∧
    decode (0b100011111111#12 ++ 0b00001#5 ++ 0b000#3 ++ 0b00011#5 ++ 0b0001111#7) = .ok (.fence 3#5 1#5 0x8FF#12) := by decide

/-! ## One step -/

/-! Loads and stores: 95_test_vectors.md, Level 2. -/

theorem test_lb_sign_extends : goes 0x00008183 (base |>.setX 1#5 0x80001000#32
      |>.putWord 0x80001000#32 0x000000FF#32) (fun t =>
    t.x 3#5 == 0xFFFFFFFF#32) = true := by decide
theorem test_lh_sign_extends : goes 0x00009183 (base |>.setX 1#5 0x80001000#32
      |>.putWord 0x80001000#32 0x00008034#32) (fun t =>
    t.x 3#5 == 0xFFFF8034#32) = true := by decide
theorem test_lh_crosses_words : goes 0x00109183 (base |>.setX 1#5 0x80001000#32
      |>.putWord 0x80001000#32 0x00FF8000#32) (fun t =>
    t.x 3#5 == 0xFFFFFF80#32) = true := by decide
theorem test_lw_unaligned : goes 0x0020A183 (base |>.setX 1#5 0x80001000#32 |>.putWord 0x80001000#32 0x11223344#32
      |>.putWord 0x80001004#32 0xAABBCCDD#32) (fun t =>
    t.x 3#5 == 0xCCDD1122#32) = true := by decide
theorem test_lbu_zero_extends : goes 0x0000C183 (base |>.setX 1#5 0x80001000#32
      |>.putWord 0x80001000#32 0x000000FF#32) (fun t =>
    t.x 3#5 == 0x000000FF#32) = true := by decide
theorem test_lhu_zero_extends : goes 0x0000D183 (base |>.setX 1#5 0x80001000#32
      |>.putWord 0x80001000#32 0x00008034#32) (fun t =>
    t.x 3#5 == 0x00008034#32) = true := by decide
theorem test_sb_low_byte : goes 0x00208023 (base |>.setX 1#5 0x80001000#32 |>.setX 2#5 0x12345678#32
      |>.putWord 0x80000FFC#32 0xEEEEEEEE#32 |>.putWord 0x80001000#32 0xFFFFFFFF#32) (fun t =>
    t.wordAt 0x80000FFC == 0xEEEEEEEE#32 && t.wordAt 0x80001000 == 0xFFFFFF78#32) = true := by decide
theorem test_sh_unaligned : goes 0x002090A3 (base |>.setX 1#5 0x80001000#32 |>.setX 2#5 0x12345678#32
      |>.putWord 0x80000FFC#32 0xEEEEEEEE#32 |>.putWord 0x80001000#32 0xFFFFFFFF#32) (fun t =>
    t.wordAt 0x80000FFC == 0xEEEEEEEE#32 && t.wordAt 0x80001000 == 0xFF5678FF#32) = true := by decide
theorem test_sw_negative_offset : goes 0xFE20AFA3 (base |>.setX 1#5 0x80001000#32 |>.setX 2#5 0x12345678#32
      |>.putWord 0x80000FFC#32 0xEEEEEEEE#32 |>.putWord 0x80001000#32 0xFFFFFFFF#32) (fun t =>
    t.wordAt 0x80000FFC == 0x78EEEEEE#32 && t.wordAt 0x80001000 == 0xFF123456#32) = true := by decide
theorem test_lw_last_bytes_unmapped :
    halts 0x0000A183 (base |>.setX 1#5 0x8000FFFE#32) (.unmappedAddress 0x80010000#32) = true := by decide
theorem test_sw_last_bytes_unmapped :
    halts 0x0020A023 (base |>.setX 1#5 0x8000FFFE#32
      |>.setX 2#5 0xA1B2C3D4#32) (.unmappedAddress 0x80010000#32) = true := by decide

/-! ALU immediate: 95_test_vectors.md, Level 2. -/

theorem test_addi_wraps : goes 0x00108193 (base |>.setX 1#5 0xFFFFFFFF#32) (fun t =>
    t.x 3#5 == 0x00000000#32) = true := by decide
theorem test_addi_negative : goes 0x80008193 (base |>.setX 1#5 0x00000000#32) (fun t =>
    t.x 3#5 == 0xFFFFF800#32) = true := by decide
theorem test_sltiu_unsigned_below : goes 0xFFF0B193 (base |>.setX 1#5 0xFFFFFFFE#32) (fun t =>
    t.x 3#5 == 0x00000001#32) = true := by decide
theorem test_sltiu_unsigned_equal : goes 0xFFF0B193 (base |>.setX 1#5 0xFFFFFFFF#32) (fun t =>
    t.x 3#5 == 0x00000000#32) = true := by decide
theorem test_xori_sign_extends : goes 0xFFF0C193 (base |>.setX 1#5 0x0000F0F0#32) (fun t =>
    t.x 3#5 == 0xFFFF0F0F#32) = true := by decide
theorem test_ori_sign_extends : goes 0x8000E193 (base |>.setX 1#5 0x00000001#32) (fun t =>
    t.x 3#5 == 0xFFFFF801#32) = true := by decide
theorem test_andi_sign_extends : goes 0xFF00F193 (base |>.setX 1#5 0x12345678#32) (fun t =>
    t.x 3#5 == 0x12345670#32) = true := by decide
theorem test_slli_31 : goes 0x01F09193 (base |>.setX 1#5 0x00000003#32) (fun t =>
    t.x 3#5 == 0x80000000#32) = true := by decide
theorem test_srli_zero_fill : goes 0x0040D193 (base |>.setX 1#5 0x80000000#32) (fun t =>
    t.x 3#5 == 0x08000000#32) = true := by decide
theorem test_srai_sign_fill : goes 0x4040D193 (base |>.setX 1#5 0x80000000#32) (fun t =>
    t.x 3#5 == 0xF8000000#32) = true := by decide
theorem test_srai_31_positive : goes 0x41F0D193 (base |>.setX 1#5 0x7FFFFFFF#32) (fun t =>
    t.x 3#5 == 0x00000000#32) = true := by decide
theorem test_slti_absent :
    halts 0x0010A193 (base |>.setX 1#5 1#32) (.unimplementedInstruction 0x0010A193#32) = true := by decide

/-! ALU register: 95_test_vectors.md, Level 2. -/

theorem test_add_wraps : goes 0x002081B3 (base |>.setX 1#5 0xFFFFFFFF#32 |>.setX 2#5 0x00000001#32) (fun t =>
    t.x 3#5 == 0x00000000#32) = true := by decide
theorem test_sub_wraps : goes 0x402081B3 (base |>.setX 1#5 0x00000000#32 |>.setX 2#5 0x00000001#32) (fun t =>
    t.x 3#5 == 0xFFFFFFFF#32) = true := by decide
theorem test_sub_order : goes 0x402081B3 (base |>.setX 1#5 0x80000000#32 |>.setX 2#5 0x00000001#32) (fun t =>
    t.x 3#5 == 0x7FFFFFFF#32) = true := by decide
theorem test_sll_low_five_bits : goes 0x002091B3 (base |>.setX 1#5 0x00000001#32 |>.setX 2#5 0xFFFFFFE1#32) (fun t =>
    t.x 3#5 == 0x00000002#32) = true := by decide
theorem test_sll_by_32 : goes 0x002091B3 (base |>.setX 1#5 0x00000001#32 |>.setX 2#5 0x00000020#32) (fun t =>
    t.x 3#5 == 0x00000001#32) = true := by decide
theorem test_slt_signed : goes 0x0020A1B3 (base |>.setX 1#5 0x80000000#32 |>.setX 2#5 0x7FFFFFFF#32) (fun t =>
    t.x 3#5 == 0x00000001#32) = true := by decide
theorem test_slt_equal : goes 0x0020A1B3 (base |>.setX 1#5 0x00000005#32 |>.setX 2#5 0x00000005#32) (fun t =>
    t.x 3#5 == 0x00000000#32) = true := by decide
theorem test_sltu_below : goes 0x0020B1B3 (base |>.setX 1#5 0x00000000#32 |>.setX 2#5 0x00000001#32) (fun t =>
    t.x 3#5 == 0x00000001#32) = true := by decide
theorem test_sltu_above : goes 0x0020B1B3 (base |>.setX 1#5 0xFFFFFFFF#32 |>.setX 2#5 0x00000000#32) (fun t =>
    t.x 3#5 == 0x00000000#32) = true := by decide
theorem test_xor : goes 0x0020C1B3 (base |>.setX 1#5 0xFF00FF00#32 |>.setX 2#5 0x0F0F0F0F#32) (fun t =>
    t.x 3#5 == 0xF00FF00F#32) = true := by decide
theorem test_srl_low_five_bits : goes 0x0020D1B3 (base |>.setX 1#5 0x80000000#32 |>.setX 2#5 0xFFFFFFE1#32) (fun t =>
    t.x 3#5 == 0x40000000#32) = true := by decide
theorem test_sra_low_five_bits : goes 0x4020D1B3 (base |>.setX 1#5 0x80000000#32 |>.setX 2#5 0xFFFFFFE1#32) (fun t =>
    t.x 3#5 == 0xC0000000#32) = true := by decide
theorem test_or : goes 0x0020E1B3 (base |>.setX 1#5 0xF0000000#32 |>.setX 2#5 0x0000000F#32) (fun t =>
    t.x 3#5 == 0xF000000F#32) = true := by decide
theorem test_and : goes 0x0020F1B3 (base |>.setX 1#5 0xFFFF0000#32 |>.setX 2#5 0x0F0F0F0F#32) (fun t =>
    t.x 3#5 == 0x0F0F0000#32) = true := by decide
theorem test_add_one_register : goes 0x001080B3 (base |>.setX 1#5 0x40000001#32) (fun t =>
    t.x 1#5 == 0x80000002#32) = true := by decide

/-! Multiply and divide: 95_test_vectors.md, Level 2. -/

theorem test_mul_of_minus_ones : goes 0x022081B3 (base |>.setX 1#5 0xFFFFFFFF#32 |>.setX 2#5 0xFFFFFFFF#32) (fun t =>
    t.x 3#5 == 0x00000001#32) = true := by decide
theorem test_mulh_of_minima : goes 0x022091B3 (base |>.setX 1#5 0x80000000#32 |>.setX 2#5 0x80000000#32) (fun t =>
    t.x 3#5 == 0x40000000#32) = true := by decide
theorem test_mulh_mixed_signs : goes 0x022091B3 (base |>.setX 1#5 0x80000000#32 |>.setX 2#5 0x7FFFFFFF#32) (fun t =>
    t.x 3#5 == 0xC0000000#32) = true := by decide
theorem test_mulhu_of_maxima : goes 0x0220B1B3 (base |>.setX 1#5 0xFFFFFFFF#32 |>.setX 2#5 0xFFFFFFFF#32) (fun t =>
    t.x 3#5 == 0xFFFFFFFE#32) = true := by decide
theorem test_div_truncates : goes 0x0220C1B3 (base |>.setX 1#5 0xFFFFFFF9#32 |>.setX 2#5 0x00000002#32) (fun t =>
    t.x 3#5 == 0xFFFFFFFD#32) = true := by decide
theorem test_div_overflow : goes 0x0220C1B3 (base |>.setX 1#5 0x80000000#32 |>.setX 2#5 0xFFFFFFFF#32) (fun t =>
    t.x 3#5 == 0x80000000#32) = true := by decide
theorem test_divu_unsigned : goes 0x0220D1B3 (base |>.setX 1#5 0xFFFFFFF9#32 |>.setX 2#5 0x00000002#32) (fun t =>
    t.x 3#5 == 0x7FFFFFFC#32) = true := by decide
theorem test_divu_by_zero : goes 0x0220D1B3 (base |>.setX 1#5 0x00000005#32 |>.setX 2#5 0x00000000#32) (fun t =>
    t.x 3#5 == 0xFFFFFFFF#32) = true := by decide
theorem test_rem_sign_of_dividend : goes 0x0220E1B3 (base |>.setX 1#5 0xFFFFFFF9#32
      |>.setX 2#5 0x00000002#32) (fun t =>
    t.x 3#5 == 0xFFFFFFFF#32) = true := by decide
theorem test_rem_overflow : goes 0x0220E1B3 (base |>.setX 1#5 0x80000000#32 |>.setX 2#5 0xFFFFFFFF#32) (fun t =>
    t.x 3#5 == 0x00000000#32) = true := by decide
theorem test_remu_unsigned : goes 0x0220F1B3 (base |>.setX 1#5 0xFFFFFFF9#32 |>.setX 2#5 0x00000002#32) (fun t =>
    t.x 3#5 == 0x00000001#32) = true := by decide
theorem test_remu_by_zero : goes 0x0220F1B3 (base |>.setX 1#5 0x00000005#32 |>.setX 2#5 0x00000000#32) (fun t =>
    t.x 3#5 == 0x00000005#32) = true := by decide
theorem test_mulhsu_absent : halts 0x0220A1B3 (base) (.unimplementedInstruction 0x0220A1B3#32) = true := by decide

/-! Atomics: 95_test_vectors.md, Level 2. -/

theorem test_lrW_reserves : goes 0x1000A1AF (base |>.setX 1#5 0x80002000#32
      |>.putWord 0x80002000#32 0x11223344#32) (fun t =>
    t.x 3#5 == 0x11223344#32 && t.wordAt 0x80002000 == 0x11223344#32 &&
      t.reservation == some 0x80002000#32) = true := by decide
theorem test_scW_succeeds : goes 0x1820A1AF (base |>.setX 1#5 0x80002000#32 |>.setX 2#5 0x00000099#32
      |>.putWord 0x80002000#32 0x11223344#32 |>.setReservation (some 0x80002000#32)) (fun t =>
    t.x 3#5 == 0x00000000#32 && t.wordAt 0x80002000 == 0x00000099#32 && t.reservation == none) = true := by decide
theorem test_scW_other_address : goes 0x1820A1AF (base |>.setX 1#5 0x80002000#32 |>.setX 2#5 0x00000099#32
      |>.putWord 0x80002000#32 0x11223344#32 |>.setReservation (some 0x80002001#32)) (fun t =>
    t.x 3#5 == 0x00000001#32 && t.wordAt 0x80002000 == 0x11223344#32 && t.reservation == none) = true := by decide
theorem test_amoaddW_rd_is_rs2 : goes 0x0020A12F (base |>.setX 1#5 0x80002000#32 |>.setX 2#5 0x00000003#32
      |>.putWord 0x80002000#32 0x00000005#32) (fun t =>
    t.x 2#5 == 0x00000005#32 && t.wordAt 0x80002000 == 0x00000008#32 && t.reservation == none) = true := by decide
theorem test_amoaddW_rd_is_rs1 : goes 0x0020A0AF (base |>.setX 1#5 0x80002000#32 |>.setX 2#5 0x00000003#32
      |>.putWord 0x80002000#32 0x00000005#32) (fun t =>
    t.x 1#5 == 0x00000005#32 && t.wordAt 0x80002000 == 0x00000008#32 && t.reservation == none) = true := by decide
theorem test_amoorW_keeps_reservation : goes 0x4620A1AF (base |>.setX 1#5 0x80002000#32 |>.setX 2#5 0x000000F0#32
      |>.putWord 0x80002000#32 0x0000000F#32 |>.setReservation (some 0x80002000#32)) (fun t =>
    t.x 3#5 == 0x0000000F#32 && t.wordAt 0x80002000 == 0x000000FF#32 &&
      t.reservation == some 0x80002000#32) = true := by decide
theorem test_amoswap_absent :
    halts 0x0820A1AF (base |>.setX 1#5 0x80002000#32) (.unimplementedInstruction 0x0820A1AF#32) = true := by decide

/-! Branches: 95_test_vectors.md, Level 2. -/

theorem test_beq_taken_backward : goes 0xFE208CE3 ((base.redirect 0x80000010#32) |>.setX 1#5 0x00000007#32
      |>.setX 2#5 0x00000007#32) (fun t =>
    t.pc == 0x80000008#32) = true := by decide
theorem test_beq_not_taken : goes 0xFE208CE3 ((base.redirect 0x80000010#32) |>.setX 1#5 0x00000007#32
      |>.setX 2#5 0x00000008#32) (fun t =>
    t.pc == 0x80000014#32) = true := by decide
theorem test_blt_signed : goes 0x0020C863 ((base.redirect 0x80000010#32) |>.setX 1#5 0x80000000#32
      |>.setX 2#5 0x00000000#32) (fun t =>
    t.pc == 0x80000020#32) = true := by decide
theorem test_blt_signed_not : goes 0x0020C863 ((base.redirect 0x80000010#32) |>.setX 1#5 0x00000000#32
      |>.setX 2#5 0x80000000#32) (fun t =>
    t.pc == 0x80000014#32) = true := by decide
theorem test_bge_signed : goes 0x0020D863 ((base.redirect 0x80000010#32) |>.setX 1#5 0x00000000#32
      |>.setX 2#5 0x80000000#32) (fun t =>
    t.pc == 0x80000020#32) = true := by decide
theorem test_bge_equal : goes 0x0020D863 ((base.redirect 0x80000010#32) |>.setX 1#5 0x00000005#32
      |>.setX 2#5 0x00000005#32) (fun t =>
    t.pc == 0x80000020#32) = true := by decide
theorem test_bltu_unsigned_not : goes 0x0020E863 ((base.redirect 0x80000010#32) |>.setX 1#5 0xFFFFFFFF#32
      |>.setX 2#5 0x00000001#32) (fun t =>
    t.pc == 0x80000014#32) = true := by decide
theorem test_bltu_unsigned : goes 0x0020E863 ((base.redirect 0x80000010#32) |>.setX 1#5 0x00000001#32
      |>.setX 2#5 0xFFFFFFFF#32) (fun t =>
    t.pc == 0x80000020#32) = true := by decide
theorem test_bgeu_unsigned : goes 0x0020F863 ((base.redirect 0x80000010#32) |>.setX 1#5 0xFFFFFFFF#32
      |>.setX 2#5 0x00000001#32) (fun t =>
    t.pc == 0x80000020#32) = true := by decide
theorem test_bne_unaligned_target : goes 0x00209363 ((base.redirect 0x80000010#32) |>.setX 1#5 0x00000001#32
      |>.setX 2#5 0x00000000#32) (fun t =>
    t.pc == 0x80000016#32) = true := by decide

/-! Upper immediates and jumps: 95_test_vectors.md, Level 2. -/

theorem test_lui : goes 0x123450B7 (base) (fun t =>
    t.x 1#5 == 0x12345000#32 && t.pc == 0x80000004#32) = true := by decide
theorem test_auipc_wraps : goes 0xFFFFF297 (base) (fun t =>
    t.x 5#5 == 0x7FFFF000#32 && t.pc == 0x80000004#32) = true := by decide
theorem test_jal_unaligned_target : goes 0x006000EF (base) (fun t =>
    t.x 1#5 == 0x80000004#32 && t.pc == 0x80000006#32) = true := by decide
theorem test_jal_lowest_offset : goes 0x800000EF (base) (fun t =>
    t.x 1#5 == 0x80000004#32 && t.pc == 0x7FF00000#32) = true := by decide
theorem test_jalr_clears_bit_0 : goes 0x000100E7 (base |>.setX 2#5 0x80000101#32) (fun t =>
    t.x 1#5 == 0x80000004#32 && t.pc == 0x80000100#32) = true := by decide
theorem test_jalr_rd_is_rs1 : goes 0xFFF080E7 (base |>.setX 1#5 0x80000105#32) (fun t =>
    t.x 1#5 == 0x80000004#32 && t.pc == 0x80000104#32) = true := by decide

/-! CSR, system and fence: 95_test_vectors.md, Level 2. -/

theorem test_csrrw_rd_is_rs1 : goes 0x340292F3 (base |>.setX 5#5 0x00000009#32
      |>.putCsr 0x340#12 0x00000007#32) (fun t =>
    t.x 5#5 == 0x00000007#32 && t.csrValue .mscratch == 0x00000009#32) = true := by decide
theorem test_csrrs_mstatus : goes 0x3002A073 (base |>.setX 5#5 0x00000008#32) (fun t =>
    t.csrValue .mstatus == 0x00000008#32 && t.mode == 3#2) = true := by decide
theorem test_csrrw_mstatus : goes 0x30029373 (base |>.setX 5#5 0xFFFFFFFF#32) (fun t =>
    t.x 6#5 == 0x00000000#32 && t.csrValue .mstatus == 0x00001888#32 && t.mode == 3#2) = true := by decide
theorem test_csrrc_mip : goes 0x3442B373 (base |>.setX 5#5 0x00000080#32 |>.putCsr 0x344#12 0x00000080#32) (fun t =>
    t.x 6#5 == 0x00000080#32 && t.csrValue .mip == 0x00000000#32) = true := by decide
theorem test_csrrwi_x0_writes : goes 0x30405073 (base |>.putCsr 0x304#12 0x00000888#32) (fun t =>
    t.csrValue .mie == 0x00000000#32) = true := by decide
theorem test_csrrsi_reads_old : goes 0x300463F3 (base) (fun t =>
    t.x 7#5 == 0x00000000#32 && t.csrValue .mstatus == 0x00000008#32 && t.mode == 3#2) = true := by decide
theorem test_csrrci_mstatus : goes 0x30047073 (base |>.putCsr 0x300#12 0x00000088#32) (fun t =>
    t.csrValue .mstatus == 0x00000080#32 && t.mode == 3#2) = true := by decide
theorem test_csrrwi_mtvec : goes 0x305FD373 (base |>.putCsr 0x305#12 0x80000100#32) (fun t =>
    t.x 6#5 == 0x80000100#32 && t.csrValue .mtvec == 0x0000001F#32) = true := by decide
theorem test_csrrs_read_only_write :
    halts 0xF142A073 (base |>.setX 5#5 0x00000000#32) (.unknownCSR 0xF14#12 0xF142A073#32) = true := by decide
theorem test_ecall : goes 0x00000073 (base) (fun t =>
    t.pc == 0x80000004#32) = true := by decide
theorem test_ebreak : goes 0x00100073 (base) (fun t =>
    t.pc == 0x80000004#32) = true := by decide
theorem test_fence_tso : goes 0x8330000F (base) (fun t =>
    t.pc == 0x80000004#32) = true := by decide
theorem test_mret_machine : goes 0x30200073 (base |>.putCsr 0x341#12 0x80000100#32
      |>.putCsr 0x300#12 0x00001880#32) (fun t =>
    t.csrValue .mstatus == 0x00001888#32 && t.mode == 3#2 && t.pc == 0x80000100#32) = true := by decide
theorem test_mret_reserved_mode : goes 0x30200073 (base |>.putCsr 0x341#12 0x80000200#32
      |>.putCsr 0x300#12 0x1080#32) (fun t =>
    t.csrValue .mstatus == 0x00001888#32 && t.mode == 2#2 && t.pc == 0x80000200#32) = true := by decide
theorem test_wfi_absent : halts 0x10500073 (base) (.unimplementedInstruction 0x10500073#32) = true := by decide
/-! Interrupts and traps: 95_test_vectors.md T1, T2, T6. -/

/-- `mtvec = 0x80000040`, and the same bit pending and enabled. -/
def pendingBase (pc pending : Word) : State :=
  { base with pc := pc, mtvec := 0x80000040#32, mip := pending, mie := pending }

theorem test_T1_trap_after_enable : goes 0x30046073 (pendingBase 0x80000014#32 0x80#32) (fun t =>
    t.pc == 0x80000040#32 && t.mepc == 0x80000018#32 && t.mcause == 0x80000007#32 && t.mtval == 0#32 &&
    t.mstatus == 0x00001880#32 && t.mode == 3#2 && t.mip == 0x80#32) = true := by decide
theorem test_T2_no_trap_when_disabled : goes 0x00118193 (pendingBase 0x80000014#32 0x80#32) (fun t =>
    t.pc == 0x80000018#32 && t.x 3#5 == 1#32 && t.mepc == 0#32 && t.mcause == 0#32 && t.mip == 0x80#32) = true := by
  decide
theorem test_T6_unmodelled_interrupt :
    (match step ((pendingBase 0x8000000C#32 0x08#32).withFetchWord 32 0x30046073) with
      | .fault (.fatal r t) => r == .unmodelledInterrupt 0x08#32 && t.halt == some ⟨r, 0x80000010#32⟩ &&
        t.pc == 0x80000010#32 && t.statusMIE && t.instret == 1
      | _ => false) = true := by decide

/-! ## Witnesses: the hypotheses of each statement are met, each clause at a boundary of its range -/

theorem witness_running : Running base ∧ Running State.reset := ⟨⟨rfl, rfl, rfl⟩, ⟨rfl, rfl, rfl⟩⟩

/-- The last address from which four bytes are RAM, and the first from which they are not. -/
theorem witness_ram_edges :
    (∀ k, k < 4 → regionOf base.cfg (byteAddr 0x8000FFFC#32 k) = some .ram) ∧
    (∀ k, k < 3 → regionOf base.cfg (byteAddr 0x8000FFFD#32 k) ≠ none) ∧
    regionOf base.cfg (byteAddr 0x8000FFFD#32 3) = none := by decide

theorem witness_DecodeOfEncodeIsInstruction :
    (Instr.bgeu 31#5 31#5 0x1FFE#13).wf = true ∧ (Instr.jal 0#5 0x0FFFFE#21).wf = true := by decide
theorem witness_EncodeOfDecodeIsWord : decode 0x80208063#32 = .ok (.beq 1#5 2#5 0x1000#13) := by decide
theorem witness_DecodeFollowsOpcodeTable :
    decode 0xFFFFF0B7#32 = .ok (.lui 1#5 0xFFFFF#20) ∧ ∀ r ∈ opcodeTable, r.matchesWord 0xFFFFFFFF#32 = false := by
  decide

/-! The step. -/

theorem witness_StepRunsDecodedInstruction :
    Running (base.redirect 0x8000FFFC#32) ∧ Mapped (base.redirect 0x8000FFFC#32) 0x8000FFFC#32 4 ∧
    InRam (base.redirect 0x8000FFFC#32) 0x8000FFFC#32 4 ∧ Mapped (base.redirect 0x10000004#32) 0x10000004#32 4 ∧
    decode (leWord ((List.range 4).map fun k => (base.withFetchWord 32 0x73).ramByte (byteAddr 0x80000000#32 k))) =
      .ok .ecall :=
  ⟨⟨rfl, rfl, rfl⟩, by unfold Mapped; decide, by unfold InRam; decide, by unfold Mapped; decide, by decide⟩

theorem witness_RetireFollowsStepSequence :
    (∃ t, base.retired.interruptCheck = .next t) ∧
    ∃ f, ({ pendingBase 0#32 0x08#32 with statusMIE := true } : State).retired.interruptCheck = .fault f :=
  ⟨⟨_, rfl⟩, ⟨_, rfl⟩⟩

theorem witness_UnmappedFetchHaltsCore :
    Running (base.redirect 0x8000FFFD#32) ∧ FirstUnmapped (base.redirect 0x8000FFFD#32) 0x8000FFFD#32 3 ∧
    FirstUnmapped (base.redirect 0#32) 0#32 0 :=
  ⟨⟨rfl, rfl, rfl⟩, by unfold FirstUnmapped Mapped; decide, by unfold FirstUnmapped Mapped; decide⟩

theorem witness_UnmatchedWordHaltsCore :
    Running (base.withFetchWord 32 0x10500073) ∧
    (∃ u, fetch (base.withFetchWord 32 0x10500073) = .ok 0x10500073#32 u) ∧
    (∀ r ∈ opcodeTable, r.matchesWord 0x10500073#32 = false) ∧
    (opcodeField 0x0010A193#32 = 0x13#7 ∧ funct3Field 0x0010A193#32 = 0b010#3) ∧
    (opcodeField 0x0220A1B3#32 = 0x33#7 ∧ funct7Field 0x0220A1B3#32 = 0x01#7 ∧ funct3Field 0x0220A1B3#32 = 0b010#3) ∧
    (opcodeField 0x0820A1AF#32 = 0x2F#7 ∧ funct5Field 0x0820A1AF#32 = 0b00001#5) ∧
    (opcodeField 0x0000100F#32 = 0x0F#7 ∧ funct3Field 0x0000100F#32 ≠ 0b000#3) ∧
    (opcodeField 0x12000073#32 = 0x73#7 ∧ funct3Field 0x12000073#32 = 0b000#3 ∧
      funct7Field 0x12000073#32 = 0b0001001#7) ∧
    (0x00004501#32).extractLsb' 0 2 ≠ 0b11#2 :=
  ⟨⟨rfl, rfl, rfl⟩, ⟨_, rfl⟩, by decide, by decide, by decide, by decide, by decide, by decide, by decide⟩

theorem witness_NoStepWhenHaltedStoppedOrInvalid :
    validConfig base.cfg = true ∧ (base.halted (.unmappedAddress 0#32)).halt ≠ none ∧
    ({ base with stopped := true } : State).stopped = true ∧ base.halt = none ∧
    validConfig { base.cfg with ramSize := 0 } = false ∧ validConfig { base.cfg with uartBase := 0x8000FFFF } = false := by
  decide

theorem witness_StepKeepsInvariant :
    Machine.Inv (base.withFetchWord 32 0x00108193) ∧ ∃ t, step (base.withFetchWord 32 0x00108193) = .next t :=
  ⟨⟨by decide, rfl, by decide, by decide, by decide, by simp [State.withFetchWord, State.loadFetchWord, loadRam_eq, base, State.reset, State.launch]⟩,
    ⟨_, rfl⟩⟩

theorem witness_LaunchHasInvariant :
    validConfig base.cfg = true ∧ Memory.wf base.cfg.ramFill [(0x80000000, 1#8), (0x8000FFFF, 2#8)] = true ∧
    ∀ c ∈ ([(0x80000000, 1#8), (0x8000FFFF, 2#8)] : Memory), regionOf base.cfg c.1 = some .ram := by decide

theorem witness_LaunchStateValues : (31#5 : Reg) ≠ 0#5 ∧ csrReadable 0x300#12 ∧ csrReadable 0xF14#12 := by
  refine ⟨by decide, ?_, ?_⟩ <;> simp [csrReadable, csrWritable]

theorem fatal_of_halts {w : Nat} {s : State} {r : Fatal} (h : halts w s r = true) :
    ∃ t, step (s.withFetchWord 32 w) = .fault (.fatal r t) := by
  unfold halts at h
  split at h
  · next q t hs =>
    simp only [Bool.and_eq_true, beq_iff_eq] at h
    exact ⟨t, h.1.1.1 ▸ hs⟩
  all_goals cases h

/-- Each way a step is fatal: a fetch, a word of no row, a CSR, a store in part, the interrupt check. -/
theorem witness_FatalStepKeepsStateBeforeInstruction :
    (∃ t, step (base.redirect 0#32) = .fault (.fatal (.unmappedAddress 0#32) t)) ∧
    (∃ t, step (base.withFetchWord 32 0x10500073) = .fault (.fatal (.unimplementedInstruction 0x10500073#32) t)) ∧
    (∃ t, step (base.withFetchWord 32 0x30102373) = .fault (.fatal (.unknownCSR 0x301#12 0x30102373#32) t)) ∧
    (∃ t, step ((base.setX 1#5 0x8000FFFE#32).withFetchWord 32 0x0020A023) =
      .fault (.fatal (.unmappedAddress 0x80010000#32) t)) ∧
    Memory.wf base.cfg.ramFill ((base.setX 1#5 0x8000FFFE#32).withFetchWord 32 0x0020A023).mem = true ∧
    ∃ t, step ((pendingBase 0x8000000C#32 0x08#32).withFetchWord 32 0x30046073) =
      .fault (.fatal (.unmodelledInterrupt 0x08#32) t) :=
  ⟨⟨_, rfl⟩, fatal_of_halts (by decide), fatal_of_halts (by decide), fatal_of_halts (by decide), by decide, ⟨_, rfl⟩⟩

theorem next_of_goes {w : Nat} {s : State} {p : State → Bool} (h : goes w s p = true) :
    ∃ t, step (s.withFetchWord 32 w) = .next t ∧ p t = true := by
  unfold goes at h
  split at h
  · next t hs =>
    simp only [Bool.and_eq_true] at h
    exact ⟨t, hs, h.2⟩
  all_goals cases h

theorem witness_InstretCountsRetiredInstructions :
    (∃ t, step (base.withFetchWord 32 0x00000073) = .next t) ∧
    (∃ t, step (base.withFetchWord 32 0x10500073) = .fault (.fatal (.unimplementedInstruction 0x10500073#32) t)) ∧
    ∃ t, step ((pendingBase 0x8000000C#32 0x08#32).withFetchWord 32 0x30046073) =
      .fault (.fatal (.unmodelledInterrupt 0x08#32) t) :=
  ⟨⟨_, rfl⟩, fatal_of_halts (by decide), ⟨_, rfl⟩⟩

/-- The step that retires the last instruction of a run of one, and the first step of a run of two. -/
theorem witness_HostStopEndsRunAtMaxInsns :
    (∃ t, step (({ base with cfg := { base.cfg with maxInsns := some 1 } } : State).withFetchWord 32 0x73) = .next t ∧
      t.stopped = true) ∧
    ∃ t, step (({ base with cfg := { base.cfg with maxInsns := some 2 } } : State).withFetchWord 32 0x73) = .next t ∧
      (!t.stopped) = true :=
  ⟨next_of_goes (p := fun t => t.stopped) (by decide), next_of_goes (p := fun t => !t.stopped) (by decide)⟩

theorem witness_StoredWordIsFetched :
    Memory.wf base.cfg.ramFill base.mem = true ∧ InRam base base.pc 4 ∧
    InRam (base.redirect 0x8000FFFC#32) 0x8000FFFC#32 4 ∧ Running base ∧
    decode 0x00000297#32 = .ok (.auipc 5#5 0#20) :=
  ⟨by decide, by unfold InRam; decide, by unfold InRam; decide, ⟨rfl, rfl, rfl⟩, by decide⟩

/-! Loads, stores, atomics. -/

/-- x1 at the last RAM word, at the first address with an unmapped byte, at an unmapped address, and at the UART. -/
theorem witness_LoadsReadAndExtend :
    Mapped (base.setX 1#5 0x8000FFFC#32) ((base.setX 1#5 0x8000FFFC#32).baseDisp 1#5 0#12) 4 ∧
    Mapped (base.setX 1#5 0x10000008#32) ((base.setX 1#5 0x10000008#32).baseDisp 1#5 0xFFF#12) 1 ∧
    FirstUnmapped (base.setX 1#5 0x8000FFFD#32) ((base.setX 1#5 0x8000FFFD#32).baseDisp 1#5 0#12) 3 ∧
    FirstUnmapped base (base.baseDisp 0#5 0xFFF#12) 0 :=
  ⟨by unfold Mapped; decide, by unfold Mapped; decide, by unfold FirstUnmapped Mapped; decide,
    by unfold FirstUnmapped Mapped; decide⟩

theorem witness_StoresWriteTruncatedBytes :
    Mapped (base.setX 1#5 0x8000FFFE#32) ((base.setX 1#5 0x8000FFFE#32).baseDisp 1#5 0#12) 2 ∧
    Memory.wf (base.setX 1#5 0x8000FFFE#32).cfg.ramFill (base.setX 1#5 0x8000FFFE#32).mem = true ∧
    FirstUnmapped (base.setX 1#5 0x8000FFFE#32) ((base.setX 1#5 0x8000FFFE#32).baseDisp 1#5 0#12) 2 :=
  ⟨by unfold Mapped; decide, by decide, by unfold FirstUnmapped Mapped; decide⟩

theorem witness_LoadReservedLoadsAndReserves :
    Mapped (base.setX 1#5 0x80002001#32) ((base.setX 1#5 0x80002001#32).x 1#5) 4 ∧
    FirstUnmapped (base.setX 1#5 0x8000FFFF#32) ((base.setX 1#5 0x8000FFFF#32).x 1#5) 1 :=
  ⟨by unfold Mapped; decide, by unfold FirstUnmapped Mapped; decide⟩

/-- A held reservation of the address, mapped and not; another address; no reservation. -/
theorem witness_StoreConditionalSucceedsExactlyWhenReserved :
    (let s := (base.setX 1#5 0x8000FFFC#32).setReservation (some 0x8000FFFC#32);
      s.reservation = some (s.x 1#5) ∧ Mapped s (s.x 1#5) 4 ∧ Memory.wf s.cfg.ramFill s.mem = true) ∧
    (let s := (base.setX 1#5 0x8000FFFD#32).setReservation (some 0x8000FFFD#32);
      s.reservation = some (s.x 1#5) ∧ FirstUnmapped s (s.x 1#5) 3) ∧
    (let s := (base.setX 1#5 0x80002000#32).setReservation (some 0x80002001#32); s.reservation ≠ some (s.x 1#5)) ∧
    base.reservation ≠ some (base.x 0#5) :=
  ⟨⟨by decide, by unfold Mapped; decide, by decide⟩, ⟨by decide, by unfold FirstUnmapped Mapped; decide⟩, by decide,
    by decide⟩

theorem witness_AmoReadsModifiesAndWrites :
    (base.cfg.amoAlias = .fault → (1#5 : Reg) ≠ 0#5 → (1#5 : Reg) ≠ 1#5 ∧ (1#5 : Reg) ≠ 2#5) ∧
    (let s := ({ base with cfg := { base.cfg with amoAlias := .fault } } : State).setX 1#5 0x80002000#32;
      (s.cfg.amoAlias = .fault → (3#5 : Reg) ≠ 0#5 → (3#5 : Reg) ≠ 1#5 ∧ (3#5 : Reg) ≠ 2#5) ∧
      (s.cfg.amoAlias = .fault → (0#5 : Reg) ≠ 0#5 → (0#5 : Reg) ≠ 0#5 ∧ (0#5 : Reg) ≠ 0#5) ∧ Mapped s (s.x 1#5) 4) ∧
    FirstUnmapped base (base.x 1#5) 0 :=
  ⟨by decide, ⟨by decide, by decide, by unfold Mapped; decide⟩, by unfold FirstUnmapped Mapped; decide⟩

theorem witness_AliasedAmoFaultsWhenConfigured :
    ({ base.cfg with amoAlias := .fault } : Config).amoAlias = .fault ∧ (1#5 : Reg) ≠ 0#5 ∧
    ((1#5 : Reg) = 1#5 ∨ (1#5 : Reg) = 2#5) ∧ ((2#5 : Reg) = 1#5 ∨ (2#5 : Reg) = 2#5) := by decide

theorem witness_ReservationIsPrivateToLrAndSc :
    isReservationInstr .mret = false ∧ isReservationInstr (.amoaddW 3#5 1#5 2#5 true true) = false := by decide

/-- LR.W at 0x80002000, one instruction between, then SC.W: its own address in x1, another in x4. -/
def lrProgram : State :=
  ((((base.setX 1#5 0x80002000#32).setX 4#5 0x80002001#32).putWord 0x80000000#32 0x1000A1AF#32).putWord 0x80000004#32
    0x00000013#32).putWord 0x80000008#32 0x1820A2AF#32

theorem witness_StoreConditionalSucceedsAfterLoadReserved : ∃ t u s' u',
    Fetches lrProgram (.lrW 3#5 1#5 false false) s' ∧ step lrProgram = .next t ∧ QuietRun t u ∧
    Fetches u (.scW 5#5 1#5 2#5 false false) u' ∧ u.x 1#5 = lrProgram.x 1#5 ∧ u.x 4#5 ≠ lrProgram.x 1#5 ∧
    Memory.wf u.cfg.ramFill u.mem = true :=
  ⟨_, _, _, _, ⟨_, rfl, by decide⟩, rfl, .step (.refl _) ⟨_, rfl, by decide⟩ (i := .addi 0#5 0#5 0#12) rfl rfl,
    ⟨_, rfl, by decide⟩, rfl, by decide, by decide⟩

/-! ALU immediates: words of 95_test_vectors.md with a reserved selector. -/

theorem witness_AddiAndRightShiftImmediates :
    opcodeField 0x0210D193#32 = 0x13#7 ∧ funct3Field 0x0210D193#32 = 0b101#3 ∧ funct7Field 0x0210D193#32 ≠ 0x00#7 ∧
    funct7Field 0x0210D193#32 ≠ 0x20#7 := by decide
theorem witness_LogicalImmediatesSltiuAndSlli :
    opcodeField 0x40109193#32 = 0x13#7 ∧ funct3Field 0x40109193#32 = 0b001#3 ∧ funct7Field 0x40109193#32 ≠ 0x00#7 := by
  decide

/-! Divisions. -/

theorem witness_DivideResults :
    (base.cfg.divCorner = .fault → unsigned (base.x 2#5) ≠ 0 ∧
      ¬(signed (base.x 1#5) = -2 ^ 31 ∧ signed (base.x 2#5) = -1)) ∧
    (let s := ({ base with cfg := { base.cfg with divCorner := .fault } } : State).setX 1#5 0x80000000#32 |>.setX 2#5 1#32;
      s.cfg.divCorner = .fault → unsigned (s.x 2#5) ≠ 0 ∧ ¬(signed (s.x 1#5) = -2 ^ 31 ∧ signed (s.x 2#5) = -1)) := by
  decide
theorem witness_DivisionCornersFaultWhenConfigured :
    let s : State := { base with cfg := { base.cfg with divCorner := .fault } };
    let t := (s.setX 1#5 0x80000000#32).setX 2#5 0xFFFFFFFF#32;
    s.cfg.divCorner = .fault ∧ unsigned (s.x 2#5) = 0 ∧ t.cfg.divCorner = .fault ∧ signed (t.x 1#5) = -2 ^ 31 ∧
    signed (t.x 2#5) = -1 := by decide
theorem witness_DivisionLaw :
    let s := (base.setX 1#5 0x80000000#32).setX 2#5 0xFFFFFFFE#32;
    (3#5 : Reg) ≠ 0#5 ∧ unsigned (s.x 2#5) ≠ 0 ∧ ¬(signed (s.x 1#5) = -2 ^ 31 ∧ signed (s.x 2#5) = -1) := by decide

/-! Branches. -/

theorem witness_BranchesRedirectExactlyWhenTaken :
    let s := (base.setX 1#5 0x80000000#32).setX 2#5 0x7FFFFFFF#32;
    s.x 1#5 = s.x 1#5 ∧ s.x 1#5 ≠ s.x 2#5 ∧ signed (s.x 1#5) < signed (s.x 2#5) ∧
    ¬signed (s.x 2#5) ≤ signed (s.x 1#5) ∧ ¬unsigned (s.x 1#5) < unsigned (s.x 2#5) ∧
    unsigned (s.x 2#5) ≤ unsigned (s.x 1#5) := by decide

/-! CSRs, traps. -/

theorem witness_CsrReadPrimitive : ¬csrReadable 0x301#12 ∧ ¬csrReadable 0x345#12 ∧ ¬csrReadable 0xF15#12 := by
  unfold csrReadable csrWritable
  decide

/-- Each form with accesses its CSR allows: an identification CSR read and not written, mstatus read and written. -/
theorem witness_CsrInstructionsReadThenWrite :
    (∀ f ∈ csrForms 3#5 1#5 0x300#12, CsrAllowed f 0x300#12) ∧
    (∃ f ∈ csrForms 3#5 0#5 0xF14#12, CsrAllowed f 0xF14#12 ∧ f.writes = false) ∧
    ∃ f ∈ csrForms 0#5 1#5 0x344#12, CsrAllowed f 0x344#12 ∧ f.reads = false := by
  unfold CsrAllowed csrReadable csrWritable
  decide

/-- An unknown CSR read and written, and an identification CSR written. -/
theorem witness_DisallowedCsrAccessHaltsCore :
    (∀ f ∈ csrForms 3#5 0#5 0x301#12, ¬CsrAllowed f 0x301#12) ∧
    ∀ f ∈ csrForms 0#5 5#5 0xF14#12, ¬CsrAllowed f 0xF14#12 := by
  unfold CsrAllowed csrReadable csrWritable
  decide

theorem witness_TrapThenReturnRestores : ∃ t, base.enterTrap timerCause 0#32 = .ok t := ⟨_, rfl⟩

/-- Not enabled, not pending, the timer, another bit. -/
theorem witness_InterruptCheckAfterEachInstruction :
    (let s := pendingBase 0x80000014#32 0x80#32 |>.withFetchWord 32 0x00118193;
      Running s ∧ (∃ u, Fetches s (.addi 3#5 3#5 1#12) u) ∧ ∃ v, exec (.addi 3#5 3#5 1#12) s = .next v ∧
        v.statusMIE = false) ∧
    (let s := base.withFetchWord 32 0x30046073;
      ∃ v, exec (.csrrsi 0#5 8#5 0x300#12) s = .next v ∧ v.statusMIE = true ∧ v.retired.mip &&& v.mie = 0#32) ∧
    (let s := pendingBase 0x80000014#32 0x80#32 |>.withFetchWord 32 0x30046073;
      ∃ v, exec (.csrrsi 0#5 8#5 0x300#12) s = .next v ∧ v.statusMIE = true ∧
        (v.retired.mip &&& v.mie).getLsbD 7 = true) ∧
    (let s := pendingBase 0x80000014#32 0x08#32 |>.withFetchWord 32 0x30046073;
      ∃ v, exec (.csrrsi 0#5 8#5 0x300#12) s = .next v ∧ v.statusMIE = true ∧ v.retired.mip &&& v.mie ≠ 0#32 ∧
        (v.retired.mip &&& v.mie).getLsbD 7 = false) :=
  ⟨⟨⟨rfl, rfl, rfl⟩, ⟨_, _, rfl, by decide⟩, ⟨_, rfl, rfl⟩⟩, ⟨_, rfl, by decide, by decide⟩,
    ⟨_, rfl, by decide, by decide⟩, ⟨_, rfl, by decide, by decide, by decide⟩⟩

/-- A step with MRET, and one with a trap. -/
theorem witness_ModeChangesOnlyByTrapOrMret :
    (∃ t, step (base.withFetchWord 32 0x30200073) = .next t ∧ (t.mode == 0#2) = true) ∧
    ∃ t, step ((pendingBase 0x80000014#32 0x80#32).withFetchWord 32 0x30046073) = .next t ∧
      (t.mepc == 0x80000018#32) = true :=
  ⟨next_of_goes (p := fun t => t.mode == 0#2) (by decide), next_of_goes (p := fun t => t.mepc == 0x80000018#32) (by decide)⟩

theorem witness_PrivilegeModeGatesNothing : Instr.ecall ≠ .mret ∧ Instr.csrrw 0#5 1#5 0x300#12 ≠ .mret := by decide

/-- A CSR instruction that names another CSR, and a step that changes mscratch. -/
theorem witness_MscratchOnlyThroughCsrInstructions :
    csrNamed (.csrrw 6#5 5#5 0x341#12) ≠ some 0x340#12 ∧
    ∃ t, step ((base.setX 5#5 9#32).withFetchWord 32 0x34029373) = .next t ∧ (t.mscratch != 0#32) = true :=
  ⟨by decide, next_of_goes (p := fun t => t.mscratch != 0#32) (by decide)⟩

/-- A trap's cause and a CSR instruction's. -/
theorem witness_CauseChangesOnlyByTimerTrapOrCsrWrite :
    (∃ t, step ((pendingBase 0x80000014#32 0x80#32).withFetchWord 32 0x30046073) = .next t ∧
      (t.mcause != 0#32) = true) ∧
    ∃ t, step ((base.setX 5#5 0xB#32).withFetchWord 32 0x34229073) = .next t ∧ (t.mcause != 0#32) = true :=
  ⟨next_of_goes (p := fun t => t.mcause != 0#32) (by decide), next_of_goes (p := fun t => t.mcause != 0#32) (by decide)⟩

theorem witness_OnlyDestinationRegisterIsWritten :
    (∃ t, exec (.lui 3#5 1#20) base = .next t) ∧ destination (.lui 3#5 1#20) ≠ some 4#5 ∧
    destination (.fence 3#5 1#5 0#12) ≠ some 3#5 ∧ ∃ t, step (base.withFetchWord 32 0x73) = .next t :=
  ⟨⟨_, rfl⟩, by decide, by decide, ⟨_, rfl⟩⟩
theorem witness_OtherInstructionsKeepCsrs :
    isCsrInstr .ecall = false ∧ Instr.ecall ≠ .mret ∧ ∃ t, exec .ecall base = .next t :=
  ⟨rfl, by decide, ⟨_, rfl⟩⟩
theorem witness_OnlyMemoryInstructionsAccessMemory :
    isStoring (.lw 3#5 1#5 0#12) = false ∧ isStoring .ecall = false ∧ isLoading .ecall = false ∧
    (∃ t, exec .ecall base = .next t) ∧ ∃ t, exec (.lw 3#5 1#5 0#12) (base.setX 1#5 0x80000000#32) = .next t :=
  ⟨rfl, rfl, rfl, ⟨_, rfl⟩, ⟨_, rfl⟩⟩

/-! Memory. -/

/-- The first and last addresses of each region, and the ones next to them. -/
theorem witness_RouterRoutesEachByte :
    validConfig base.cfg = true ∧ regionOf base.cfg 0x80000000 = some .ram ∧ regionOf base.cfg 0x8000FFFF = some .ram ∧
    regionOf base.cfg 0x10000000 = some .uart ∧ regionOf base.cfg 0x10000007 = some .uart ∧
    regionOf base.cfg 0x02000000 = some .clint ∧ regionOf base.cfg 0x0200FFFF = some .clint ∧
    regionOf base.cfg 0x7FFFFFFF = none ∧ regionOf base.cfg 0x80010000 = none ∧ regionOf base.cfg 0x10000008 = none ∧
    regionOf base.cfg 0x01FFFFFF = none ∧ regionOf base.cfg 0x02010000 = none := by decide
theorem witness_RamReadAfterWrite :
    Memory.wf base.cfg.ramFill base.mem = true ∧ regionOf base.cfg (0x8000FFFF#32).toNat = some .ram ∧
    (0x80000000#32 : Word) ≠ 0x8000FFFF#32 ∧ regionOf base.cfg (0x80000000#32).toNat = some .ram := by decide
theorem witness_MixedWidthAccessesAreLittleEndian :
    Memory.wf base.cfg.ramFill base.mem = true ∧ InRam base 0x80000001#32 4 ∧ InRam base 0x8000FFFC#32 4 :=
  ⟨by decide, by unfold InRam; decide, by unfold InRam; decide⟩

end Sys2Proof.Machine
end

/-! # The state's own statements (10_state.md)

The retired-instruction count and `mscratch`: who changes them, and who sees them. -/

namespace Sys2Proof.Machine

/-- A fetch only adds to the device log, whether or not the word decodes. -/
theorem fetch_addIo {s u : State} {w : Word} (h : fetch s = .ok w u) : ∃ txs, u = s.addIo txs := by
  obtain ⟨bs, _, _, hu, _⟩ := fetch_ok h
  exact ⟨_, hu⟩

/-! ## The retired-instruction count (R50) -/

/-- No CSR shows the count. -/
theorem csrValue_instret (s : State) (k : Nat) (c : Csr) : State.csrValue { s with instret := k } c = s.csrValue c := by
  cases c <;> rfl

theorem csrRead_instret (s : State) (k : Nat) (n : CsrNum) (inst : Word) :
    State.csrRead { s with instret := k } n inst = s.csrRead n inst := by
  cases hc : csrOf n with
  | none => simp only [State.csrRead, hc]
  | some c => rw [csrRead_some inst hc, csrRead_some inst hc, csrValue_instret]

/-- Only the interrupt check raises `unmodelledInterrupt`, never an instruction. -/
theorem ExecReason.ne_unmodelledInterrupt {i : Instr} {s : State} {r : Fatal} (h : ExecReason i s r) (p : Word) :
    r ≠ .unmodelledInterrupt p := by
  obtain rfl | ⟨a, rfl, _⟩ | ⟨n, _, rfl⟩ := h <;> exact Fatal.noConfusion

theorem step_next_instret {s t : State} (h : step s = .next t) : t.instret = s.instret + 1 := by
  obtain ⟨w, u, i, v, _, hf, _, he, hr⟩ := step_next h
  obtain ⟨txs, rfl⟩ := fetch_addIo hf
  obtain ⟨_, _, _, _, _, hcount, _⟩ := retire_frame hr
  rw [hcount, (exec_next he).run.instret, addIo_instret]

/-- A fatal fetch, word or instruction is not counted; an instruction whose interrupt check is fatal has retired. -/
theorem step_fatal_instret {s t : State} {r : Fatal} (h : step s = .fault (.fatal r t)) :
    (t.instret = s.instret ∧ ∀ p, r ≠ .unmodelledInterrupt p) ∨
      (t.instret = s.instret + 1 ∧ ∃ p, r = .unmodelledInterrupt p) := by
  obtain ⟨_, ⟨k, bs, _, _, _, rfl, rfl⟩ | ⟨w, u, hf, _, rfl, rfl⟩ | ⟨w, u, i, hf, _, he⟩ |
    ⟨w, u, i, v, hf, _, he, rfl, rfl⟩⟩ := step_fatal h
  · exact .inl ⟨rfl, fun _ => Fatal.noConfusion⟩
  · obtain ⟨txs, rfl⟩ := fetch_addIo hf
    exact .inl ⟨rfl, fun _ => Fatal.noConfusion⟩
  · obtain ⟨txs, rfl⟩ := fetch_addIo hf
    obtain ⟨m, more, rfl, _, _, hreason⟩ := exec_fatal he
    exact .inl ⟨rfl, hreason.ne_unmodelledInterrupt⟩
  · obtain ⟨txs, rfl⟩ := fetch_addIo hf
    exact .inr ⟨by rw [halted_instret, retired_instret, (exec_next he).run.instret, addIo_instret], _, rfl⟩

/-- Settles O17: the count follows from what a step can do, and no CSR's value is built from it. -/
theorem instretCountsRetiredInstructions : Obligations.InstretCountsRetiredInstructions :=
  ⟨fun _ _ => step_next_instret, fun _ _ _ => step_fatal_instret, csrRead_instret⟩

/-! ## `mscratch` (R46) -/

/-- The state with another `mscratch`. -/
def State.putMscratch (v : Word) (s : State) : State := { s with mscratch := v }

theorem neutral_putMscratch (v : Word) : Neutral (State.putMscratch v) := by
  constructor <;> intros <;> rfl

theorem setMstatus_putMscratch (s : State) (v w : Word) :
    (s.putMscratch v).setMstatus w = (s.setMstatus w).map (State.putMscratch v) := by
  have hm : (s.putMscratch v).mstatus = s.mstatus := rfl
  simp only [State.setMstatus, privilegeField_toNat, hm]
  split <;> split <;> split <;> rfl

theorem csrRead_putMscratch {n : CsrNum} (hn : n ≠ Csr.mscratch.number) (s : State) (v inst : Word) :
    (s.putMscratch v).csrRead n inst = s.csrRead n inst := by
  cases hc : csrOf n with
  | none => simp only [State.csrRead, hc]
  | some c =>
    rw [csrRead_some inst hc, csrRead_some inst hc]
    cases c
    case mscratch => exact absurd ((csrOf_some_iff n _).1 hc) hn
    all_goals rfl

theorem csrWrite_putMscratch {n : CsrNum} (hn : n ≠ Csr.mscratch.number) (s : State) (v w inst : Word) :
    (s.putMscratch v).csrWrite n w inst = (s.csrWrite n w inst).map (State.putMscratch v) := by
  unfold State.csrWrite
  cases hc : csrOf n with
  | none => rfl
  | some c =>
    cases c
    case mstatus => exact setMstatus_putMscratch s v w
    case mscratch => exact absurd ((csrOf_some_iff n _).1 hc) hn
    all_goals rfl

/-- An instruction that does not name `mscratch` neither sees nor changes it. -/
theorem exec_putMscratch {i : Instr} (hi : csrNamed i ≠ some Csr.mscratch.number) (s : State) (v : Word) :
    exec i (s.putMscratch v) = mapResult (State.putMscratch v) (exec i s) := by
  refine exec_neutral (neutral_putMscratch v) i s (fun _ _ => ⟨rfl, fun _ => rfl⟩) (fun n inst hn => ?_) (fun _ => ?_)
  · have hne : n ≠ Csr.mscratch.number := fun h => hi (hn.trans (congrArg some h))
    exact ⟨csrRead_putMscratch hne s v inst, fun w => csrWrite_putMscratch hne s v w inst⟩
  · simp only [State.returnFromTrap, privilegeField_toNat, State.putMscratch]
    rfl

/-- The fetch and the retirement, traps included, keep `mscratch`: its change is the executed instruction's. -/
theorem step_changes_mscratch {s t : State} (h : step s = .next t) (hne : t.mscratch ≠ s.mscratch) :
    ∃ i u, Fetches s i u ∧ csrNamed i = some Csr.mscratch.number := by
  obtain ⟨w, u, i, v, _, hf, hd, he, hr⟩ := step_next h
  have hfetches : Fetches s i u := ⟨w, hf, hd⟩
  obtain ⟨txs, rfl⟩ := fetch_addIo hf
  obtain ⟨_, _, _, _, _, _, _, hretire, _⟩ := retire_frame hr
  refine ⟨i, _, hfetches, by_contra fun hi => hne ?_⟩
  rw [hretire, (exec_next he).mscratch hi, addIo_mscratch]

/-- Settles O52: `mscratch` is neutral for every instruction that does not name it, and nothing else in a step writes
it. -/
theorem mscratchOnlyThroughCsrInstructions : Obligations.MscratchOnlyThroughCsrInstructions :=
  ⟨fun _ s v hi => exec_putMscratch hi s v, fun _ _ => step_changes_mscratch⟩

end Sys2Proof.Machine

/-! # ALU with an immediate operand (41_alu_immediate.md)

The right shifts as divisions by a power of two, and what OP-IMM decodes where `funct3` selects a right shift. -/

namespace Sys2Proof.Machine

/-- A logical right shift is the unsigned quotient (R157, R177). -/
theorem unsigned_ushiftRight (v : Word) (n : Nat) : unsigned (v >>> n) = unsigned v / 2 ^ n := by
  rw [unsigned, unsigned, BitVec.toNat_ushiftRight, Nat.shiftRight_eq_div_pow]

/-- An arithmetic right shift is the signed quotient, rounded down (R158, R178). -/
theorem signed_sshiftRight (v : Word) (n : Nat) : signed (v.sshiftRight n) = signed v / 2 ^ n := by
  rw [signed, signed, BitVec.toInt_sshiftRight, Int.shiftRight_eq_div_pow, Nat.cast_pow, Nat.cast_ofNat]

theorem decodeWord_of_opImm {w : Word} (ho : opcodeField w = 0x13#7) : decodeWord w = decodeOpImm w := by
  simp [decodeWord, ho]

/-- R113: the selector alone tells SRLI, SRAI and a reserved word apart. -/
theorem decodeOpImm_of_rightShift {w : Word} (h3 : funct3Field w = 0b101#3) :
    decodeOpImm w =
      if funct7Field w = 0x00#7 then some (.srli (rdField w) (rs1Field w) (rs2Field w))
      else if funct7Field w = 0x20#7 then some (.srai (rdField w) (rs1Field w) (rs2Field w))
      else none := by
  simp [decodeOpImm, h3]

theorem regLaw_addi (rd rs1 : Reg) (imm : BitVec 12) :
    RegLaw (.addi rd rs1 imm) "ADDI" rd fun s v =>
      (unsigned v : Int) = (unsigned (s.x rs1) + imm.toInt) % 2 ^ 32 :=
  regLaw_of_writeBack (Laws.EncodeMatchesRow.addi rd rs1 imm) (fun _ => rfl) fun s => by
    rw [unsigned_add_signed, sext12_toInt]

theorem regLaw_srli (rd rs1 : Reg) (shamt : BitVec 5) :
    RegLaw (.srli rd rs1 shamt) "SRLI" rd fun s v => unsigned v = unsigned (s.x rs1) / 2 ^ shamt.toNat :=
  regLaw_of_writeBack (Laws.EncodeMatchesRow.srli rd rs1 shamt) (fun _ => rfl) fun _ => unsigned_ushiftRight ..

theorem regLaw_srai (rd rs1 : Reg) (shamt : BitVec 5) :
    RegLaw (.srai rd rs1 shamt) "SRAI" rd fun s v => signed v = signed (s.x rs1) / 2 ^ shamt.toNat :=
  regLaw_of_writeBack (Laws.EncodeMatchesRow.srai rd rs1 shamt) (fun _ => rfl) fun _ => signed_sshiftRight ..

theorem rejectsWord_of_reservedRightShift {w : Word} (ho : opcodeField w = 0x13#7) (h3 : funct3Field w = 0b101#3)
    (hsrl : funct7Field w ≠ 0x00#7) (hsra : funct7Field w ≠ 0x20#7) : RejectsWord w := by
  have hdecode : decodeWord w = none := by
    rw [decodeWord_of_opImm ho, decodeOpImm_of_rightShift h3, if_neg hsrl, if_neg hsra]
  exact rejectsWord_of_decodeWord hdecode

/-- Settles O23: each instruction is a write-back of the rule's value, and a reserved selector decodes to nothing. -/
theorem addiAndRightShiftImmediates : Obligations.AddiAndRightShiftImmediates :=
  ⟨regLaw_addi, regLaw_srli, regLaw_srai, fun _ => rejectsWord_of_reservedRightShift⟩

end Sys2Proof.Machine

/-! # ALU with register operands (42_alu_register.md)

The difference, the left shift and the comparisons as numbers; then one register law per instruction. -/

namespace Sys2Proof.Machine

/-- A difference wraps modulo 2^32: the integer difference, reduced (R172). -/
theorem unsigned_sub (a b : Word) : (unsigned (a - b) : Int) = ((unsigned a : Int) - unsigned b) % 2 ^ 32 := by
  rw [unsigned, unsigned, unsigned, BitVec.toNat_sub]
  omega

/-- A left shift multiplies by a power of two and wraps (R156, R173). -/
theorem unsigned_shiftLeft (v : Word) (n : Nat) : unsigned (v <<< n) = unsigned v * 2 ^ n % 2 ^ 32 := by
  rw [unsigned, unsigned, BitVec.toNat_shiftLeft, Nat.shiftLeft_eq]

/-- The word of a signed comparison (R174). -/
theorem unsigned_boolWord_lessSigned (a b : Word) :
    unsigned (boolWord (lessSigned a b)) = if signed a < signed b then 1 else 0 := by
  simp only [unsigned_boolWord, lessSigned_iff]

/-- The word of an unsigned comparison (R152, R175). -/
theorem unsigned_boolWord_lessUnsigned (a b : Word) :
    unsigned (boolWord (lessUnsigned a b)) = if unsigned a < unsigned b then 1 else 0 := by
  simp only [unsigned_boolWord, lessUnsigned_iff]

section

variable (rd rs1 rs2 : Reg)

/-! ## Arithmetic and comparisons -/

theorem regLaw_add :
    RegLaw (.add rd rs1 rs2) "ADD" rd fun s v => unsigned v = (unsigned (s.x rs1) + unsigned (s.x rs2)) % 2 ^ 32 :=
  regLaw_of_writeBack (Laws.EncodeMatchesRow.add rd rs1 rs2) (fun _ => rfl) fun _ => BitVec.toNat_add ..

theorem regLaw_sub :
    RegLaw (.sub rd rs1 rs2) "SUB" rd fun s v =>
      (unsigned v : Int) = ((unsigned (s.x rs1) : Int) - unsigned (s.x rs2)) % 2 ^ 32 :=
  regLaw_of_writeBack (Laws.EncodeMatchesRow.sub rd rs1 rs2) (fun _ => rfl) fun _ => unsigned_sub ..

theorem regLaw_slt :
    RegLaw (.slt rd rs1 rs2) "SLT" rd fun s v => unsigned v = if signed (s.x rs1) < signed (s.x rs2) then 1 else 0 :=
  regLaw_of_writeBack (Laws.EncodeMatchesRow.slt rd rs1 rs2) (fun _ => rfl) fun _ => unsigned_boolWord_lessSigned ..

theorem regLaw_sltu :
    RegLaw (.sltu rd rs1 rs2) "SLTU" rd fun s v =>
      unsigned v = if unsigned (s.x rs1) < unsigned (s.x rs2) then 1 else 0 :=
  regLaw_of_writeBack (Laws.EncodeMatchesRow.sltu rd rs1 rs2) (fun _ => rfl) fun _ =>
    unsigned_boolWord_lessUnsigned ..

/-! ## Shifts, by the low five bits of `x[rs2]` (R170) -/

theorem regLaw_sll :
    RegLaw (.sll rd rs1 rs2) "SLL" rd fun s v =>
      unsigned v = unsigned (s.x rs1) * 2 ^ (unsigned (s.x rs2) % 32) % 2 ^ 32 :=
  regLaw_of_writeBack (Laws.EncodeMatchesRow.sll rd rs1 rs2) (fun _ => rfl) fun s => by
    rw [unsigned_shiftLeft, shiftAmount_eq]

theorem regLaw_srl :
    RegLaw (.srl rd rs1 rs2) "SRL" rd fun s v =>
      unsigned v = unsigned (s.x rs1) / 2 ^ (unsigned (s.x rs2) % 32) :=
  regLaw_of_writeBack (Laws.EncodeMatchesRow.srl rd rs1 rs2) (fun _ => rfl) fun s => by
    rw [unsigned_ushiftRight, shiftAmount_eq]

theorem regLaw_sra :
    RegLaw (.sra rd rs1 rs2) "SRA" rd fun s v => signed v = signed (s.x rs1) / 2 ^ (unsigned (s.x rs2) % 32) :=
  regLaw_of_writeBack (Laws.EncodeMatchesRow.sra rd rs1 rs2) (fun _ => rfl) fun s => by
    rw [signed_sshiftRight, shiftAmount_eq]

/-! ## Logic, bit by bit -/

theorem regLaw_xor :
    RegLaw (.xor rd rs1 rs2) "XOR" rd fun s v =>
      ∀ k, k < 32 → v.getLsbD k = ((s.x rs1).getLsbD k ^^ (s.x rs2).getLsbD k) :=
  regLaw_of_writeBack (Laws.EncodeMatchesRow.xor rd rs1 rs2) (fun _ => rfl) fun _ _ _ => BitVec.getLsbD_xor

theorem regLaw_or :
    RegLaw (.or rd rs1 rs2) "OR" rd fun s v =>
      ∀ k, k < 32 → v.getLsbD k = ((s.x rs1).getLsbD k || (s.x rs2).getLsbD k) :=
  regLaw_of_writeBack (Laws.EncodeMatchesRow.or rd rs1 rs2) (fun _ => rfl) fun _ _ _ => BitVec.getLsbD_or

theorem regLaw_and :
    RegLaw (.and rd rs1 rs2) "AND" rd fun s v =>
      ∀ k, k < 32 → v.getLsbD k = ((s.x rs1).getLsbD k && (s.x rs2).getLsbD k) :=
  regLaw_of_writeBack (Laws.EncodeMatchesRow.and rd rs1 rs2) (fun _ => rfl) fun _ _ _ => BitVec.getLsbD_and

end

/-- Settles O25: each instruction is a write-back of the wrapped sum or difference, or of the comparison's word. -/
theorem aluRegisterArithmeticAndCompare : Obligations.AluRegisterArithmeticAndCompare := fun rd rs1 rs2 =>
  ⟨regLaw_add rd rs1 rs2, regLaw_sub rd rs1 rs2, regLaw_slt rd rs1 rs2, regLaw_sltu rd rs1 rs2⟩

/-- Settles O26: each instruction is a write-back of the shifted value, or of the word combined bit by bit. -/
theorem aluRegisterLogicAndShifts : Obligations.AluRegisterLogicAndShifts := fun rd rs1 rs2 =>
  ⟨regLaw_sll rd rs1 rs2, regLaw_xor rd rs1 rs2, regLaw_srl rd rs1 rs2, regLaw_sra rd rs1 rs2, regLaw_or rd rs1 rs2,
    regLaw_and rd rs1 rs2⟩

end Sys2Proof.Machine

/-! # Multiplication (43_muldiv.md)

Each result word as a number: the integer product, cut to its low or its high half (R190). Then one register law per
instruction. -/

namespace Sys2Proof.Machine

/-- Cutting an integer to `n` bits leaves its residue modulo `2^n`. -/
theorem natCast_toNat_ofInt (n : Nat) (z : Int) : ((BitVec.ofInt n z).toNat : Int) = z % 2 ^ n := by
  rw [BitVec.toNat_ofInt, Nat.cast_pow, Nat.cast_ofNat, Int.toNat_of_nonneg (Int.emod_nonneg z (by positivity))]

/-- The upper half of a doubleword is its quotient by 2^32. -/
theorem unsigned_upperHalf (p : BitVec 64) : unsigned (p.extractLsb' 32 32) = p.toNat / 2 ^ 32 := by
  have := p.isLt
  rw [unsigned, BitVec.extractLsb'_toNat, Nat.shiftRight_eq_div_pow]
  omega

/-! ## The three result words -/

/-- Modulo 2^32 the signed product is the wrapping product of the words. -/
theorem mulLow_eq_mul (a b : Word) : mulLow a b = a * b := by
  rw [mulLow, signed, signed, BitVec.ofInt_mul, BitVec.ofInt_toInt, BitVec.ofInt_toInt]

/-- MUL by the signed reading of its operands (R191). -/
theorem unsigned_mulLow_signed (a b : Word) : (unsigned (mulLow a b) : Int) = signed a * signed b % 2 ^ 32 :=
  natCast_toNat_ofInt 32 _

/-- MUL by the unsigned reading of its operands (R191). -/
theorem unsigned_mulLow_unsigned (a b : Word) : unsigned (mulLow a b) = unsigned a * unsigned b % 2 ^ 32 := by
  rw [mulLow_eq_mul, unsigned, BitVec.toNat_mul, unsigned, unsigned]

theorem unsigned_mulHighSigned (a b : Word) :
    (unsigned (mulHighSigned a b) : Int) = signed a * signed b % 2 ^ 64 / 2 ^ 32 := by
  rw [mulHighSigned, unsigned_upperHalf, Int.natCast_ediv, natCast_toNat_ofInt, Nat.cast_pow, Nat.cast_ofNat]

theorem unsigned_mulHighUnsigned (a b : Word) :
    unsigned (mulHighUnsigned a b) = unsigned a * unsigned b / 2 ^ 32 := by
  have hfits : unsigned a * unsigned b < 2 ^ 64 :=
    (Nat.mul_lt_mul'' a.isLt b.isLt).trans_eq (pow_add 2 32 32).symm
  rw [mulHighUnsigned, unsigned_upperHalf, BitVec.toNat_ofNat, Nat.mod_eq_of_lt hfits]

section

variable (rd rs1 rs2 : Reg)

theorem regLaw_mul :
    RegLaw (.mul rd rs1 rs2) "MUL" rd fun s v =>
      (unsigned v : Int) = signed (s.x rs1) * signed (s.x rs2) % 2 ^ 32 ∧
      unsigned v = unsigned (s.x rs1) * unsigned (s.x rs2) % 2 ^ 32 :=
  regLaw_of_writeBack (Laws.EncodeMatchesRow.mul rd rs1 rs2) (fun _ => rfl) fun _ =>
    ⟨unsigned_mulLow_signed .., unsigned_mulLow_unsigned ..⟩

theorem regLaw_mulh :
    RegLaw (.mulh rd rs1 rs2) "MULH" rd fun s v =>
      (unsigned v : Int) = signed (s.x rs1) * signed (s.x rs2) % 2 ^ 64 / 2 ^ 32 :=
  regLaw_of_writeBack (Laws.EncodeMatchesRow.mulh rd rs1 rs2) (fun _ => rfl) fun _ => unsigned_mulHighSigned ..

theorem regLaw_mulhu :
    RegLaw (.mulhu rd rs1 rs2) "MULHU" rd fun s v =>
      unsigned v = unsigned (s.x rs1) * unsigned (s.x rs2) / 2 ^ 32 :=
  regLaw_of_writeBack (Laws.EncodeMatchesRow.mulhu rd rs1 rs2) (fun _ => rfl) fun _ => unsigned_mulHighUnsigned ..

end

/-- Settles O27: each instruction is a write-back of the product's low or high word. -/
theorem multiplyResults : Obligations.MultiplyResults := fun rd rs1 rs2 =>
  ⟨regLaw_mul rd rs1 rs2, regLaw_mulh rd rs1 rs2, regLaw_mulhu rd rs1 rs2⟩

end Sys2Proof.Machine

/-! # Upper immediates (46_upper_immediate.md)

Both instructions place the 20-bit field in bits 31:12, which is the number `imm * 4096`; then one register law per
instruction. -/

namespace Sys2Proof.Machine

/-- R250: the shifted field needs no reduction, since a 20-bit field times 4096 fits a word. -/
theorem regLaw_lui (rd : Reg) (imm : BitVec 20) :
    RegLaw (.lui rd imm) "LUI" rd fun _ v => unsigned v = imm.toNat * 4096 :=
  regLaw_of_writeBack (Laws.EncodeMatchesRow.lui rd imm) (fun _ => rfl) fun _ => upperImm_toNat imm

/-- R251: the sum is taken from the state before the step, so `pc` is the address of the AUIPC itself. -/
theorem regLaw_auipc (rd : Reg) (imm : BitVec 20) :
    RegLaw (.auipc rd imm) "AUIPC" rd fun s v => unsigned v = (unsigned s.pc + imm.toNat * 4096) % 2 ^ 32 :=
  regLaw_of_writeBack (Laws.EncodeMatchesRow.auipc rd imm) (fun _ => rfl) fun s => by
    rw [unsigned, BitVec.toNat_add, upperImm_toNat, unsigned]

/-- Settles O38: each instruction is a write-back of the shifted field, alone or added to `pc`. -/
theorem upperImmediates : Obligations.UpperImmediates := fun rd imm => ⟨regLaw_lui rd imm, regLaw_auipc rd imm⟩

end Sys2Proof.Machine

/-! # Jumps (47_jumps.md)

What the shared ending of the jumps does: `pc` takes the target, then `rd` takes the link. -/

namespace Sys2Proof.Machine

/-- The link as a number, modulo 2^32 (R260). -/
theorem unsigned_link (s : State) : unsigned s.link = (unsigned s.pc + 4) % 2 ^ 32 :=
  BitVec.toNat_add s.pc 4#32

/-- The target as a number: the offset counts with its sign, modulo 2^32 (R260). -/
theorem unsigned_pcRelative_sext21 (s : State) (imm : BitVec 21) :
    (unsigned (s.pcRelative (sext21 imm)) : Int) = (unsigned s.pc + imm.toInt) % 2 ^ 32 := by
  rw [State.pcRelative, unsigned_add_signed, sext21_toInt]

/-- A jump and its link touch nothing but `pc` and a register. -/
theorem regFrame_jump (s : State) (target : Word) (rd : Reg) (v : Word) :
    RegFrame s ((s.redirect target).setX rd v) where
  csrs := by constructor <;> simp
  run := by constructor <;> simp
  reservation := by simp
  ram := sameRam_of_mem (by simp) (by simp)
  io := by simp

/-- Settles O39: the jump's state is `s` redirected to the target, with the link then written to `rd`. -/
theorem jalLinksAndJumps : Obligations.JalLinksAndJumps := by
  refine fun rd imm => ⟨Laws.EncodeMatchesRow.jal rd imm, fun s => ⟨_, rfl, ?link, regFrame_jump .., ?target⟩⟩
  case link => exact writesReg_write (fun _ => rfl) (unsigned_link s)
  case target => rw [setX_pc, redirect_pc, unsigned_pcRelative_sext21]

end Sys2Proof.Machine

/-! # Decoding and encoding (30_encoding.md)

The decoder's first level by major opcode, then the two round trips, the opcode table, and the words of no row. -/

namespace Sys2Proof

section

variable {w : Word}

/-! ## The first level of the dispatch (R111) -/

theorem decodeWord_of_load (ho : opcodeField w = 0x03#7) : decodeWord w = decodeLoad w := by
  simp [decodeWord, ho]

theorem decodeWord_of_miscMem (ho : opcodeField w = 0x0F#7) :
    decodeWord w =
      if funct3Field w = 0b000#3 then some (.fence (rdField w) (rs1Field w) (immIField w)) else none := by
  simp [decodeWord, ho]

theorem decodeWord_of_store (ho : opcodeField w = 0x23#7) : decodeWord w = decodeStore w := by
  simp [decodeWord, ho]

theorem decodeWord_of_amo (ho : opcodeField w = 0x2F#7) : decodeWord w = decodeAmo w := by
  simp [decodeWord, ho]

theorem decodeWord_of_op (ho : opcodeField w = 0x33#7) : decodeWord w = decodeOp w := by
  simp [decodeWord, ho]

theorem decodeWord_of_branch (ho : opcodeField w = 0x63#7) : decodeWord w = decodeBranch w := by
  simp [decodeWord, ho]

theorem decodeWord_of_system (ho : opcodeField w = 0x73#7) : decodeWord w = decodeSystem w := by
  simp [decodeWord, ho]

theorem decodeWord_of_auipc (ho : opcodeField w = 0x17#7) :
    decodeWord w = some (.auipc (rdField w) (immUField w)) := by
  simp [decodeWord, ho]

theorem decodeWord_of_lui (ho : opcodeField w = 0x37#7) : decodeWord w = some (.lui (rdField w) (immUField w)) := by
  simp [decodeWord, ho]

theorem decodeWord_of_jalr (ho : opcodeField w = 0x67#7) :
    decodeWord w =
      if funct3Field w = 0b000#3 then some (.jalr (rdField w) (rs1Field w) (immIField w)) else none := by
  simp [decodeWord, ho]

theorem decodeWord_of_jal (ho : opcodeField w = 0x6F#7) : decodeWord w = some (.jal (rdField w) (immJField w)) := by
  simp [decodeWord, ho]

/-- The major opcodes of R111. -/
def majorOpcodes : List (BitVec 7) :=
  [0x03#7, 0x0F#7, 0x13#7, 0x17#7, 0x23#7, 0x2F#7, 0x33#7, 0x37#7, 0x63#7, 0x67#7, 0x6F#7, 0x73#7]

theorem decodeWord_of_otherOpcode (ho : opcodeField w ∉ majorOpcodes) : decodeWord w = none := by
  simp only [majorOpcodes, List.mem_cons, List.not_mem_nil, or_false, not_or] at ho
  simp [decodeWord, ho]

theorem opcode_mem_of_decodeWord {i : Instr} (h : decodeWord w = some i) : opcodeField w ∈ majorOpcodes := by
  by_contra ho
  rw [decodeWord_of_otherOpcode ho] at h
  cases h

theorem decode_ok_iff {i : Instr} : decode w = .ok i ↔ decodeWord w = some i := by
  cases h : decodeWord w <;> simp [decode, h]

theorem decode_error_iff : decode w = .error (.unimplemented w) ↔ decodeWord w = none := by
  cases h : decodeWord w <;> simp [decode, h]

end

/-! ## Decoding an encoded instruction (R102) -/

/-- Each format's fields read back, so the dispatch finds the row again; odd offsets are no offsets. -/
theorem decodeWord_encode (i : Instr) (hwf : i.wf = true) : decodeWord (encode i) = some i := by
  cases i with
  | lb | lh | lw | lbu | lhu => simp [encode, decodeWord_of_load, decodeLoad]
  | sb | sh | sw => simp [encode, decodeWord_of_store, decodeStore]
  | addi | sltiu | xori | ori | andi | slli | srli | srai =>
    simp [encode, decodeWord, decodeOpImm]
  | add | sll | slt | sltu | xor | srl | or | and =>
    simp [encode, decodeWord_of_op, decodeOp, decodeOpBase]
  | sub | sra => simp [encode, decodeWord_of_op, decodeOp, decodeOpAlt]
  | mul | mulh | mulhu | div | divu | rem | remu => simp [encode, decodeWord_of_op, decodeOp, decodeMulDiv]
  | lrW | scW | amoaddW | amoorW => simp [encode, decodeWord_of_amo, decodeAmo]
  | beq rs1 rs2 imm | bne rs1 rs2 imm | blt rs1 rs2 imm | bge rs1 rs2 imm | bltu rs1 rs2 imm | bgeu rs1 rs2 imm =>
    have heven : imm.getLsbD 0 = false := by simpa [Instr.wf] using hwf
    simp [encode, decodeWord_of_branch, decodeBranch, immBField_encodeB _ _ _ _ heven]
  | jal rd imm =>
    have heven : imm.getLsbD 0 = false := by simpa [Instr.wf] using hwf
    simp [encode, decodeWord, immJField_encodeJ _ _ heven]
  | lui | auipc | jalr | fence => simp [encode, decodeWord]
  | csrrw | csrrs | csrrc | csrrwi | csrrsi | csrrci => simp [encode, decodeWord_of_system, decodeSystem]
  | ecall | ebreak | mret => rfl

/-- Settles O1: the dispatch on an encoded word's fields leads back to the instruction. -/
theorem decodeOfEncodeIsInstruction : Obligations.DecodeOfEncodeIsInstruction :=
  fun i hwf => decode_ok_iff.2 (decodeWord_encode i hwf)

/-! ## Encoding a decoded word -/

section

variable {w : Word} {f3 : BitVec 3} {op : BitVec 7}

/-- A word is its own encoding in a format, once the fields the row fixes have the row's values. -/
theorem encodeI_of_fields (h3 : funct3Field w = f3) (ho : opcodeField w = op) :
    encodeI (immIField w) (rs1Field w) f3 (rdField w) op = w := by
  subst h3 ho
  exact encodeI_fields w

theorem encodeR_of_fields {f7 : BitVec 7} (h7 : funct7Field w = f7) (h3 : funct3Field w = f3)
    (ho : opcodeField w = op) : encodeR f7 (rs2Field w) (rs1Field w) f3 (rdField w) op = w := by
  subst h7 h3 ho
  exact encodeR_fields w

theorem encodeS_of_fields (h3 : funct3Field w = f3) (ho : opcodeField w = 0x23#7) :
    encodeS (immSField w) (rs2Field w) (rs1Field w) f3 = w := by
  subst h3
  exact encodeS_fields w ho

theorem encodeB_of_fields (h3 : funct3Field w = f3) (ho : opcodeField w = 0x63#7) :
    encodeB (immBField w) (rs2Field w) (rs1Field w) f3 = w := by
  subst h3
  exact encodeB_fields w ho

theorem encodeU_of_fields (ho : opcodeField w = op) : encodeU (immUField w) (rdField w) op = w := by
  subst ho
  exact encodeU_fields w

theorem encodeAmo_of_fields {f5 : BitVec 5} {rs2 : Reg} (h5 : funct5Field w = f5) (h2 : rs2Field w = rs2)
    (h3 : funct3Field w = 0b010#3) (ho : opcodeField w = 0x2F#7) :
    encodeAmo f5 (aqField w) (rlField w) rs2 (rs1Field w) (rdField w) = w := by
  subst h5 h2
  exact encodeAmo_fields w h3 ho

end

/-- What a decoded instruction owes its word. -/
def EncodesTo (i : Instr) (w : Word) : Prop := encode i = w ∧ i.wf = true

section

variable {w : Word} {i : Instr}

theorem encodesTo_of_decodeLoad (ho : opcodeField w = 0x03#7) (h : decodeLoad w = some i) : EncodesTo i w := by
  simp only [decodeLoad] at h
  split_ifs at h with h3 h3 h3 h3 h3 <;> cases h <;> exact ⟨encodeI_of_fields h3 ho, rfl⟩

theorem encodesTo_of_decodeStore (ho : opcodeField w = 0x23#7) (h : decodeStore w = some i) : EncodesTo i w := by
  simp only [decodeStore] at h
  split_ifs at h with h3 h3 h3 <;> cases h <;> exact ⟨encodeS_of_fields h3 ho, rfl⟩

theorem encodesTo_of_decodeOpImm (ho : opcodeField w = 0x13#7) (h : decodeOpImm w = some i) : EncodesTo i w := by
  simp only [decodeOpImm] at h
  split_ifs at h with h3 h3 h3 h3 h3 h3 h7 h3 h7 h7 <;> cases h
  case pos | pos | pos | pos | pos => exact ⟨encodeI_of_fields h3 ho, rfl⟩
  all_goals exact ⟨encodeR_of_fields h7 h3 ho, rfl⟩

theorem encodesTo_of_decodeOp (ho : opcodeField w = 0x33#7) (h : decodeOp w = some i) : EncodesTo i w := by
  simp only [decodeOp] at h
  split_ifs at h with h7 h7 h7
  · simp only [decodeOpBase] at h
    split_ifs at h with h3 h3 h3 h3 h3 h3 h3 <;> cases h
    case neg =>
      have h3 : funct3Field w = 0b111#3 := by bv_omega
      exact ⟨encodeR_of_fields h7 h3 ho, rfl⟩
    all_goals exact ⟨encodeR_of_fields h7 h3 ho, rfl⟩
  · simp only [decodeOpAlt] at h
    split_ifs at h with h3 h3 <;> cases h <;> exact ⟨encodeR_of_fields h7 h3 ho, rfl⟩
  · simp only [decodeMulDiv] at h
    split_ifs at h with h3 h3 h3 h3 h3 h3 h3 <;> cases h <;> exact ⟨encodeR_of_fields h7 h3 ho, rfl⟩

theorem encodesTo_of_decodeAmo (ho : opcodeField w = 0x2F#7) (h : decodeAmo w = some i) : EncodesTo i w := by
  simp only [decodeAmo] at h
  split_ifs at h with h3 h5 h2 h5 h5 h5 <;> cases h
  · exact ⟨encodeAmo_of_fields h5 h2 h3 ho, rfl⟩
  all_goals exact ⟨encodeAmo_of_fields h5 rfl h3 ho, rfl⟩

theorem encodesTo_of_decodeBranch (ho : opcodeField w = 0x63#7) (h : decodeBranch w = some i) : EncodesTo i w := by
  simp only [decodeBranch] at h
  split_ifs at h with h3 h3 h3 h3 h3 h3 <;> cases h <;>
    exact ⟨encodeB_of_fields h3 ho, by rw [Instr.wf, immBField_even]; rfl⟩

theorem encodesTo_of_decodeSystem (ho : opcodeField w = 0x73#7) (h : decodeSystem w = some i) : EncodesTo i w := by
  simp only [decodeSystem] at h
  split_ifs at h with h3 hw hw hw h3 h3 h3 h3 h3 h3 <;> cases h
  case pos | pos | pos => exact ⟨hw.symm, rfl⟩
  all_goals exact ⟨encodeI_of_fields h3 ho, rfl⟩

theorem encodesTo_of_decodeWord (h : decodeWord w = some i) : EncodesTo i w := by
  have hop := opcode_mem_of_decodeWord h
  simp only [majorOpcodes, List.mem_cons, List.not_mem_nil, or_false] at hop
  obtain ho | ho | ho | ho | ho | ho | ho | ho | ho | ho | ho | ho := hop
  · exact encodesTo_of_decodeLoad ho (decodeWord_of_load ho ▸ h)
  · rw [decodeWord_of_miscMem ho] at h
    split at h
    next h3 =>
      cases h
      exact ⟨encodeI_of_fields h3 ho, rfl⟩
    next => cases h
  · exact encodesTo_of_decodeOpImm ho (Machine.decodeWord_of_opImm ho ▸ h)
  · rw [decodeWord_of_auipc ho] at h
    cases h
    exact ⟨encodeU_of_fields ho, rfl⟩
  · exact encodesTo_of_decodeStore ho (decodeWord_of_store ho ▸ h)
  · exact encodesTo_of_decodeAmo ho (decodeWord_of_amo ho ▸ h)
  · exact encodesTo_of_decodeOp ho (decodeWord_of_op ho ▸ h)
  · rw [decodeWord_of_lui ho] at h
    cases h
    exact ⟨encodeU_of_fields ho, rfl⟩
  · exact encodesTo_of_decodeBranch ho (decodeWord_of_branch ho ▸ h)
  · rw [decodeWord_of_jalr ho] at h
    split at h
    next h3 =>
      cases h
      exact ⟨encodeI_of_fields h3 ho, rfl⟩
    next => cases h
  · rw [decodeWord_of_jal ho] at h
    cases h
    exact ⟨encodeJ_fields w ho, by rw [Instr.wf, immJField_even]; rfl⟩
  · exact encodesTo_of_decodeSystem ho (decodeWord_of_system ho ▸ h)

end

/-- Settles O2: on each path of the dispatch the word is the encoding of its own fields. -/
theorem encodeOfDecodeIsWord : Obligations.EncodeOfDecodeIsWord :=
  fun _ _ h => encodesTo_of_decodeWord (decode_ok_iff.1 h)

end Sys2Proof

namespace Sys2Proof

/-! ## The opcode table (R110) -/

/-- Settles O4: two rows one word matches would agree wherever both masks look, and no two do. -/
theorem opcodeRowsAreDisjoint : Obligations.OpcodeRowsAreDisjoint := by
  have hdiffer : opcodeTable.Pairwise fun r q => r.pattern &&& q.mask ≠ q.pattern &&& r.mask := by decide
  refine hdiffer.imp fun hne w ⟨hr, hq⟩ => hne ?_
  rw [← beq_iff_eq.1 hr, ← beq_iff_eq.1 hq]
  ac_rfl

open Laws.EncodeMatchesRow in
/-- The per-instruction lemmas, collected over all 57 constructors. -/
theorem encodeMatchesRow : ∀ i : Instr, Machine.InRow i i.mnemonic
  | .lb .. => lb ..
  | .lh .. => lh ..
  | .lw .. => lw ..
  | .lbu .. => lbu ..
  | .lhu .. => lhu ..
  | .sb .. => sb ..
  | .sh .. => sh ..
  | .sw .. => sw ..
  | .addi .. => addi ..
  | .sltiu .. => sltiu ..
  | .xori .. => xori ..
  | .ori .. => ori ..
  | .andi .. => andi ..
  | .slli .. => slli ..
  | .srli .. => srli ..
  | .srai .. => srai ..
  | .add .. => add ..
  | .sub .. => sub ..
  | .sll .. => sll ..
  | .slt .. => slt ..
  | .sltu .. => sltu ..
  | .xor .. => xor ..
  | .srl .. => srl ..
  | .sra .. => sra ..
  | .or .. => or ..
  | .and .. => and ..
  | .mul .. => mul ..
  | .mulh .. => mulh ..
  | .mulhu .. => mulhu ..
  | .div .. => div ..
  | .divu .. => divu ..
  | .rem .. => rem ..
  | .remu .. => remu ..
  | .lrW .. => lrW ..
  | .scW .. => scW ..
  | .amoaddW .. => amoaddW ..
  | .amoorW .. => amoorW ..
  | .beq .. => beq ..
  | .bne .. => bne ..
  | .blt .. => blt ..
  | .bge .. => bge ..
  | .bltu .. => bltu ..
  | .bgeu .. => bgeu ..
  | .lui .. => lui ..
  | .auipc .. => auipc ..
  | .jal .. => jal ..
  | .jalr .. => jalr ..
  | .csrrw .. => csrrw ..
  | .csrrs .. => csrrs ..
  | .csrrc .. => csrrc ..
  | .csrrwi .. => csrrwi ..
  | .csrrsi .. => csrrsi ..
  | .csrrci .. => csrrci ..
  | .ecall => ecall
  | .ebreak => ebreak
  | .mret => mret
  | .fence .. => fence ..

/-- Every word a row of the list matches decodes. -/
def RowsDecode (rows : List Row) : Prop := ∀ r ∈ rows, ∀ w : Word, r.matchesWord w = true → decodeWord w ≠ none

theorem rowsDecode_nil : RowsDecode [] := nofun

theorem rowsDecode_cons {name : String} {mask pattern : Word} {rows : List Row} :
    RowsDecode (⟨name, mask, pattern⟩ :: rows) ↔
      (∀ w : Word, w &&& mask = pattern → decodeWord w ≠ none) ∧ RowsDecode rows := by
  simp only [RowsDecode, List.forall_mem_cons, Row.matchesWord, beq_iff_eq]

theorem RowsDecode.append {rows more : List Row} (h : RowsDecode rows) (h' : RowsDecode more) :
    RowsDecode (rows ++ more) := fun r hr =>
  (List.mem_append.1 hr).elim (h r) (h' r)

/-! A row that matches gives the fields its mask covers, and those lead the dispatch to an instruction. -/

theorem rowsDecode_loadStoreRows : RowsDecode loadStoreRows := by
  simp (disch := decide) only [loadStoreRows, rowsDecode_cons, rowsDecode_nil, mask_funct3, and_true]
  and_intros <;> rintro w ⟨ho, h3⟩ <;> simp +decide [decodeWord, decodeLoad, decodeStore, ho, h3]

theorem rowsDecode_aluImmRows : RowsDecode aluImmRows := by
  simp (disch := decide) only [aluImmRows, rowsDecode_cons, rowsDecode_nil, mask_funct3, mask_funct7, and_true]
  and_intros <;> rintro w ⟨ho, hf⟩ <;> simp +decide [decodeWord, decodeOpImm, ho, hf]

theorem rowsDecode_aluRegRows : RowsDecode aluRegRows := by
  simp (disch := decide) only [aluRegRows, rowsDecode_cons, rowsDecode_nil, mask_funct7, and_true]
  and_intros <;> rintro w ⟨ho, h3, h7⟩ <;> simp +decide [decodeWord, decodeOp, decodeOpBase, decodeOpAlt, ho, h3, h7]

theorem rowsDecode_mulDivRows : RowsDecode mulDivRows := by
  simp (disch := decide) only [mulDivRows, rowsDecode_cons, rowsDecode_nil, mask_funct7, and_true]
  and_intros <;> rintro w ⟨ho, h3, h7⟩ <;> simp +decide [decodeWord, decodeOp, decodeMulDiv, ho, h3, h7]

theorem rowsDecode_atomicRows : RowsDecode atomicRows := by
  simp (disch := decide) only [atomicRows, rowsDecode_cons, rowsDecode_nil, mask_loadReserved, mask_funct5, and_true]
  and_intros <;> rintro w ⟨ho, h3, h5⟩ <;> simp +decide [decodeWord, decodeAmo, ho, h3, h5]

theorem rowsDecode_branchRows : RowsDecode branchRows := by
  simp (disch := decide) only [branchRows, rowsDecode_cons, rowsDecode_nil, mask_funct3, and_true]
  and_intros <;> rintro w ⟨ho, h3⟩ <;> simp +decide [decodeWord, decodeBranch, ho, h3]

theorem rowsDecode_upperJumpRows : RowsDecode upperJumpRows := by
  simp (disch := decide) only [upperJumpRows, rowsDecode_cons, rowsDecode_nil, mask_opcode, mask_funct3, and_true]
  and_intros <;> rintro w hf <;> simp +decide [decodeWord, hf]

theorem rowsDecode_systemRows : RowsDecode systemRows := by
  simp (disch := decide) only [systemRows, rowsDecode_cons, rowsDecode_nil, mask_funct3, mask_word, and_true]
  and_intros <;> rintro w hf <;> simp +decide [decodeWord, decodeSystem, hf]

theorem rowsDecode_opcodeTable : RowsDecode opcodeTable :=
  rowsDecode_loadStoreRows.append rowsDecode_aluImmRows |>.append rowsDecode_aluRegRows
    |>.append rowsDecode_mulDivRows |>.append rowsDecode_atomicRows |>.append rowsDecode_branchRows
    |>.append rowsDecode_upperJumpRows |>.append rowsDecode_systemRows

section

variable {w : Word}

/-- A word that decodes is an encoding, and an encoding matches the row of its mnemonic. -/
theorem row_of_decodeWord {i : Instr} (h : decodeWord w = some i) :
    ∃ r ∈ opcodeTable, r.mnemonic = i.mnemonic ∧ r.matchesWord w = true := by
  obtain ⟨hencode, _⟩ := encodesTo_of_decodeWord h
  obtain ⟨r, hr, hname, hmatch⟩ := encodeMatchesRow i
  exact ⟨r, hr, hname, hencode ▸ hmatch⟩

theorem decodeWord_none_iff : decodeWord w = none ↔ ∀ r ∈ opcodeTable, r.matchesWord w = false := by
  constructor
  · intro h r hr
    by_contra hmatch
    exact rowsDecode_opcodeTable r hr w (by simpa using hmatch) h
  · intro h
    by_contra hsome
    obtain ⟨i, hi⟩ := Option.ne_none_iff_exists'.1 hsome
    obtain ⟨r, hr, _, hmatch⟩ := row_of_decodeWord hi
    simp [h r hr] at hmatch

end

/-- Settles O3: decoding and encoding agree, so the rows the encoder fills are the rows the decoder accepts. -/
theorem decodeFollowsOpcodeTable : Obligations.DecodeFollowsOpcodeTable :=
  fun _ => ⟨fun _ h => row_of_decodeWord (decode_ok_iff.1 h), decode_error_iff.trans decodeWord_none_iff⟩

end Sys2Proof

namespace Sys2Proof.Machine

/-! ## Words of no row (R117) -/

theorem extractLsb'_opcodeField (w : Word) : (opcodeField w).extractLsb' 0 2 = w.extractLsb' 0 2 := by
  apply BitVec.eq_of_getLsbD_eq
  intro k hk
  simp only [opcodeField, BitVec.getLsbD_extractLsb', zero_add, hk, show k < 7 by omega, decide_true, Bool.true_and]

section

variable {w : Word}

theorem rejectsWord_of_slti (ho : opcodeField w = 0x13#7) (h3 : funct3Field w = 0b010#3) : RejectsWord w :=
  rejectsWord_of_decodeWord (by simp [decodeWord_of_opImm ho, decodeOpImm, h3])

theorem rejectsWord_of_mulhsu (ho : opcodeField w = 0x33#7) (h7 : funct7Field w = 0x01#7)
    (h3 : funct3Field w = 0b010#3) : RejectsWord w :=
  rejectsWord_of_decodeWord (by simp [decodeWord_of_op ho, decodeOp, h7, decodeMulDiv, h3])

/-- The seven `funct5` values of the absent AMOs are none of the four the decoder knows. -/
theorem rejectsWord_of_absentAmo (ho : opcodeField w = 0x2F#7)
    (h5 : funct5Field w ∈ [0b00001#5, 0b00100#5, 0b01100#5, 0b10000#5, 0b10100#5, 0b11000#5, 0b11100#5]) :
    RejectsWord w := by
  refine rejectsWord_of_decodeWord ?_
  simp only [List.mem_cons, List.not_mem_nil, or_false] at h5
  rw [decodeWord_of_amo ho]
  obtain h5 | h5 | h5 | h5 | h5 | h5 | h5 := h5 <;> simp [decodeAmo, h5]

theorem rejectsWord_of_miscMem (ho : opcodeField w = 0x0F#7) (h3 : funct3Field w ≠ 0b000#3) : RejectsWord w :=
  rejectsWord_of_decodeWord (by rw [decodeWord_of_miscMem ho, if_neg h3])

/-- SFENCE.VMA's `funct7` is in none of the three whole words. -/
theorem rejectsWord_of_sfenceVma (ho : opcodeField w = 0x73#7) (h3 : funct3Field w = 0b000#3)
    (h7 : funct7Field w = 0b0001001#7) : RejectsWord w := by
  have hother : ∀ v : Word, funct7Field v ≠ 0b0001001#7 → w ≠ v := fun v hv hw => hv (hw ▸ h7)
  refine rejectsWord_of_decodeWord ?_
  rw [decodeWord_of_system ho]
  simp [decodeSystem, h3, hother 0x00000073#32 (by decide), hother 0x00100073#32 (by decide),
    hother 0x30200073#32 (by decide)]

/-- Every major opcode ends in 11. -/
theorem rejectsWord_of_compressed (h : w.extractLsb' 0 2 ≠ 0b11#2) : RejectsWord w := by
  refine rejectsWord_of_decodeWord (decodeWord_of_otherOpcode fun hop => h ?_)
  have hlow : ∀ op ∈ majorOpcodes, op.extractLsb' 0 2 = 0b11#2 := by decide
  rw [← hlow _ hop, extractLsb'_opcodeField]

end

/-- A fatal condition right after a fetch leaves everything but device ports. -/
theorem haltedFrom_fetched {s u : State} {w : Word} (h : fetch s = .ok w u) (r : Fatal) :
    HaltedFrom s (u.halted r) r ∧ SameRam s (u.halted r) := by
  obtain ⟨txs, rfl⟩ := fetch_addIo h
  exact ⟨haltedFrom_traffic s s.mem txs r, fun _ => rfl⟩

theorem step_unmatched {s u : State} {w : Word} (hr : Running s) (hf : fetch s = .ok w u)
    (hw : ∀ r ∈ opcodeTable, r.matchesWord w = false) : ∃ t,
    step s = .fault (.fatal (.unimplementedInstruction w) t) ∧ HaltedFrom s t (.unimplementedInstruction w) ∧
      SameRam s t :=
  ⟨_, step_undecoded hr hf (decode_error_iff.2 (decodeWord_none_iff.2 hw)), haltedFrom_fetched hf _⟩

/-- Settles O10: a word of no row decodes to nothing, and each absent instruction's fields fix such words. -/
theorem unmatchedWordHaltsCore : Obligations.UnmatchedWordHaltsCore :=
  ⟨fun _ _ _ => step_unmatched, fun _ => rejectsWord_of_slti, fun _ => rejectsWord_of_mulhsu,
    fun _ => rejectsWord_of_absentAmo, fun _ => rejectsWord_of_miscMem, rejectsWord_of_decodeWord rfl,
    rejectsWord_of_decodeWord rfl, rejectsWord_of_decodeWord rfl, fun _ => rejectsWord_of_sfenceVma,
    fun _ => rejectsWord_of_compressed⟩

/-! ## The spec's own words and the sign extensions -/

/-- Settles O5: the decoder evaluated on the twelve words. -/
theorem specWordsDecode : Obligations.SpecWordsDecode := by
  unfold Obligations.SpecWordsDecode
  decide

/-- The two's-complement reading of a field by its top bit (R99). -/
theorem toInt_eq_msb_cond {n : Nat} (f : BitVec n) :
    f.toInt = if f.msb then (f.toNat : Int) - 2 ^ n else (f.toNat : Int) := by
  rw [BitVec.toInt_eq_msb_cond]
  push_cast
  rfl

/-- Settles O6: extension keeps the signed value, which is the field less `2^N` under its top bit. -/
theorem signExtensionSubtractsTwoToTheN : Obligations.SignExtensionSubtractsTwoToTheN :=
  ⟨fun f => (sext12_toInt f).trans (toInt_eq_msb_cond f), fun f => (sext13_toInt f).trans (toInt_eq_msb_cond f),
    fun f => (sext20_toInt f).trans (toInt_eq_msb_cond f), fun f => (sext21_toInt f).trans (toInt_eq_msb_cond f)⟩

end Sys2Proof.Machine

/-! # The step (10_state.md R31, R32, R51)

Fetch, retirement and the states from which no step is taken; launch; the invariant; what a fatal step leaves. -/

namespace Sys2Proof.Machine

/-! ## No step -/

theorem step_of_halt {s : State} {r : HaltRecord} (hc : validConfig s.cfg = true) (hh : s.halt = some r) :
    step s = .fault (.alreadyHalted r) := by
  simp [step, stepSequence, hc, hh]

theorem step_of_stopped {s : State} (hc : validConfig s.cfg = true) (hh : s.halt = none) (hs : s.stopped = true) :
    step s = .refused .stoppedByHost := by
  simp [step, stepSequence, hc, hh, hs]

theorem step_of_invalidConfig {s : State} (hc : validConfig s.cfg = false) :
    step s = .refused .invalidConfiguration := by
  simp [step, stepSequence, hc]

/-- Settles O11: the three guards in front of the step. -/
theorem noStepWhenHaltedStoppedOrInvalid : Obligations.NoStepWhenHaltedStoppedOrInvalid :=
  ⟨fun _ _ => step_of_halt, fun _ => step_of_stopped, fun _ => step_of_invalidConfig⟩

/-! ## Fetch and execute (R29, R31) -/

/-- The fetch of four mapped bytes, and the step that follows. -/
theorem fetch_mapped {s : State} (h : Mapped s s.pc 4) :
    ∃ bs : List Byte, bs.length = 4 ∧
      (∀ k, k < 4 → regionOf s.cfg (byteAddr s.pc k) = some .ram → bs[k]? = some (s.ramByte (byteAddr s.pc k))) ∧
      fetch s = .ok (leWord bs) (s.addIo (deviceTxs s .read s.pc bs)) := by
  obtain ⟨bs, hlen, hram, _, hread⟩ := memRead_ok 4 (le_refl 4) s.pc s h
  exact ⟨bs, hlen, hram, hread⟩

/-- The fetch of four RAM bytes is RAM's word and leaves no trace. -/
theorem fetch_inRam {s : State} (h : InRam s s.pc 4) :
    fetch s = .ok (leWord ((List.range 4).map fun k => s.ramByte (byteAddr s.pc k))) s := by
  obtain ⟨bs, hlen, hram, _, hread⟩ := memRead_inRam 4 (le_refl 4) s.pc s h
  have hbs : bs = (List.range 4).map fun k => s.ramByte (byteAddr s.pc k) := by
    refine List.ext_getElem? fun k => ?_
    by_cases hk : k < 4
    · simp [hram k hk, hk]
    · simp [hk, hlen]
  exact hbs ▸ hread

/-- Settles O7: the fetch reads through the router, and the step runs what the word decodes to. -/
theorem stepRunsDecodedInstruction : Obligations.StepRunsDecodedInstruction := by
  refine ⟨fun s hr hm => ?_, fun s i hr hm hd => step_fetches hr ⟨_, fetch_inRam hm, hd⟩⟩
  obtain ⟨bs, hlen, hram, hf⟩ := fetch_mapped hm
  exact ⟨bs, _, hlen, hf, hram, rfl, fun i hd => step_fetches hr ⟨_, hf, hd⟩⟩

theorem step_unmappedFetch {s : State} {k : Nat} (hr : Running s) (hk : k < 4) (h : FirstUnmapped s s.pc k) : ∃ t,
    step s = .fault (.fatal (.unmappedAddress (s.pc + BitVec.ofNat 32 k)) t) ∧
      HaltedFrom s t (.unmappedAddress (s.pc + BitVec.ofNat 32 k)) ∧ SameRam s t := by
  obtain ⟨bs, _, hread⟩ := memRead_unmapped 4 k s.pc s hk h
  exact ⟨_, step_fetch_unmapped hr hread, haltedFrom_traffic s s.mem _ _, fun _ => rfl⟩

/-- Settles O9: the fetch stops at the first unmapped byte, after device reads at most. -/
theorem unmappedFetchHaltsCore : Obligations.UnmappedFetchHaltsCore := fun _ _ => step_unmappedFetch

/-! ## Steps 5 to 8 -/

/-- Settles O8: the interrupt check either lets the host's stop follow or is fatal; it refuses nothing. -/
theorem retireFollowsStepSequence : Obligations.RetireFollowsStepSequence := by
  refine fun v => ⟨rfl, fun t => retire_next, fun f => retire_fault, fun r h => ?_⟩
  obtain ⟨h', _⟩ | ⟨t, _, h', _⟩ | ⟨h', _⟩ := interruptCheck_cases v.retired <;> rw [h'] at h <;> cases h

/-- What a step that goes on leaves of the run state. -/
theorem step_next_run {s t : State} (h : step s = .next t) :
    Running s ∧ t.cfg = s.cfg ∧ t.halt = none ∧ t.stopped = (s.cfg.maxInsns == some t.instret) := by
  obtain ⟨w, u, i, v, hr, hf, _, he, hretire⟩ := step_next h
  obtain ⟨txs, rfl⟩ := fetch_addIo hf
  obtain ⟨hcfg, _, hhalt, _, _, hcount, _, _, hstopped, _⟩ := retire_frame hretire
  obtain ⟨hcfg', hcount', hhalt', hstopped'⟩ := (exec_next he).run
  simp only [addIo_cfg, addIo_halt, addIo_stopped] at hcfg' hhalt' hstopped'
  refine ⟨hr, hcfg.trans hcfg', by rw [hhalt, hhalt', hr.halt], ?_⟩
  rw [hstopped, hstopped', hr.stopped, hcfg', hcount, Bool.false_or]

/-- Settles O18: a running core was not stopped before, so the host's count alone sets the stop. -/
theorem hostStopEndsRunAtMaxInsns : Obligations.HostStopEndsRunAtMaxInsns := by
  intro s t h
  obtain ⟨hr, hcfg, hhalt, hstopped⟩ := step_next_run h
  exact ⟨by rw [hstopped, beq_iff_eq], step_of_stopped (hcfg ▸ hr.config) hhalt⟩

/-! ## Launch (R51) -/

/-- Every CSR of a launch state holds 0. -/
theorem csrValue_launch (cfg : Config) (gprInit : Vector Word 32) (image : Memory) (c : Csr) :
    (State.launch cfg gprInit image).csrValue c = 0#32 := by
  cases c
  case mstatus => simp [State.csrValue, State.mstatus, State.launch]
  all_goals rfl

theorem x_launch (cfg : Config) (gprInit : Vector Word 32) (image : Memory) {r : Reg} (hr : r ≠ 0#5) :
    (State.launch cfg gprInit image).x r = gprInit[r.toNat] := by
  have hslot : (0 : Nat) ≠ r.toNat := fun h => hr (BitVec.eq_of_toNat_eq h.symm)
  simp [State.launch, State.x, hr, Vector.getElem_set_ne, hslot]

/-- Settles O14: the fields of the launch state, read through the accessors. -/
theorem launchStateValues : Obligations.LaunchStateValues := by
  intro cfg gprInit image
  refine ⟨rfl, rfl, fun r => x_launch cfg gprInit image, rfl, rfl, rfl, rfl, rfl, fun n hn => ?_, rfl, rfl, rfl, rfl,
    fun _ => rfl⟩
  obtain ⟨c, _, hread⟩ := csrRead_readable (s := State.launch cfg gprInit image) 0#32 hn
  rw [hread, csrValue_launch]

/-! ## The invariant -/

theorem inv_launch {cfg : Config} (gprInit : Vector Word 32) {image : Memory} (hc : validConfig cfg = true)
    (hwf : Memory.wf cfg.ramFill image = true) (hram : ∀ c ∈ image, regionOf cfg c.1 = some .ram) :
    Machine.Inv (State.launch cfg gprInit image) :=
  ⟨hc, rfl, by simp [State.launch], hwf, hram, by simp [State.launch]⟩

/-- Settles O13: reset is the launch of the initial configuration with nothing loaded. -/
theorem launchHasInvariant : Obligations.LaunchHasInvariant :=
  ⟨inv_launch _ (by decide) (by decide) (by simp), fun _ gprInit _ => inv_launch gprInit⟩

theorem txOk_mono {c : Config} {m n : Nat} {t : DeviceTx} (h : txOk c m t) (hmn : m ≤ n) : txOk c n t :=
  ⟨h.1.trans hmn, h.2⟩

/-- A step's device log is the log before with the transactions of the fetch and of the instruction in front. -/
theorem step_next_io {s t : State} (h : step s = .next t) :
    ∃ txs, t.io = txs ++ s.io ∧ ∀ x ∈ txs, txOk s.cfg s.instret x := by
  obtain ⟨w, u, i, v, _, hf, _, he, hretire⟩ := step_next h
  obtain ⟨bs, _, _, rfl, _⟩ := fetch_ok hf
  obtain ⟨_, _, _, _, hio, _⟩ := retire_frame hretire
  obtain ⟨txs, hio', htraffic⟩ := (exec_next he).traffic
  refine ⟨txs ++ deviceTxs s .read s.pc bs, by rw [hio, hio', addIo_io, List.append_assoc], fun x hx => ?_⟩
  obtain hx | hx := List.mem_append.1 hx
  · exact htraffic.io x hx
  · exact deviceTxs_ok .read bs s.pc x hx

/-- A step's RAM is the instruction's: it stays canonical and inside its region. -/
theorem step_next_mem {s t : State} (h : step s = .next t) :
    (Memory.wf s.cfg.ramFill s.mem = true → Memory.wf s.cfg.ramFill t.mem = true) ∧
      ((∀ c ∈ s.mem, regionOf s.cfg c.1 = some .ram) → ∀ c ∈ t.mem, regionOf s.cfg c.1 = some .ram) := by
  obtain ⟨w, u, i, v, _, hf, _, he, hretire⟩ := step_next h
  obtain ⟨txs, rfl⟩ := fetch_addIo hf
  obtain ⟨_, _, _, hmem, _⟩ := retire_frame hretire
  obtain ⟨_, _, htraffic⟩ := (exec_next he).traffic
  exact hmem ▸ ⟨htraffic.wf, htraffic.ram⟩

theorem step_next_x0 {s t : State} (h : step s = .next t) : t.regs[0] = 0#32 := by
  obtain ⟨_, _, _, _, _, _, _, _, hretire⟩ := step_next h
  obtain ⟨_, hregs, _⟩ := retire_frame hretire
  simp [hregs]

/-- Settles O12: each part of the invariant, from what a step leaves of it. -/
theorem stepKeepsInvariant : Obligations.StepKeepsInvariant := by
  intro s t hinv h
  obtain ⟨_, hcfg, hhalt, _⟩ := step_next_run h
  obtain ⟨hwf, hram⟩ := step_next_mem h
  obtain ⟨txs, hio, htxs⟩ := step_next_io h
  refine ⟨hcfg ▸ hinv.config, hhalt, step_next_x0 h, hcfg ▸ hwf hinv.memWf, hcfg ▸ hram hinv.memRam, fun x hx => ?_⟩
  have hold : txOk s.cfg s.instret x := (List.mem_append.1 (hio ▸ hx)).elim (htxs x) (hinv.io x)
  rw [hcfg, step_next_instret h]
  exact txOk_mono hold (Nat.le_succ _)

/-! ## Fatal steps (R32) -/

theorem Fetches.unique {s u v : State} {i j : Instr} (hi : Fetches s i u) (hj : Fetches s j v) : i = j ∧ u = v := by
  obtain ⟨w, hf, hd⟩ := hi
  obtain ⟨w', hf', hd'⟩ := hj
  rw [hf] at hf'
  cases hf'
  rw [hd] at hd'
  cases hd'
  exact ⟨rfl, rfl⟩

/-- An instruction is fatal for a reason that names its own word, an unmapped address or its CSR; never a privilege. -/
theorem ExecReason.ne_invalidPrivilege {i : Instr} {s : State} {r : Fatal} (h : ExecReason i s r) (v : Nat) :
    r ≠ .invalidPrivilege v := by
  obtain rfl | ⟨a, rfl, _⟩ | ⟨n, _, rfl⟩ := h <;> exact Fatal.noConfusion

/-- Settles O16: no way a step is fatal raises it. -/
theorem invalidPrivilegeIsNeverRaised : Obligations.InvalidPrivilegeIsNeverRaised := by
  intro s v t h
  obtain ⟨_, ⟨k, bs, _, _, _, hr, _⟩ | ⟨w, u, _, _, hr, _⟩ | ⟨w, u, i, _, _, he⟩ | ⟨w, u, i, x, _, _, _, hr, _⟩⟩ :=
    step_fatal h
  case inr.inr.inl =>
    obtain ⟨_, _, _, _, _, hreason⟩ := exec_fatal he
    exact hreason.ne_invalidPrivilege v rfl
  all_goals cases hr

/-- The RAM a fatal step leaves: as before, or a store's first bytes written. -/
def FatalStepRam (s t : State) (r : Fatal) : Prop :=
  (SameRam s t ∧ ∀ i u, Fetches s i u → wideStore u i = none) ∨
    ∃ i u w, Fetches s i u ∧ wideStore u i = some w ∧ StopsInside w s t r

/-- What the info of a fatal step names. -/
def FatalStepReason (s : State) (r : Fatal) : Prop :=
  (∃ w u, fetch s = .ok w u ∧ r = .unimplementedInstruction w) ∨
    (∃ a, r = .unmappedAddress a ∧ regionOf s.cfg a.toNat = none) ∨
    ∃ n w u i, fetch s = .ok w u ∧ decode w = .ok i ∧ csrNamed i = some n ∧ r = .unknownCSR n w

/-- A fatal instruction's RAM, seen from before its fetch. -/
theorem fatalStepRam_of_fatalRam {s : State} {i : Instr} {txs more : List DeviceTx} {m : Memory} {r : Fatal}
    (hfetch : Fetches s i (s.addIo txs)) (h : FatalRam i (s.addIo txs) m r) :
    FatalStepRam s ((((s.addIo txs).putMem m).addIo more).halted r) r := by
  cases hw : wideStore (s.addIo txs) i with
  | none =>
    have hmem : m = s.mem := by simpa only [FatalRam, hw, addIo_mem] using h
    refine .inl ⟨sameRam_of_mem rfl hmem, fun j u hj => ?_⟩
    obtain ⟨rfl, rfl⟩ := hfetch.unique hj
    exact hw
  | some w =>
    obtain ⟨k, hk, hunmapped, hr, hmem⟩ := by simpa only [FatalRam, hw] using h
    refine .inr ⟨i, _, w, hfetch, hw, k, hk, hunmapped, hr, fun hwf => ?_⟩
    exact ramHolds_storeMem w.bytes k hk.le (wideStore_bytes_le hw) w.address w.value s _ hwf rfl hmem

/-- A fatal instruction's reason, seen from its fetch: its encoding is the fetched word. -/
theorem fatalStepReason_of_execReason {s : State} {w : Word} {i : Instr} {txs : List DeviceTx} {r : Fatal}
    (hf : fetch s = .ok w (s.addIo txs)) (hd : decode w = .ok i) (h : ExecReason i (s.addIo txs) r) :
    FatalStepReason s r := by
  obtain ⟨rfl, _⟩ := encodeOfDecodeIsWord w i hd
  obtain rfl | hunmapped | ⟨n, hn, rfl⟩ := h
  · exact .inl ⟨_, _, hf, rfl⟩
  · exact .inr (.inl hunmapped)
  · exact .inr (.inr ⟨n, _, _, i, hf, hd, hn, rfl⟩)

/-- Every fatal step: from the state before the instruction, or by the check after it has retired. -/
theorem step_fatal_effect {s t : State} {r : Fatal} (h : step s = .fault (.fatal r t)) :
    (HaltedFrom s t r ∧ FatalStepRam s t r ∧ FatalStepReason s r) ∨
      ∃ i u v, Fetches s i u ∧ exec i u = .next v ∧ r = .unmodelledInterrupt (t.mip &&& t.mie) ∧
        t = { v.retired with halt := some ⟨r, v.pc⟩ } := by
  obtain ⟨_, ⟨k, bs, hk, hunmapped, _, rfl, rfl⟩ | ⟨w, u, hf, hd, rfl, rfl⟩ | ⟨w, u, i, hf, hd, he⟩ |
    ⟨w, u, i, v, hf, hd, he, rfl, rfl⟩⟩ := step_fatal h
  · have hnone : ∀ i u, ¬Fetches s i u := fun i u ⟨w, hf, _⟩ => by
      obtain ⟨_, _, _, _, hmapped, _⟩ := fetch_ok hf
      exact hmapped k hk hunmapped.2
    exact .inl ⟨haltedFrom_traffic s s.mem _ _, .inl ⟨fun _ => rfl, fun i u hi => absurd hi (hnone i u)⟩,
      .inr (.inl ⟨_, rfl, hunmapped.2⟩)⟩
  · have hnone : ∀ i u, ¬Fetches s i u := fun i u ⟨w', hf', hd'⟩ => by
      rw [hf] at hf'
      cases hf'
      rw [hd] at hd'
      cases hd'
    obtain ⟨hhalted, hram⟩ := haltedFrom_fetched hf (.unimplementedInstruction w)
    exact .inl ⟨hhalted, .inl ⟨hram, fun i u hi => absurd hi (hnone i u)⟩, .inl ⟨w, u, hf, rfl⟩⟩
  · obtain ⟨txs, rfl⟩ := fetch_addIo hf
    obtain ⟨m, more, rfl, _, hram, hreason⟩ := exec_fatal he
    refine .inl ⟨?_, fatalStepRam_of_fatalRam ⟨w, hf, hd⟩ hram, fatalStepReason_of_execReason hf hd hreason⟩
    rw [addIo_putMem, addIo_addIo]
    exact haltedFrom_traffic s m _ r
  · exact .inr ⟨i, u, v, ⟨w, hf, hd⟩, he, rfl, rfl⟩

/-- The record of a fatal step stands in the halted state, whose configuration is still this hardware's. -/
theorem step_fatal_halted {s t : State} {r : Fatal} (h : step s = .fault (.fatal r t)) :
    validConfig t.cfg = true ∧ t.halt = some ⟨r, t.pc⟩ := by
  obtain ⟨hr, _⟩ := step_fatal h
  obtain ⟨hhalted, _⟩ | ⟨i, u, v, hfetch, he, _, rfl⟩ := step_fatal_effect h
  · exact ⟨hhalted.cfg ▸ hr.config, hhalted.pc ▸ hhalted.record⟩
  · obtain ⟨txs, rfl⟩ := hfetch.frame
    have hcfg : v.cfg = s.cfg := (exec_next he).run.cfg
    exact ⟨hcfg ▸ hr.config, rfl⟩

/-- Settles O15: the cases of `step_fatal`, each with its RAM and its reason; a halted core takes no step. -/
theorem fatalStepKeepsStateBeforeInstruction : Obligations.FatalStepKeepsStateBeforeInstruction := by
  refine ⟨fun s r t => step_fatal_effect, fun s r t h => ?_⟩
  obtain ⟨hcfg, hhalt⟩ := step_fatal_halted h
  exact step_of_halt hcfg hhalt

end Sys2Proof.Machine

/-! # Memory (20_memory.md)

The router's windows, read after write for bytes and for every width, and the word at `pc` that the next step runs. -/

namespace Sys2Proof.Machine

/-! ## The router (R61 to R65) -/

theorem inWindow_iff {base size a : Nat} : inWindow base size a = true ↔ base ≤ a ∧ a < base + size := by
  simp [inWindow]

/-- An address of one window is in no window disjoint from it. -/
theorem not_inWindow_of_disjoint {b1 n1 b2 n2 a : Nat} (h : disjointWindows b1 n1 b2 n2 = true)
    (h2 : inWindow b2 n2 a = true) : ¬inWindow b1 n1 a = true := by
  simp only [disjointWindows, Bool.or_eq_true, decide_eq_true_eq] at h
  rw [inWindow_iff] at h2 ⊢
  omega

theorem validConfig_disjoint {c : Config} (hc : validConfig c = true) :
    disjointWindows ramBase c.ramSize c.uartBase uartSize = true ∧
      disjointWindows ramBase c.ramSize c.clintBase c.clintSize = true ∧
      disjointWindows c.uartBase uartSize c.clintBase c.clintSize = true := by
  simp only [validConfig, Bool.and_eq_true] at hc
  obtain ⟨⟨⟨_, huart⟩, hclint⟩, hdevices⟩ := hc
  exact ⟨huart, hclint, hdevices⟩

section

variable {c : Config} {n : Nat}

theorem regionOf_of_ramWindow (h : inWindow ramBase c.ramSize n = true) : regionOf c n = some .ram := by
  rw [regionOf, if_pos h]

/-- The windows of a configuration of this hardware are disjoint (00_scope.md R11), so the look-up order is no
matter. -/
theorem regionOf_of_uartWindow (hc : validConfig c = true) (h : inWindow c.uartBase uartSize n = true) :
    regionOf c n = some .uart := by
  obtain ⟨hram, _, _⟩ := validConfig_disjoint hc
  rw [regionOf, if_neg (not_inWindow_of_disjoint hram h), if_pos h]

theorem regionOf_of_clintWindow (hc : validConfig c = true) (h : inWindow c.clintBase c.clintSize n = true) :
    regionOf c n = some .clint := by
  obtain ⟨_, hram, huart⟩ := validConfig_disjoint hc
  rw [regionOf, if_neg (not_inWindow_of_disjoint hram h), if_neg (not_inWindow_of_disjoint huart h), if_pos h]

theorem regionOf_of_noWindow (hram : ¬inWindow ramBase c.ramSize n = true)
    (huart : ¬inWindow c.uartBase uartSize n = true) (hclint : ¬inWindow c.clintBase c.clintSize n = true) :
    regionOf c n = none := by
  rw [regionOf, if_neg hram, if_neg huart, if_neg hclint]

end

/-- A read in a device's window is one transaction at its offset, with the device's answer. -/
theorem readByte_uart {s : State} {a : Word} (h : regionOf s.cfg a.toNat = some .uart) :
    ∃ v, readByte a s = .ok v (s.transact .uart (a.toNat - s.cfg.uartBase) (.read v)) :=
  ⟨_, by simp only [readByte, h]; rfl⟩

theorem readByte_clint {s : State} {a : Word} (h : regionOf s.cfg a.toNat = some .clint) :
    ∃ v, readByte a s = .ok v (s.transact .clint (a.toNat - s.cfg.clintBase) (.read v)) :=
  ⟨_, by simp only [readByte, h]; rfl⟩

theorem writeByte_uart {s : State} {a : Word} (b : Byte) (h : regionOf s.cfg a.toNat = some .uart) :
    writeByte a b s = .ok () (s.transact .uart (a.toNat - s.cfg.uartBase) (.write b)) := by simp only [writeByte, h]

theorem writeByte_clint {s : State} {a : Word} (b : Byte) (h : regionOf s.cfg a.toNat = some .clint) :
    writeByte a b s = .ok () (s.transact .clint (a.toNat - s.cfg.clintBase) (.write b)) := by simp only [writeByte, h]

/-- Settles O58: the window an address lies in fixes its region, and the region fixes the answer. -/
theorem routerRoutesEachByte : Obligations.RouterRoutesEachByte := by
  refine fun s a b hc => ⟨fun h1 h2 => ?_, fun h1 h2 => ?_, fun h1 h2 => ?_, fun h1 h2 h3 => ?_⟩
  · have hr := regionOf_of_ramWindow (inWindow_iff.2 ⟨h1, h2⟩)
    exact ⟨readByte_ram hr, writeByte_ram b hr⟩
  · have hr := regionOf_of_uartWindow hc (inWindow_iff.2 ⟨h1, h2⟩)
    exact ⟨readByte_uart hr, writeByte_uart b hr⟩
  · have hr := regionOf_of_clintWindow hc (inWindow_iff.2 ⟨h1, h2⟩)
    exact ⟨readByte_clint hr, writeByte_clint b hr⟩
  · have hr := regionOf_of_noWindow (mt inWindow_iff.1 h1) (mt inWindow_iff.1 h2) (mt inWindow_iff.1 h3)
    exact ⟨readByte_unmapped hr, writeByte_unmapped b hr⟩

/-- Settles O59: the write is a write of the canonical list, where read after write holds. -/
theorem ramReadAfterWrite : Obligations.RamReadAfterWrite := by
  intro s a b hwf hr
  refine ⟨_, writeByte_ram b hr, Memory.wf_write _ _ b s.mem hwf, ?same, fun c hca hc => ?other⟩
  case same => rw [readByte_ram (s := s.setRamByte a.toNat b) hr, ramByte_setRamByte s hwf, if_pos rfl]
  case other =>
    have hne : c.toNat ≠ a.toNat := fun h => hca (BitVec.eq_of_toNat_eq h)
    rw [readByte_ram (s := s.setRamByte a.toNat b) hc, ramByte_setRamByte s hwf, if_neg hne]

/-! ## Words and their parts (R68, R69) -/

theorem byteAddr_add (a : Word) (j k : Nat) : byteAddr (a + BitVec.ofNat 32 j) k = byteAddr a (j + k) := by
  rw [byteAddr, byteAddr, BitVec.ofNat_add, BitVec.add_assoc]

/-- A byte string is the low bytes of `v` where each of its bytes is that byte of `v`. -/
theorem leNat_of_bytes : ∀ (bs : List Byte) (v : Nat),
    (∀ k, k < bs.length → ∃ b, bs[k]? = some b ∧ b.toNat = v / 256 ^ k % 256) → leNat bs = v % 256 ^ bs.length
  | [], v, _ => by simp [leNat, Nat.mod_one]
  | b :: bs, v, h => by
    obtain ⟨b', hb', hb⟩ := h 0 (by simp)
    obtain rfl : b = b' := by simpa using hb'
    have htail : leNat bs = v / 256 % 256 ^ bs.length := leNat_of_bytes bs (v / 256) fun k hk => by
      obtain ⟨c, hc, hv⟩ := h (k + 1) (by simpa using hk)
      exact ⟨c, by simpa using hc, by rw [hv, Nat.pow_succ', Nat.div_div_eq_div_mul]⟩
    rw [leNat, htail, hb, List.length_cons, Nat.pow_succ', Nat.mod_mul]
    simp

/-- Where RAM holds a word, a read of any width inside it gives that part of the word and changes nothing. -/
theorem memRead_of_ramHolds {s t : State} {a v : Word} (hc : t.cfg = s.cfg) (hr : InRam s a 4)
    (h : RamHolds s t a 4 v.toNat) (j n : Nat) (hjn : j + n ≤ 4) :
    memRead n (a + BitVec.ofNat 32 j) t = .ok ((v.extractLsb' (8 * j) (8 * n)).setWidth 32) t := by
  have hin : InRam t (a + BitVec.ofNat 32 j) n := fun k hk => by rw [hc, byteAddr_add]; exact hr _ (by omega)
  obtain ⟨bs, hlen, hbytes, hword, hread⟩ := memRead_inRam n (by omega) _ t hin
  have hle : leNat bs = v.toNat / 256 ^ j % 256 ^ n := by
    rw [← hlen]
    refine leNat_of_bytes bs _ fun k hk => ⟨_, hbytes k (hlen ▸ hk), ?_⟩
    rw [byteAddr_add, h.1 _ (by omega) (hr _ (by omega)), pow_add, Nat.div_div_eq_div_mul]
  have hpow : ∀ k, 256 ^ k = 2 ^ (8 * k) := fun k => by rw [pow_mul]; rfl
  have hfits : v.toNat / 256 ^ j % 256 ^ n < 2 ^ 32 := by
    rw [hpow n]
    exact (Nat.mod_lt _ (by positivity)).trans_le (Nat.pow_le_pow_right (by omega) (by omega))
  have hvalue : leWord bs = (v.extractLsb' (8 * j) (8 * n)).setWidth 32 := by
    refine BitVec.eq_of_toNat_eq ?_
    rw [BitVec.toNat_setWidth, BitVec.extractLsb'_toNat, Nat.shiftRight_eq_div_pow, ← hpow, ← hpow,
      Nat.mod_eq_of_lt hfits, hword, hle]
  rw [hread, hvalue]

/-- RAM after `MemWrite(a, n, v)`. -/
theorem ramHolds_write {n : Nat} (hn : n ≤ 4) (a v : Word) (s t : State) (hwf : Memory.wf s.cfg.ramFill s.mem = true)
    (hc : t.cfg = s.cfg) (hm : t.mem = storeMem s.cfg a (leBytes n v) s.mem) : RamHolds s t a n (unsigned v) :=
  ramHolds_storeMem n n (le_refl n) hn a v s t hwf hc (by rw [hm, leBytes_take n n v (le_refl n)])

/-- The machine's own word write to RAM. -/
theorem memWrite_inRam {s : State} {a : Word} (v : Word) (hwf : Memory.wf s.cfg.ramFill s.mem = true)
    (hr : InRam s a 4) : ∃ m, memWrite 4 a v s = .ok () (s.putMem m) ∧ RamHolds s (s.putMem m) a 4 v.toNat := by
  refine ⟨storeMem s.cfg a (leBytes 4 v) s.mem, ?_, ?_⟩
  · rw [memWrite_ok 4 a v s hr.mapped, deviceTxs_inRam .write _ a (by simpa using hr), addIo_nil]
  · exact ramHolds_write (le_refl 4) a v s _ hwf rfl rfl

/-- Settles O60: each read is a part of the word RAM holds. -/
theorem mixedWidthAccessesAreLittleEndian : Obligations.MixedWidthAccessesAreLittleEndian := by
  intro s a v hwf hr
  obtain ⟨m, hwrite, hholds⟩ := memWrite_inRam v hwf hr
  have hpart := memRead_of_ramHolds (s := s) (t := s.putMem m) rfl hr hholds
  refine ⟨_, hwrite, ?_, ?_, hpart 1 1 (by omega), ?_, hpart 2 2 (by omega)⟩
  · simpa using hpart 0 4 (by omega)
  · simpa using hpart 0 1 (by omega)
  · simpa using hpart 0 2 (by omega)

/-! ## The word at `pc` (R79) -/

/-- A word RAM holds at `pc` is the one the fetch reads. -/
theorem fetch_of_ramHolds {s t : State} {w : Word} (hc : t.cfg = s.cfg) (hpc : t.pc = s.pc) (hr : InRam s s.pc 4)
    (h : RamHolds s t s.pc 4 w.toNat) : fetch t = .ok w t := by
  rw [fetch, hpc]
  simpa using memRead_of_ramHolds hc hr h 0 4 (by omega)

/-- A word loaded from outside at `pc` (log 14). -/
theorem withFetchWord_ram {s : State} (w : Word) (hwf : Memory.wf s.cfg.ramFill s.mem = true) :
    ∃ m, s.withFetchWord 32 w.toNat = s.putMem m ∧ RamHolds s (s.putMem m) s.pc 4 w.toNat := by
  refine ⟨storeMem s.cfg s.pc (leBytes 4 w) s.mem, ?_, ?_⟩
  · rw [State.withFetchWord, State.loadFetchWord, loadRam_eq, Nat.mod_eq_of_lt w.isLt, BitVec.ofNat_toNat,
      BitVec.setWidth_eq]
  · exact ramHolds_write (le_refl 4) s.pc w s _ hwf rfl rfl

/-- Settles O19: both ways to store the word leave RAM holding it, so the fetch reads it. -/
theorem storedWordIsFetched : Obligations.StoredWordIsFetched := by
  intro s hwf hr
  refine ⟨fun w => ?_, fun w i hrun hd => ?_⟩
  · obtain ⟨m, hwrite, hholds⟩ := memWrite_inRam w hwf hr
    exact ⟨_, hwrite, rfl, fetch_of_ramHolds (s := s) rfl rfl hr hholds⟩
  · obtain ⟨m, hload, hholds⟩ := withFetchWord_ram w hwf
    have hfetch : Fetches (s.putMem m) i (s.putMem m) := ⟨w, fetch_of_ramHolds (s := s) rfl rfl hr hholds, hd⟩
    rw [hload]
    exact ⟨step_fetches ⟨hrun.config, hrun.halt, hrun.stopped⟩ hfetch, rfl, hholds⟩

end Sys2Proof.Machine

/-! # Loads and stores (40_load_store.md)

The effective address as a number; then the laws of loads and of stores from the answers of the shared endings. -/

namespace Sys2Proof.Machine

theorem unsigned_baseDisp (s : State) (rs1 : Reg) (imm : BitVec 12) :
    (unsigned (s.baseDisp rs1 imm) : Int) = (unsigned (s.x rs1) + imm.toInt) % 2 ^ 32 := by
  rw [State.baseDisp, unsigned_add_signed, sext12_toInt]

/-- Settles O20: the base counts unsigned, the displacement signed; x0 counts as zero. -/
theorem effectiveAddressIsBasePlusDisplacement : Obligations.EffectiveAddressIsBasePlusDisplacement := by
  refine fun s rs1 imm => ⟨unsigned_baseDisp s rs1 imm, ?_⟩
  simpa [unsigned] using unsigned_baseDisp s 0#5 imm

/-! ## Loads -/

/-- The effect of a read with a write-back, from its two answers: the read completes, or meets an unmapped byte. -/
theorem loadEffect_of_answers {i : Instr} {s : State} {n : Nat} {rd : Reg} {a : Word} {value : Nat → Word → Prop}
    {held : Option Word} (extend : Word → Word)
    (hmapped : Mapped s a n → ∃ bs : List Byte, bs.length = n ∧
      (∀ k, k < n → regionOf s.cfg (byteAddr a k) = some .ram → bs[k]? = some (s.ramByte (byteAddr a k))) ∧
      (leWord bs).toNat = leNat bs ∧ exec i s = .next
        ((((s.addIo (deviceTxs s .read a bs)).setReservation held).setX rd (extend (leWord bs))).advance))
    (hunmapped : ∀ k, k < n → FirstUnmapped s a k → ∃ bs : List Byte, bs.length = k ∧
      exec i s = fatal (.unmappedAddress (a + BitVec.ofNat 32 k)) (s.addIo (deviceTxs s .read a bs)))
    (hvalue : ∀ v : Word, v.toNat < 256 ^ n → value v.toNat (extend v)) : LoadEffect i s n rd a value held := by
  refine ⟨fun hm => ?_, fun k hk hu => ?_⟩
  · obtain ⟨bs, hlen, hram, hword, he⟩ := hmapped hm
    have hv : value (leNat bs) (extend (leWord bs)) := hword ▸ hvalue _ (hword ▸ hlen ▸ leNat_lt bs)
    refine ⟨_, bs, he, hlen, hram, writesReg_write_advance (fun _ => rfl) hv, ?_, ?_, ?_, ?_, ?_, ?_⟩
    · constructor <;> simp
    · constructor <;> simp
    · simp
    · exact sameRam_of_mem (by simp) (by simp)
    · simp
    · simp
  · obtain ⟨bs, hlen, he⟩ := hunmapped k hk hu
    exact ⟨_, bs, he, hlen, haltedFrom_traffic s s.mem _ _, fun _ => rfl, rfl⟩

theorem loadLaw_of_load {i : Instr} {name : String} {n : Nat} {extend : Word → Word} {rd rs1 : Reg} {imm : BitVec 12}
    {value : Nat → Word → Prop} (hrow : InRow i name) (hn : n ≤ 4) (he : ∀ s, exec i s = load n extend rd rs1 imm s)
    (hvalue : ∀ v : Word, v.toNat < 256 ^ n → value v.toNat (extend v)) : LoadLaw i name n rd rs1 imm value := by
  refine ⟨hrow, fun s => loadEffect_of_answers extend (fun hm => ?_) (fun k hk hu => ?_) hvalue⟩
  · rw [he]
    exact load_mapped hn extend rd rs1 imm hm
  · rw [he]
    exact load_unmapped hk extend rd rs1 imm hu

section

variable (rd rs1 : Reg) (imm : BitVec 12)

theorem loadLaw_lb : LoadLaw (.lb rd rs1 imm) "LB" 1 rd rs1 imm fun m v =>
    signed v = if m < 128 then (m : Int) else m - 256 :=
  loadLaw_of_load (Laws.EncodeMatchesRow.lb rd rs1 imm) (by omega) (fun _ => rfl) fun v hv => by
    rw [sext8_toInt, Nat.mod_eq_of_lt (show v.toNat < 256 from hv)]

theorem loadLaw_lh : LoadLaw (.lh rd rs1 imm) "LH" 2 rd rs1 imm fun m v =>
    signed v = if m < 32768 then (m : Int) else m - 65536 :=
  loadLaw_of_load (Laws.EncodeMatchesRow.lh rd rs1 imm) (by omega) (fun _ => rfl) fun v hv => by
    rw [sext16_toInt, Nat.mod_eq_of_lt (show v.toNat < 65536 from hv)]

theorem loadLaw_lw : LoadLaw (.lw rd rs1 imm) "LW" 4 rd rs1 imm fun m v => unsigned v = m :=
  loadLaw_of_load (Laws.EncodeMatchesRow.lw rd rs1 imm) (by omega) (fun _ => rfl) fun _ _ => rfl

theorem loadLaw_lbu : LoadLaw (.lbu rd rs1 imm) "LBU" 1 rd rs1 imm fun m v => unsigned v = m :=
  loadLaw_of_load (Laws.EncodeMatchesRow.lbu rd rs1 imm) (by omega) (fun _ => rfl) fun v hv => by
    rw [zext8_toNat, Nat.mod_eq_of_lt (show v.toNat < 256 from hv)]

theorem loadLaw_lhu : LoadLaw (.lhu rd rs1 imm) "LHU" 2 rd rs1 imm fun m v => unsigned v = m :=
  loadLaw_of_load (Laws.EncodeMatchesRow.lhu rd rs1 imm) (by omega) (fun _ => rfl) fun v hv => by
    rw [zext16_toNat, Nat.mod_eq_of_lt (show v.toNat < 65536 from hv)]

end

/-- Settles O21: one law for every load; the number read fits its width, which the extension then keeps or signs. -/
theorem loadsReadAndExtend : Obligations.LoadsReadAndExtend := fun rd rs1 imm =>
  ⟨loadLaw_lb rd rs1 imm, loadLaw_lh rd rs1 imm, loadLaw_lw rd rs1 imm, loadLaw_lbu rd rs1 imm,
    loadLaw_lhu rd rs1 imm⟩

/-! ## Stores -/

theorem storeLaw_of_store {i : Instr} {name : String} {n : Nat} {rs1 rs2 : Reg} {imm : BitVec 12}
    (hrow : InRow i name) (hn : n ≤ 4) (he : ∀ s, exec i s = store n rs1 rs2 imm s) :
    StoreLaw i name n rs1 rs2 imm := by
  refine ⟨hrow, fun s => ⟨fun hm => ?_, fun k hk hu => ?_⟩⟩
  · exact ⟨_, leBytes n (s.x rs2), (he s).trans (store_mapped rs1 rs2 imm hm), bytesOf_leBytes n _, fun _ => rfl,
      ⟨rfl, rfl, rfl, rfl, rfl, rfl, rfl, rfl, rfl, rfl, rfl⟩, ⟨rfl, rfl, rfl, rfl⟩, rfl,
      fun hwf => ramHolds_write hn _ _ s _ hwf rfl rfl, rfl, rfl⟩
  · have hbytes : (leBytes n (s.x rs2)).take k = leBytes k (s.x rs2) := leBytes_take n k _ hk.le
    have hx := (he s).trans (store_unmapped hk rs1 rs2 imm hu)
    rw [hbytes] at hx
    exact ⟨_, leBytes k (s.x rs2), hx, bytesOf_leBytes k _, haltedFrom_traffic s _ _ _,
      fun hwf => ramHolds_write (hk.le.trans hn) _ _ s _ hwf rfl rfl, rfl⟩

/-- Settles O22: one law for every store, by its two answers. -/
theorem storesWriteTruncatedBytes : Obligations.StoresWriteTruncatedBytes := fun rs1 rs2 imm =>
  ⟨storeLaw_of_store (Laws.EncodeMatchesRow.sb rs1 rs2 imm) (by omega) fun _ => rfl,
    storeLaw_of_store (Laws.EncodeMatchesRow.sh rs1 rs2 imm) (by omega) fun _ => rfl,
    storeLaw_of_store (Laws.EncodeMatchesRow.sw rs1 rs2 imm) (by omega) fun _ => rfl⟩

end Sys2Proof.Machine

/-! # Atomics (44_atomics.md)

LR.W, SC.W and the AMOs from their answers; then the reservation across instructions and steps. -/

namespace Sys2Proof.Machine

/-- Settles O31: a load of four bytes that keeps the word and leaves its own address reserved. -/
theorem loadReservedLoadsAndReserves : Obligations.LoadReservedLoadsAndReserves := fun rd rs1 aq rl =>
  ⟨Laws.EncodeMatchesRow.lrW rd rs1 aq rl, fun _ => loadEffect_of_answers id (fun hm => execLrW_mapped rd rs1 hm)
    (fun _ hk hu => execLrW_unmapped rd rs1 hk hu) fun _ _ => rfl⟩

/-- Settles O32: the reservation decides whether the word is written; either way it is cleared last. -/
theorem storeConditionalSucceedsExactlyWhenReserved : Obligations.StoreConditionalSucceedsExactlyWhenReserved := by
  refine fun rd rs1 rs2 aq rl => ⟨Laws.EncodeMatchesRow.scW rd rs1 rs2 aq rl, fun s =>
    ⟨fun hr hm => ?stores, fun hr k hk hu => ?halts, fun hr => ?fails⟩⟩
  case stores =>
    refine ⟨_, leBytes 4 (s.x rs2), execScW_mapped rd rs1 rs2 hr hm, bytesOf_leBytes 4 _,
      writesReg_write_advance (fun _ => by simp) rfl, ?_, ?_, ?_, fun hwf => ?_, ?_, ?_⟩
    · constructor <;> simp
    · constructor <;> simp
    · simp
    · exact ramHolds_write (le_refl 4) _ _ s _ hwf (by simp) (by simp)
    · simp
    · simp
  case halts =>
    have hx := execScW_unmapped rd rs1 rs2 hr hk hu
    rw [leBytes_take 4 k _ hk.le] at hx
    exact ⟨_, leBytes k (s.x rs2), hx, bytesOf_leBytes k _, haltedFrom_traffic s _ _ _,
      fun hwf => ramHolds_write hk.le _ _ s _ hwf rfl rfl, rfl⟩
  case fails =>
    refine ⟨_, execScW_fails rd rs1 rs2 hr, writesReg_write_advance (fun _ => rfl) rfl, ?_, ?_, ?_, ?_, ?_, ?_⟩
    · constructor <;> simp
    · constructor <;> simp
    · simp
    · exact sameRam_of_mem (by simp) (by simp)
    · simp
    · simp

/-- The law of an AMO from its computation: where AMO_ALIAS lets it go on, the check does not fault it. -/
theorem amoLaw_of_amo {i : Instr} {name : String} {rd rs1 rs2 : Reg} {inst : Word} {g : Word → Word → Word}
    {f : Word → Word → Word → Prop} (hrow : InRow i name) (he : ∀ s, exec i s = amo inst g rd rs1 rs2 s)
    (hf : ∀ old v, f old v (g old v)) : AmoLaw i name rd rs1 rs2 f := by
  refine ⟨hrow, fun s halias => ?_⟩
  have hgo : ¬(rd ≠ 0#5 ∧ (rd = rs1 ∨ rd = rs2) ∧ s.cfg.amoAlias = .fault) := by
    rintro ⟨h0, heq, hfault⟩
    obtain ⟨h1, h2⟩ := halias hfault h0
    exact heq.elim h1 h2
  refine ⟨fun hm => ?_, fun k hk hu => ?_⟩
  · obtain ⟨bs, hlen, hram, hword, hx⟩ := amo_mapped (inst := inst) (f := g) hgo hm
    have hold : BytesOf bs 4 (unsigned (leWord bs)) :=
      ⟨hlen, by rw [unsigned, hword, ← hlen, Nat.mod_eq_of_lt (leNat_lt bs)]⟩
    refine ⟨_, leWord bs, g (leWord bs) (s.x rs2), bs, leBytes 4 _, (he s).trans hx, hold, bytesOf_leBytes 4 _,
      hf _ _, hram, writesReg_write_advance (fun _ => by simp) rfl, ?_, ?_, ?_, fun hwf => ?_, ?_, ?_⟩
    · constructor <;> simp
    · constructor <;> simp
    · simp
    · exact ramHolds_write (le_refl 4) _ _ s _ hwf (by simp) (by simp)
    · simp
    · simp
  · obtain ⟨bs, hlen, hx⟩ := amo_unmapped (inst := inst) (f := g) hgo hk hu
    exact ⟨_, bs, (he s).trans hx, hlen, haltedFrom_traffic s s.mem _ _, fun _ => rfl, rfl⟩

/-- Settles O33: the sum wraps, the disjunction is bit by bit. -/
theorem amoReadsModifiesAndWrites : Obligations.AmoReadsModifiesAndWrites := fun rd rs1 rs2 aq rl =>
  ⟨amoLaw_of_amo (Laws.EncodeMatchesRow.amoaddW rd rs1 rs2 aq rl) (fun _ => rfl) fun _ _ => BitVec.toNat_add ..,
    amoLaw_of_amo (Laws.EncodeMatchesRow.amoorW rd rs1 rs2 aq rl) (fun _ => rfl) fun _ _ _ _ => BitVec.getLsbD_or⟩

theorem amo_alias {inst : Word} {f : Word → Word → Word} {rd rs1 rs2 : Reg} {s : State}
    (hfault : s.cfg.amoAlias = .fault) (h0 : rd ≠ 0#5) (heq : rd = rs1 ∨ rd = rs2) :
    amo inst f rd rs1 rs2 s = fatal (.unimplementedInstruction inst) s :=
  if_pos ⟨h0, heq, hfault⟩

/-- Settles O34: the check comes before the read. -/
theorem aliasedAmoFaultsWhenConfigured : Obligations.AliasedAmoFaultsWhenConfigured :=
  fun _ _ _ _ _ _ hfault h0 heq =>
    ⟨haltsClean_of_fatal (amo_alias hfault h0 heq), haltsClean_of_fatal (amo_alias hfault h0 heq)⟩

/-! ## The reservation across steps (R218) -/

/-- An LR.W that goes on has reserved its address, whose four bytes are mapped. -/
theorem execLrW_next {rd rs1 : Reg} {s t : State} (h : execLrW rd rs1 s = .next t) :
    t.reservation = some (s.x rs1) ∧ Mapped s (s.x rs1) 4 := by
  obtain hm | ⟨k, hk, hu⟩ := mapped_or_firstUnmapped s (s.x rs1) 4
  · obtain ⟨bs, _, _, _, hx⟩ := execLrW_mapped rd rs1 hm
    rw [hx] at h
    cases h
    exact ⟨by simp, hm⟩
  · obtain ⟨bs, _, hx⟩ := execLrW_unmapped rd rs1 hk hu
    rw [hx] at h
    cases h

/-- The instruction of a step that goes on, and the state it leaves before the retirement. -/
theorem Fetches.exec_of_step {s t u : State} {i : Instr} (hf : Fetches s i u) (h : step s = .next t) :
    ∃ v, exec i u = .next v ∧ retire v = .next t := by
  obtain ⟨w, u', i', v, _, hf', hd', he, hretire⟩ := step_next h
  obtain ⟨rfl, rfl⟩ := hf.unique ⟨w, hf', hd'⟩
  exact ⟨v, he, hretire⟩

theorem step_lrW {s t u : State} {rd rs1 : Reg} {aq rl : Bool} (hf : Fetches s (.lrW rd rs1 aq rl) u)
    (h : step s = .next t) : t.reservation = some (s.x rs1) ∧ Mapped t (s.x rs1) 4 := by
  obtain ⟨v, he, hretire⟩ := hf.exec_of_step h
  obtain ⟨_, hcfg, _⟩ := step_next_run h
  obtain ⟨_, _, _, _, _, _, hres, _⟩ := retire_frame hretire
  obtain ⟨txs, rfl⟩ := hf.frame
  obtain ⟨hheld, hm⟩ := execLrW_next he
  exact ⟨hres.trans hheld, fun k hk => hcfg ▸ hm k hk⟩

theorem step_keeps_reservation {s t u : State} {i : Instr} (hf : Fetches s i u) (hi : isReservationInstr i = false)
    (h : step s = .next t) : t.reservation = s.reservation := by
  obtain ⟨v, he, hretire⟩ := hf.exec_of_step h
  obtain ⟨_, _, _, _, _, _, hres, _⟩ := retire_frame hretire
  obtain ⟨txs, rfl⟩ := hf.frame
  exact hres.trans ((exec_next he).reservation hi)

/-- Along a quiet run the reservation and the address map stay. -/
theorem QuietRun.frame {s t : State} (h : QuietRun s t) : t.reservation = s.reservation ∧ t.cfg = s.cfg := by
  induction h with
  | refl => exact ⟨rfl, rfl⟩
  | step _ hf hi hnext ih =>
    obtain ⟨hres, hcfg⟩ := ih
    obtain ⟨_, hcfg', _⟩ := step_next_run hnext
    exact ⟨(step_keeps_reservation hf hi hnext).trans hres, hcfg'.trans hcfg⟩

/-- Settles O36: the reservation outlives the quiet run, so the law of SC.W decides by the address. -/
theorem storeConditionalSucceedsAfterLoadReserved : Obligations.StoreConditionalSucceedsAfterLoadReserved := by
  intro s t u s' u' rd rs1 aq rl rd' rs1' rs2' aq' rl' hlr hstep hrun hsc
  obtain ⟨hheld, hmapped⟩ := step_lrW hlr hstep
  obtain ⟨hres, hcfg⟩ := hrun.frame
  obtain ⟨txs, rfl⟩ := hsc.frame
  have hheld' : (u.addIo txs).reservation = some (s.x rs1) := hres.trans hheld
  obtain ⟨_, hlaw⟩ := storeConditionalSucceedsExactlyWhenReserved rd' rs1' rs2' aq' rl'
  obtain ⟨hstores, _, hfails⟩ := hlaw (u.addIo txs)
  refine ⟨fun heq => ?_, fun hne => ?_⟩
  · have haddr : (u.addIo txs).x rs1' = s.x rs1 := heq
    have hmapped' : Mapped (u.addIo txs) ((u.addIo txs).x rs1') 4 :=
      haddr ▸ fun k hk => by rw [addIo_cfg, hcfg]; exact hmapped k hk
    obtain ⟨v, _, hx, _, ⟨_, hval, _⟩, _, _, hclear, hram, _⟩ := hstores (haddr ▸ hheld') hmapped'
    exact ⟨v, hx, hval, hclear, hram⟩
  · have haddr : (u.addIo txs).reservation ≠ some ((u.addIo txs).x rs1') := fun h =>
      hne (Option.some.inj (hheld'.symm.trans h)).symm
    obtain ⟨v, hx, ⟨_, hval, _⟩, _, _, hclear, hram, _⟩ := hfails haddr
    exact ⟨v, hx, hval, hclear, hram⟩

end Sys2Proof.Machine

/-! # Logic with an immediate, SLTIU and SLLI (41_alu_immediate.md R152 to R156) -/

namespace Sys2Proof.Machine

/-- An extended immediate as an unsigned number: the signed one, modulo 2^32. -/
theorem unsigned_sext12 (imm : BitVec 12) : (unsigned (sext12 imm) : Int) = imm.toInt % 2 ^ 32 := by
  have h := unsigned_add_signed 0#32 (sext12 imm)
  rwa [BitVec.zero_add, sext12_toInt, (unsigned_zero_iff 0#32).2 rfl, Nat.cast_zero, zero_add] at h

section

variable (rd rs1 : Reg) (imm : BitVec 12)

theorem regLaw_sltiu : RegLaw (.sltiu rd rs1 imm) "SLTIU" rd fun s v =>
    unsigned v = if (unsigned (s.x rs1) : Int) < imm.toInt % 2 ^ 32 then 1 else 0 :=
  regLaw_of_writeBack (Laws.EncodeMatchesRow.sltiu rd rs1 imm) (fun _ => rfl) fun s => by
    simp only [unsigned_boolWord_lessUnsigned, ← unsigned_sext12, Nat.cast_lt]

theorem regLaw_xori : RegLaw (.xori rd rs1 imm) "XORI" rd fun s v =>
    ∀ k, k < 32 → v.getLsbD k = ((s.x rs1).getLsbD k ^^ imm.getLsbD (min k 11)) :=
  regLaw_of_writeBack (Laws.EncodeMatchesRow.xori rd rs1 imm) (fun _ => rfl) fun _ k hk => by
    rw [BitVec.getLsbD_xor, sext12_bit imm k hk]

theorem regLaw_ori : RegLaw (.ori rd rs1 imm) "ORI" rd fun s v =>
    ∀ k, k < 32 → v.getLsbD k = ((s.x rs1).getLsbD k || imm.getLsbD (min k 11)) :=
  regLaw_of_writeBack (Laws.EncodeMatchesRow.ori rd rs1 imm) (fun _ => rfl) fun _ k hk => by
    rw [BitVec.getLsbD_or, sext12_bit imm k hk]

theorem regLaw_andi : RegLaw (.andi rd rs1 imm) "ANDI" rd fun s v =>
    ∀ k, k < 32 → v.getLsbD k = ((s.x rs1).getLsbD k && imm.getLsbD (min k 11)) :=
  regLaw_of_writeBack (Laws.EncodeMatchesRow.andi rd rs1 imm) (fun _ => rfl) fun _ k hk => by
    rw [BitVec.getLsbD_and, sext12_bit imm k hk]

theorem regLaw_slli (shamt : BitVec 5) : RegLaw (.slli rd rs1 shamt) "SLLI" rd fun s v =>
    unsigned v = unsigned (s.x rs1) * 2 ^ shamt.toNat % 2 ^ 32 :=
  regLaw_of_writeBack (Laws.EncodeMatchesRow.slli rd rs1 shamt) (fun _ => rfl) fun _ => unsigned_shiftLeft ..

end

theorem rejectsWord_of_reservedLeftShift {w : Word} (ho : opcodeField w = 0x13#7) (h3 : funct3Field w = 0b001#3)
    (h7 : funct7Field w ≠ 0x00#7) : RejectsWord w :=
  rejectsWord_of_decodeWord (by simp [decodeWord_of_opImm ho, decodeOpImm, h3, h7])

/-- Settles O24: each instruction is a write-back of the rule's value, and a reserved selector decodes to nothing. -/
theorem logicalImmediatesSltiuAndSlli : Obligations.LogicalImmediatesSltiuAndSlli :=
  ⟨regLaw_sltiu, regLaw_xori, regLaw_ori, regLaw_andi, regLaw_slli, fun _ => rejectsWord_of_reservedLeftShift⟩

end Sys2Proof.Machine

/-! # Division (43_muldiv.md R194 to R199)

The four results with their corners, where DIV_CORNER lets them go on and where it does not; then the division law. -/

namespace Sys2Proof.Machine

/-! ## The corners as the model tests them -/

section

variable {a b : Word}

/-- DIV and REM meet a corner: by zero, or the signed overflow. -/
theorem signedCorner_iff :
    (decide (b = 0#32) || divOverflow a b) = true ↔ unsigned b = 0 ∨ (signed a = -2 ^ 31 ∧ signed b = -1) := by
  rw [Bool.or_eq_true, decide_eq_true_eq, unsigned_zero_iff, overflow_iff]

theorem unsignedCorner_iff : decide (b = 0#32) = true ↔ unsigned b = 0 := by
  rw [decide_eq_true_eq, unsigned_zero_iff]

/-! ## The results, corners included -/

theorem divSigned_value (a b : Word) :
    if signed b = 0 then unsigned (divSigned a b) = 0xFFFFFFFF
    else if signed a = -2 ^ 31 ∧ signed b = -1 then unsigned (divSigned a b) = 0x80000000
    else signed (divSigned a b) = Int.tdiv (signed a) (signed b) := by
  split
  next h0 => rw [divSigned, if_pos ((signed_zero_iff b).1 h0)]; rfl
  next h0 =>
    split
    next ho => rw [divSigned, if_neg (mt (signed_zero_iff b).2 h0), if_pos ((overflow_iff a b).2 ho)]; rfl
    next ho => exact divSigned_toInt a b h0 ho

theorem remSigned_value (a b : Word) :
    if signed b = 0 then remSigned a b = a
    else if signed a = -2 ^ 31 ∧ signed b = -1 then unsigned (remSigned a b) = 0
    else signed (remSigned a b) = signed a - signed b * Int.tdiv (signed a) (signed b) := by
  split
  next h0 => rw [remSigned, if_pos ((signed_zero_iff b).1 h0)]
  next h0 =>
    split
    next ho => rw [remSigned, if_neg (mt (signed_zero_iff b).2 h0), if_pos ((overflow_iff a b).2 ho)]; rfl
    next ho => exact remSigned_toInt a b h0 ho

theorem divUnsigned_value (a b : Word) :
    if unsigned b = 0 then unsigned (divUnsigned a b) = 0xFFFFFFFF
    else unsigned (divUnsigned a b) = unsigned a / unsigned b := by
  split
  next h0 => rw [divUnsigned, if_pos ((unsigned_zero_iff b).1 h0)]; rfl
  next h0 =>
    have hfits : unsigned a / unsigned b < 2 ^ 32 := (Nat.div_le_self _ _).trans_lt a.isLt
    rw [divUnsigned, if_neg (mt (unsigned_zero_iff b).2 h0), unsigned, BitVec.toNat_ofNat, Nat.mod_eq_of_lt hfits]

theorem remUnsigned_value (a b : Word) :
    if unsigned b = 0 then remUnsigned a b = a
    else unsigned (remUnsigned a b) = unsigned a % unsigned b := by
  split
  next h0 => rw [remUnsigned, if_pos ((unsigned_zero_iff b).1 h0)]
  next h0 =>
    have hfits : unsigned a % unsigned b < 2 ^ 32 := (Nat.mod_le _ _).trans_lt a.isLt
    rw [remUnsigned, if_neg (mt (unsigned_zero_iff b).2 h0), unsigned, BitVec.toNat_ofNat, Nat.mod_eq_of_lt hfits]

end

/-! ## Completion and halt -/

/-- Where DIV_CORNER lets DIV and REM go on. -/
def SignedDivisionGoes (s : State) (rs1 rs2 : Reg) : Prop :=
  s.cfg.divCorner = .fault → unsigned (s.x rs2) ≠ 0 ∧ ¬(signed (s.x rs1) = -2 ^ 31 ∧ signed (s.x rs2) = -1)

/-- Where DIV_CORNER lets DIVU and REMU go on. -/
def UnsignedDivisionGoes (s : State) (rs2 : Reg) : Prop := s.cfg.divCorner = .fault → unsigned (s.x rs2) ≠ 0

section

variable {s : State} {rs1 rs2 : Reg}

theorem SignedDivisionGoes.corner_false (h : SignedDivisionGoes s rs1 rs2) (hfault : s.cfg.divCorner = .fault) :
    (decide (s.x rs2 = 0#32) || divOverflow (s.x rs1) (s.x rs2)) = false := by
  obtain ⟨h0, ho⟩ := h hfault
  rw [Bool.eq_false_iff, Ne, signedCorner_iff, not_or]
  exact ⟨h0, ho⟩

theorem UnsignedDivisionGoes.corner_false (h : UnsignedDivisionGoes s rs2) (hfault : s.cfg.divCorner = .fault) :
    decide (s.x rs2 = 0#32) = false := by
  rw [Bool.eq_false_iff, Ne, unsignedCorner_iff]
  exact h hfault

theorem completesReg_div (rd : Reg) (h : SignedDivisionGoes s rs1 rs2) :
    CompletesReg (.div rd rs1 rs2) s rd fun v =>
      if signed (s.x rs2) = 0 then unsigned v = 0xFFFFFFFF
      else if signed (s.x rs1) = -2 ^ 31 ∧ signed (s.x rs2) = -1 then unsigned v = 0x80000000
      else signed v = Int.tdiv (signed (s.x rs1)) (signed (s.x rs2)) :=
  completesReg_writeBack (finishDiv_go h.corner_false) (divSigned_value _ _)

theorem completesReg_rem (rd : Reg) (h : SignedDivisionGoes s rs1 rs2) :
    CompletesReg (.rem rd rs1 rs2) s rd fun v =>
      if signed (s.x rs2) = 0 then v = s.x rs1
      else if signed (s.x rs1) = -2 ^ 31 ∧ signed (s.x rs2) = -1 then unsigned v = 0
      else signed v = signed (s.x rs1) - signed (s.x rs2) * Int.tdiv (signed (s.x rs1)) (signed (s.x rs2)) :=
  completesReg_writeBack (finishDiv_go h.corner_false) (remSigned_value _ _)

theorem completesReg_divu (rd rs1 : Reg) (h : UnsignedDivisionGoes s rs2) :
    CompletesReg (.divu rd rs1 rs2) s rd fun v =>
      if unsigned (s.x rs2) = 0 then unsigned v = 0xFFFFFFFF
      else unsigned v = unsigned (s.x rs1) / unsigned (s.x rs2) :=
  completesReg_writeBack (finishDiv_go h.corner_false) (divUnsigned_value _ _)

theorem completesReg_remu (rd rs1 : Reg) (h : UnsignedDivisionGoes s rs2) :
    CompletesReg (.remu rd rs1 rs2) s rd fun v =>
      if unsigned (s.x rs2) = 0 then v = s.x rs1 else unsigned v = unsigned (s.x rs1) % unsigned (s.x rs2) :=
  completesReg_writeBack (finishDiv_go h.corner_false) (remUnsigned_value _ _)

end

/-- Settles O28: outside a faulted corner each division is a write-back of its result. -/
theorem divideResults : Obligations.DivideResults := fun rd rs1 rs2 =>
  ⟨⟨Laws.EncodeMatchesRow.div rd rs1 rs2, Laws.EncodeMatchesRow.divu rd rs1 rs2,
    Laws.EncodeMatchesRow.rem rd rs1 rs2, Laws.EncodeMatchesRow.remu rd rs1 rs2⟩, fun _ =>
    ⟨fun h => ⟨completesReg_div rd h, completesReg_rem rd h⟩,
      fun h => ⟨completesReg_divu rd rs1 h, completesReg_remu rd rs1 h⟩⟩⟩

/-- Settles O29: in a corner each division ends before it writes. -/
theorem divisionCornersFaultWhenConfigured : Obligations.DivisionCornersFaultWhenConfigured := by
  refine fun rd rs1 rs2 s hfault => ⟨fun h => ?_, fun h => ?_⟩
  · have hcorner := signedCorner_iff.2 h
    exact ⟨haltsClean_of_fatal (finishDiv_fault hcorner hfault), haltsClean_of_fatal (finishDiv_fault hcorner hfault)⟩
  · have hcorner := unsignedCorner_iff.2 h
    exact ⟨haltsClean_of_fatal (finishDiv_fault hcorner hfault), haltsClean_of_fatal (finishDiv_fault hcorner hfault)⟩

/-! ## The division law (R190) -/

/-- Division rounded toward zero: the law, the remainder's bound and its sign. -/
theorem tdiv_law (a : Int) {b : Int} (hb : b ≠ 0) :
    a = Int.tdiv a b * b + (a - b * Int.tdiv a b) ∧ (a - b * Int.tdiv a b).natAbs < b.natAbs ∧
      (0 < a - b * Int.tdiv a b → 0 < a) ∧ (a - b * Int.tdiv a b < 0 → a < 0) := by
  have hrem : a - b * Int.tdiv a b = Int.tmod a b := by
    have := Int.mul_tdiv_add_tmod a b
    omega
  rw [hrem]
  refine ⟨?law, ?bound, fun hpos => ?_, fun hneg => ?_⟩
  case law => rw [mul_comm, Int.mul_tdiv_add_tmod]
  case bound =>
    rw [Int.natAbs_tmod]
    exact Nat.mod_lt _ (Int.natAbs_pos.2 hb)
  · by_contra ha
    have := Int.tmod_nonneg b (a := -a) (by omega)
    rw [Int.neg_tmod] at this
    omega
  · by_contra ha
    have := Int.tmod_nonneg b (a := a) (by omega)
    omega

/-- The value of a destination register other than x0. -/
theorem CompletesReg.value {i : Instr} {s : State} {rd : Reg} {p : Word → Prop} (h : CompletesReg i s rd p)
    (h0 : rd ≠ 0#5) : ∃ t, exec i s = .next t ∧ p (t.x rd) := by
  obtain ⟨t, he, ⟨_, hp, _⟩, _⟩ := h
  exact ⟨t, he, hp h0⟩

/-- Settles O30: outside the corners the results are the integer quotient and remainder. -/
theorem divisionLaw : Obligations.DivisionLaw := by
  intro rd rd' rs1 rs2 s h0 h0' hb
  have hb' : signed (s.x rs2) ≠ 0 := fun h => hb ((unsigned_zero_iff _).2 ((signed_zero_iff _).1 h))
  refine ⟨fun ho => ?_, ?_⟩
  · obtain ⟨t, ht, hq⟩ := (completesReg_div rd fun _ => ⟨hb, ho⟩).value h0
    obtain ⟨u, hu, hr⟩ := (completesReg_rem rd' fun _ => ⟨hb, ho⟩).value h0'
    rw [if_neg hb', if_neg ho] at hq hr
    refine ⟨t, u, ht, hu, ?_⟩
    rw [hq, hr]
    exact tdiv_law _ hb'
  · obtain ⟨t, ht, hq⟩ := (completesReg_divu rd rs1 fun _ => hb).value h0
    obtain ⟨u, hu, hr⟩ := (completesReg_remu rd' rs1 fun _ => hb).value h0'
    rw [if_neg hb] at hq hr
    refine ⟨t, u, ht, hu, ?_⟩
    rw [hq, hr]
    exact ⟨by rw [mul_comm, Nat.div_add_mod], Nat.mod_lt _ (Nat.pos_of_ne_zero hb)⟩

end Sys2Proof.Machine

/-! # Branches and JALR (45_branches.md, 47_jumps.md) -/

namespace Sys2Proof.Machine

/-- A branch instruction's law from its condition: the target counts the signed offset, the fall-through 4. -/
theorem branchLaw_of_branch {i : Instr} {name : String} {imm : BitVec 13} {cond : State → Bool} {taken : State → Prop}
    (hrow : InRow i name) (he : ∀ s, exec i s = branch (cond s) imm s) (hcond : ∀ s, cond s = true ↔ taken s) :
    BranchLaw i name imm taken := by
  refine ⟨hrow, fun s => ⟨_, (he s).trans (branch_eq ..), fun _ => rfl,
    ⟨⟨rfl, rfl, rfl, rfl, rfl, rfl, rfl, rfl, rfl, rfl, rfl⟩, ⟨rfl, rfl, rfl, rfl⟩, rfl, fun _ => rfl, rfl⟩,
    fun ht => ?taken, fun hn => ?through⟩⟩
  case taken =>
    rw [if_pos ((hcond s).2 ht), unsigned_add_signed, sext13_toInt]
  case through =>
    rw [if_neg (mt (hcond s).1 hn), unsigned_add_signed]
    rfl

theorem not_lessSigned_iff (a b : Word) : (!lessSigned a b) = true ↔ signed b ≤ signed a := by
  rw [Bool.not_eq_true', ← Bool.not_eq_true, lessSigned_iff, not_lt]

theorem not_lessUnsigned_iff (a b : Word) : (!lessUnsigned a b) = true ↔ unsigned b ≤ unsigned a := by
  rw [Bool.not_eq_true', ← Bool.not_eq_true, lessUnsigned_iff, not_lt]

/-- Settles O37: the six conditions, the negated ones as their opposites. -/
theorem branchesRedirectExactlyWhenTaken : Obligations.BranchesRedirectExactlyWhenTaken := fun rs1 rs2 imm =>
  ⟨branchLaw_of_branch (Laws.EncodeMatchesRow.beq rs1 rs2 imm) (fun _ => rfl) fun _ => beq_iff_eq,
    branchLaw_of_branch (Laws.EncodeMatchesRow.bne rs1 rs2 imm) (fun _ => rfl) fun _ => bne_iff_ne,
    branchLaw_of_branch (Laws.EncodeMatchesRow.blt rs1 rs2 imm) (fun _ => rfl) fun _ => lessSigned_iff ..,
    branchLaw_of_branch (Laws.EncodeMatchesRow.bge rs1 rs2 imm) (fun _ => rfl) fun _ => not_lessSigned_iff ..,
    branchLaw_of_branch (Laws.EncodeMatchesRow.bltu rs1 rs2 imm) (fun _ => rfl) fun _ => lessUnsigned_iff ..,
    branchLaw_of_branch (Laws.EncodeMatchesRow.bgeu rs1 rs2 imm) (fun _ => rfl) fun _ => not_lessUnsigned_iff ..⟩

/-- Clearing bit 0 rounds down to an even number (decision D5). -/
theorem unsigned_and_even (v : Word) : unsigned (v &&& 0xFFFFFFFE#32) = unsigned v / 2 * 2 := by
  have h : v &&& 0xFFFFFFFE#32 = (v >>> 1) <<< 1 := by
    apply BitVec.eq_of_getLsbD_eq
    intro k hk
    rw [BitVec.getLsbD_and]
    interval_cases k <;> simp
  rw [h, unsigned_shiftLeft, unsigned_ushiftRight]
  have : unsigned v < 2 ^ 32 := v.isLt
  omega

theorem unsigned_jalrTarget (s : State) (rs1 : Reg) (imm : BitVec 12) :
    (unsigned (s.jalrTarget rs1 imm) : Int) = (unsigned (s.x rs1) + imm.toInt) % 2 ^ 32 / 2 * 2 := by
  rw [State.jalrTarget, unsigned_and_even, Nat.cast_mul, Int.natCast_ediv, Nat.cast_ofNat, unsigned_add_signed,
    sext12_toInt]

/-- Settles O40: as JAL, with the target taken from the old `x[rs1]`. -/
theorem jalrLinksAndJumps : Obligations.JalrLinksAndJumps := by
  refine fun rd rs1 imm => ⟨Laws.EncodeMatchesRow.jalr rd rs1 imm, fun s =>
    ⟨_, rfl, ?link, regFrame_jump .., ?target⟩⟩
  case link => exact writesReg_write (fun _ => rfl) (unsigned_link s)
  case target => rw [setX_pc, redirect_pc, unsigned_jalrTarget]

end Sys2Proof.Machine

/-! # CSRs and system instructions (48_csr_system.md)

mstatus and the reads; a write and what each CSR reads after it; the six CSR forms; the no-ops and MRET. -/

namespace Sys2Proof.Machine

/-! ## mstatus (10_state.md R37 to R39) -/

theorem mstatus_mpp (s : State) : s.mstatus.extractLsb' 11 2 = s.statusMPP := by
  apply BitVec.eq_of_getLsbD_eq
  intro k hk
  rw [BitVec.getLsbD_extractLsb', mstatus_bit]
  interval_cases k <;> rfl

/-- Where a difference word has no bit, the two words agree. -/
theorem getLsbD_eq_of_xor {a b : Word} {k : Nat} (h : (a ^^^ b).getLsbD k = false) : a.getLsbD k = b.getLsbD k := by
  simpa only [BitVec.getLsbD_xor, bne_eq_false_iff_eq] using h

/-- A write that skips the bits that agree already leaves the three fields at the bits written (R39). -/
theorem setMstatus_eq (s : State) (v : Word) : s.setMstatus v =
    .ok { s with statusMIE := v.getLsbD 3, statusMPIE := v.getLsbD 7, statusMPP := v.extractLsb' 11 2 } := by
  have hmie : (v ^^^ s.mstatus).getLsbD 3 = false → v.getLsbD 3 = s.statusMIE := fun h =>
    (getLsbD_eq_of_xor h).trans (mstatus_bit s 3)
  have hmpie : (v ^^^ s.mstatus).getLsbD 7 = false → v.getLsbD 7 = s.statusMPIE := fun h =>
    (getLsbD_eq_of_xor h).trans (mstatus_bit s 7)
  have hmpp : (v ^^^ s.mstatus).extractLsb' 11 2 = 0#2 → v.extractLsb' 11 2 = s.statusMPP := by
    rw [BitVec.extractLsb'_xor, mstatus_mpp, BitVec.xor_eq_zero_iff]
    exact id
  simp only [State.setMstatus, privilegeField_toNat]
  split_ifs with h3 h7 hp hp h7 hp hp <;> simp_all

/-- The bits mstatus shows are those of the mask (D16). -/
theorem mstatus_of_word (s : State) (v : Word) :
    State.mstatus { s with statusMIE := v.getLsbD 3, statusMPIE := v.getLsbD 7, statusMPP := v.extractLsb' 11 2 } =
      v &&& 0x00001888#32 := by
  apply BitVec.eq_of_getLsbD_eq
  intro k hk
  rw [mstatus_bit, BitVec.getLsbD_and]
  interval_cases k <;> simp

/-- Settles O44: the unpacking write is the plain one. -/
theorem mstatusWriteSetsThreeFields : Obligations.MstatusWriteSetsThreeFields :=
  fun s v => ⟨_, setMstatus_eq s v, congrArg unsigned (mstatus_of_word s v), rfl⟩

theorem unsigned_mstatus (s : State) :
    unsigned s.mstatus = s.statusMIE.toNat * 2 ^ 3 + s.statusMPIE.toNat * 2 ^ 7 + s.statusMPP.toNat * 2 ^ 11 := by
  simp only [State.mstatus]
  generalize s.statusMIE = a, s.statusMPIE = b, s.statusMPP = c
  revert a b c
  decide

/-- Settles O41: the number fixes the CSR, the CSR its value. -/
theorem csrReadPrimitive : Obligations.CsrReadPrimitive := by
  refine fun s inst => ⟨⟨_, rfl, unsigned_mstatus s⟩, rfl, rfl, rfl, rfl, rfl, rfl, rfl, ?_, fun n hn => ?_⟩
  · simp only [List.forall_mem_cons, List.not_mem_nil, false_imp_iff, implies_true, and_true]
    exact ⟨rfl, rfl, rfl, rfl⟩
  · exact csrRead_unreadable inst hn

/-! ## A CSR write (R271) -/

/-- Which CSR a number names, once it is known to name one. -/
theorem csrReadable.exists_csr {n : CsrNum} (h : csrReadable n) : ∃ c : Csr, n = c.number := by
  cases hc : csrOf n with
  | none => exact absurd h ((csrOf_none_iff n).1 hc)
  | some c => exact ⟨c, (csrOf_some_iff n c).1 hc⟩

theorem Csr.number_inj {c d : Csr} : c.number = d.number ↔ c = d := by
  constructor
  · intro h
    have hc := (csrOf_some_iff c.number c).2 rfl
    rw [h, (csrOf_some_iff d.number d).2 rfl] at hc
    exact (Option.some.inj hc).symm
  · rintro rfl; rfl

theorem csrRead_number (s : State) (c : Csr) (inst : Word) : s.csrRead c.number inst = .ok (s.csrValue c) :=
  csrRead_some inst ((csrOf_some_iff _ c).2 rfl)

/-- A CSR's value is read from the CSRs and flags alone. -/
theorem SameCsrs.csrValue {s t : State} (h : SameCsrs s t) (c : Csr) : t.csrValue c = s.csrValue c := by
  cases c
  case mstatus => exact mstatus_congr h.statMIE h.statMPIE h.statMPP
  case mie => exact h.mie
  case mtvec => exact h.mtvec
  case mscratch => exact h.mscratch
  case mepc => exact h.mepc
  case mcause => exact h.mcause
  case mtval => exact h.mtval
  case mip => exact h.mip
  all_goals rfl

theorem csrWrite_writable {n : CsrNum} (s : State) (v inst : Word) (h : csrWritable n) :
    ∃ t, s.csrWrite n v inst = .ok t := by
  obtain ⟨c, rfl⟩ := h.readable.exists_csr
  cases c
  case mstatus => exact ⟨_, setMstatus_eq s v⟩
  case mvendorid | marchid | mimpid | mhartid => simp [csrWritable, Csr.number] at h
  all_goals exact ⟨_, rfl⟩

/-- Read after write of CSRs: the written one shows the word, mstatus its three fields, every other one is as before. -/
theorem csrValue_of_csrWrite {s t : State} {c : Csr} {v inst : Word} (h : s.csrWrite c.number v inst = .ok t)
    (d : Csr) : t.csrValue d = if d = c then (if c = .mstatus then v &&& 0x00001888#32 else v) else s.csrValue d := by
  cases c
  case mstatus =>
    obtain rfl := Except.ok.inj ((setMstatus_eq s v).symm.trans h)
    cases d
    case mstatus => exact mstatus_of_word s v
    all_goals rfl
  case mvendorid | marchid | mimpid | mhartid => cases h
  all_goals
    cases h
    cases d <;> rfl

/-! ## The six forms (R272 to R278) -/

theorem zext5_eq_ofNat (r : BitVec 5) : zext5 r = BitVec.ofNat 32 r.toNat := by
  apply BitVec.eq_of_toNat_eq
  simp [zext5]

/-- What the six forms share: the row, the access, and that a form that does not read has rd = x0, writes, and uses no
old value. -/
structure CsrForm.Lawful (f : CsrForm) (rd : Reg) (csr : CsrNum) : Prop where
  row    : InRow f.instr f.name
  exec   : ∀ s, Machine.exec f.instr s = csrAccess (encode f.instr) csr rd f.reads f.writes (f.new s) s
  noRead : f.reads = false → rd = 0#5 ∧ f.writes = true ∧ ∀ s old old', f.new s old = f.new s old'

theorem csrForms_lawful {rd r : Reg} {csr : CsrNum} {f : CsrForm} (hf : f ∈ csrForms rd r csr) : f.Lawful rd csr := by
  simp only [csrForms, List.mem_cons, List.not_mem_nil, or_false] at hf
  obtain rfl | rfl | rfl | rfl | rfl | rfl := hf
  · exact ⟨Laws.EncodeMatchesRow.csrrw rd r csr, fun _ => rfl, fun h => ⟨by simpa using h, rfl, fun _ _ _ => rfl⟩⟩
  · exact ⟨Laws.EncodeMatchesRow.csrrs rd r csr, fun _ => rfl, nofun⟩
  · exact ⟨Laws.EncodeMatchesRow.csrrc rd r csr, fun _ => rfl, nofun⟩
  · exact ⟨Laws.EncodeMatchesRow.csrrwi rd r csr, fun s => by rw [← zext5_eq_ofNat]; rfl,
      fun h => ⟨by simpa using h, rfl, fun _ _ _ => rfl⟩⟩
  · exact ⟨Laws.EncodeMatchesRow.csrrsi rd r csr, fun s => by rw [← zext5_eq_ofNat]; rfl, nofun⟩
  · exact ⟨Laws.EncodeMatchesRow.csrrci rd r csr, fun s => by rw [← zext5_eq_ofNat]; rfl, nofun⟩

/-- Every form makes some access, and each access it is allowed is to a recognised CSR. -/
theorem CsrAllowed.readable {f : CsrForm} {rd : Reg} {csr : CsrNum} (h : CsrAllowed f csr) (hf : f.Lawful rd csr) :
    csrReadable csr := by
  cases hr : f.reads with
  | true => exact h.1 hr
  | false =>
    obtain ⟨_, hw, _⟩ := hf.noRead hr
    exact (h.2 hw).readable

/-- The write half of a CSR access: the state it leaves, and what each CSR then reads. -/
theorem csrAccess_write {c : Csr} {writes : Bool} (s : State) (v inst : Word)
    (h : writes = true → csrWritable c.number) :
    ∃ t, (if writes then s.csrWrite c.number v inst else .ok s) = .ok t ∧
      (t.cfg = s.cfg ∧ t.regs = s.regs ∧ t.pc = s.pc ∧ t.reservation = s.reservation ∧ t.mode = s.mode ∧
        t.instret = s.instret ∧ t.halt = s.halt ∧ t.stopped = s.stopped ∧ t.mem = s.mem ∧ t.io = s.io) ∧
      ∀ d, t.csrValue d =
        if writes = true ∧ d = c then (if c = .mstatus then v &&& 0x00001888#32 else v) else s.csrValue d := by
  cases writes with
  | false => exact ⟨s, rfl, ⟨rfl, rfl, rfl, rfl, rfl, rfl, rfl, rfl, rfl, rfl⟩, fun d => by simp⟩
  | true =>
    obtain ⟨t, ht⟩ := csrWrite_writable s v inst (h rfl)
    exact ⟨t, ht, csrWrite_frame ht, fun d => by rw [csrValue_of_csrWrite ht]; simp⟩

/-- A CSR instruction whose write succeeds, if it writes: the old value, the new word, then `rd`. -/
theorem CsrForm.Lawful.exec_of_write {f : CsrForm} {rd : Reg} {c : Csr} (hf : f.Lawful rd c.number)
    {s t : State}
    (hwrite : (if f.writes then s.csrWrite c.number (f.new s (s.csrValue c)) (encode f.instr) else .ok s) = .ok t) :
    Machine.exec f.instr s = .next (t.setX rd (s.csrValue c)).advance := by
  rw [hf.exec, csrAccess]
  cases hr : f.reads with
  | true => rw [if_pos rfl, csrRead_number, orFatal_ok, hwrite, orFatal_ok, State.writeBack]
  | false =>
    obtain ⟨rfl, hw, hnew⟩ := hf.noRead hr
    rw [if_neg (by simp), orFatal_ok, hnew s 0#32 (s.csrValue c), hwrite, orFatal_ok]
    rfl

/-- Settles O42: the access decomposed into its read, its write and its write-back. -/
theorem csrInstructionsReadThenWrite : Obligations.CsrInstructionsReadThenWrite := by
  intro rd r csr f hf
  have hlaw := csrForms_lawful hf
  refine ⟨hlaw.row, fun s hallowed => ?_⟩
  obtain ⟨c, rfl⟩ := (hallowed.readable hlaw).exists_csr
  obtain ⟨t, hwrite, ⟨hcfg, hregs, hpc, hres, hmode, hcount, hhalt, hstop, hmem, hio⟩, hvalues⟩ :=
    csrAccess_write s (f.new s (s.csrValue c)) (encode f.instr) hallowed.2
  refine ⟨_, s.csrValue c, hlaw.exec_of_write hwrite, fun _ => csrRead_number s c _,
    writesReg_write_advance (x_congr s t hregs) rfl, fun n hn => ?reads, by simpa,
    ⟨by simpa, by simpa, by simpa, by simpa⟩, by simpa, sameRam_of_mem (by simpa) (by simpa), by simpa, by simpa⟩
  case reads =>
    obtain ⟨d, rfl⟩ := hn.exists_csr
    have hsame : SameCsrs t (t.setX rd (s.csrValue c)).advance := by constructor <;> simp
    rw [csrRead_number, csrRead_number, hsame.csrValue, hvalues]
    by_cases hd : f.writes = true ∧ d = c
    · have hmstatus : c.number = 0x300#12 ↔ c = .mstatus := Csr.number_inj (d := .mstatus)
      obtain ⟨hw, rfl⟩ := hd
      simp only [hw, hmstatus, and_self, if_true]
    · rw [if_neg hd, if_neg (by rwa [Csr.number_inj])]

/-- Settles O43: the first access the CSR does not allow ends the instruction before it has any effect. -/
theorem disallowedCsrAccessHaltsCore : Obligations.DisallowedCsrAccessHaltsCore := by
  intro rd r csr f hf s hnot
  refine haltsClean_of_fatal ?_
  rw [(csrForms_lawful hf).exec, csrAccess]
  by_cases hread : f.reads = true → csrReadable csr
  · obtain ⟨hw, hc⟩ : f.writes = true ∧ ¬csrWritable csr := by
      by_contra h
      exact hnot ⟨hread, fun hw => by_contra fun hc => h ⟨hw, hc⟩⟩
    have hold : ∃ old, (if f.reads then s.csrRead csr (encode f.instr) else .ok 0#32) = .ok old := by
      split
      next hr =>
        obtain ⟨c, _, hc⟩ := csrRead_readable (s := s) (encode f.instr) (hread hr)
        exact ⟨_, hc⟩
      next => exact ⟨_, rfl⟩
    obtain ⟨old, hold⟩ := hold
    rw [hold, orFatal_ok, if_pos hw, csrWrite_unwritable _ _ hc, orFatal_error]
  · obtain ⟨hr, hc⟩ := Classical.not_imp.1 hread
    rw [if_pos hr, csrRead_unreadable _ hc, orFatal_error]

/-! ## No-ops and MRET -/

/-- Settles O45: the three arms are the bare advance. -/
theorem noOpsOnlyAdvance : Obligations.NoOpsOnlyAdvance := by
  refine fun rd rs1 imm => ⟨Laws.EncodeMatchesRow.ecall, Laws.EncodeMatchesRow.ebreak,
    Laws.EncodeMatchesRow.fence rd rs1 imm, fun s => ?_⟩
  simp only [List.forall_mem_cons, List.not_mem_nil, false_imp_iff, implies_true, and_true]
  exact ⟨rfl, rfl, rfl⟩

theorem exec_mret (s : State) : exec .mret s =
    .next { s with pc := s.mepc, statusMIE := s.statusMPIE, mode := s.statusMPP, statusMPP := s.mode } := by
  simp only [exec, execMret, State.returnFromTrap, privilegeField_toNat]
  rfl

/-- Settles O46: both privilege fields fit, so the return never fails. -/
theorem mretReturnsFromTrap : Obligations.MretReturnsFromTrap := ⟨Laws.EncodeMatchesRow.mret, exec_mret⟩

end Sys2Proof.Machine

/-! # Traps and interrupts (60_exceptions.md) -/

namespace Sys2Proof.Machine

theorem getLsbD_31_iff (v : Word) : v.getLsbD 31 = true ↔ 2 ^ 31 ≤ unsigned v := by
  have h : v.msb = v.getLsbD 31 := BitVec.msb_eq_getLsbD_last v
  rw [← h, BitVec.msb_eq_decide, decide_eq_true_eq, unsigned]

/-- Settles O47: both privilege fields fit, and bit 31 of the cause is its upper half. -/
theorem trapEntrySavesAndRedirects : Obligations.TrapEntrySavesAndRedirects := by
  intro s cause faultingPc
  simp only [State.enterTrap, privilegeField_toNat, getLsbD_31_iff]
  rfl

/-- Settles O48: MRET undoes what the entry saved. -/
theorem trapThenReturnRestores : Obligations.TrapThenReturnRestores := by
  intro s t cause faultingPc h
  obtain rfl := Except.ok.inj ((trapEntrySavesAndRedirects s cause faultingPc).symm.trans h)
  exact ⟨_, exec_mret _, rfl, rfl, rfl, fun _ => rfl, rfl, rfl, rfl, rfl, rfl, fun _ => rfl, rfl, rfl, rfl, rfl, rfl⟩

/-- The trap the check takes for the timer (R321). -/
def State.timerTrap (s : State) : State :=
  { s with
    statusMPIE := s.statusMIE
    statusMPP := s.mode
    mode := 3#2
    statusMIE := false
    mepc := s.pc
    mcause := 0x80000007#32
    mtval := 0#32
    pc := s.mtvec }

theorem enterTrap_timer (s : State) (faultingPc : Word) : s.enterTrap timerCause faultingPc = .ok s.timerTrap :=
  trapEntrySavesAndRedirects s timerCause faultingPc

/-- The check as one equation over `mip & mie` (R320, R321). -/
theorem interruptCheck_eq (s : State) : s.interruptCheck =
    if s.statusMIE = true ∧ s.mip &&& s.mie ≠ 0#32 then
      if (s.mip &&& s.mie).getLsbD 7 = true then .next s.timerTrap
      else fatal (.unmodelledInterrupt (s.mip &&& s.mie)) s
    else .next s := by
  simp only [State.interruptCheck, pending_eq, enterTrap_timer, orFatal_ok, Bool.and_eq_true, bne_iff_ne]

section

variable {v : State}

theorem retire_quiet (h : v.statusMIE = false ∨ v.retired.mip &&& v.mie = 0#32) :
    retire v = .next v.retired.hostStop := by
  have hoff : ¬(v.statusMIE = true ∧ v.retired.mip &&& v.mie ≠ 0#32) := fun ⟨hmie, hne⟩ => by
    obtain h | h := h
    · rw [hmie] at h
      cases h
    · exact hne h
  exact retire_next ((interruptCheck_eq v.retired).trans (if_neg hoff))

theorem retire_timer (hmie : v.statusMIE = true) (hbit : (v.retired.mip &&& v.mie).getLsbD 7 = true) :
    retire v = .next v.retired.timerTrap.hostStop := by
  have hne : v.retired.mip &&& v.mie ≠ 0#32 := fun h => by
    rw [h] at hbit
    cases hbit
  exact retire_next ((interruptCheck_eq v.retired).trans ((if_pos ⟨hmie, hne⟩).trans (if_pos hbit)))

theorem retire_unmodelled (hmie : v.statusMIE = true) (hne : v.retired.mip &&& v.mie ≠ 0#32)
    (hbit : (v.retired.mip &&& v.mie).getLsbD 7 = false) :
    retire v = fatal (.unmodelledInterrupt (v.retired.mip &&& v.mie)) v.retired :=
  retire_fault ((interruptCheck_eq v.retired).trans
    ((if_pos ⟨hmie, hne⟩).trans (if_neg (Bool.not_eq_true _ ▸ hbit))))

end

/-- Settles O49: the step is the instruction's retirement, whose check has these three answers. -/
theorem interruptCheckAfterEachInstruction : Obligations.InterruptCheckAfterEachInstruction := by
  intro s i u v hr hf he
  have hstep : step s = retire v := by rw [step_fetches hr hf, he, thenRetire]
  rw [hstep]
  refine ⟨retire_quiet, fun hmie hbit => ?_, fun hmie hne hbit => ?_⟩
  · exact ⟨_, retire_timer hmie hbit, rfl, rfl, rfl, rfl, hmie, rfl, rfl, rfl, rfl, rfl, rfl, rfl,
      fun r => x_retired v r, rfl, fun _ => rfl, rfl, rfl, rfl⟩
  · exact ⟨_, retire_unmodelled hmie hne hbit, haltedFrom_halted v.retired _⟩

/-- Settles O50: MRET swaps the mode in, a trap sets it, and nothing else in a step writes it. -/
theorem modeChangesOnlyByTrapOrMret : Obligations.ModeChangesOnlyByTrapOrMret := by
  refine ⟨fun _ _ _ => rfl, fun s t h => ?_⟩
  obtain ⟨w, u, i, v, _, hf, hd, he, hretire⟩ := step_next h
  have hfetches : Fetches s i u := ⟨w, hf, hd⟩
  obtain ⟨_, _, _, _, _, _, _, _, _, htrap⟩ := retire_frame hretire
  obtain ⟨txs, rfl⟩ := fetch_addIo hf
  refine ⟨i, _, v, hfetches, he, (exec_next he).mode, fun hi => ?_, ?_⟩
  · subst hi
    obtain rfl := Host.Outcome.next.inj ((exec_mret _).symm.trans he)
    exact ⟨rfl, rfl⟩
  · exact htrap.imp (fun ⟨hm, hmpp, hpc, hmepc, _⟩ => ⟨hm, hmpp, hpc, hmepc⟩)
      fun ⟨hm, hmpp, hpc, hmepc, _⟩ => ⟨hm, hmpp, hpc, hmepc⟩

theorem timerBit_bit (k : Nat) : timerBit.getLsbD k = decide (k = 7) := by
  by_cases hk : k < 32
  · interval_cases k <;> rfl
  · rw [BitVec.getLsbD_of_ge _ _ (by omega), eq_comm, decide_eq_false_iff_not]
    omega

/-- Bit by bit, what the CLINT's call leaves of `mip`. -/
theorem clintTick_mip_bit (s : State) (k : Nat) : s.clintTick.mip.getLsbD k =
    if k = 7 then
      match s.clintCall with
      | .quiet => s.mip.getLsbD 7
      | .signal => true
      | .clear => false
    else s.mip.getLsbD k := by
  rw [State.clintTick]
  cases s.clintCall with
  | quiet => by_cases hk : k = 7 <;> simp [hk]
  | signal => by_cases hk : k = 7 <;> simp [hk, timerBit_bit]
  | clear =>
    change (s.mip &&& ~~~timerBit).getLsbD k = _
    rw [BitVec.getLsbD_and, BitVec.getLsbD_not, timerBit_bit]
    by_cases hw : k < 32
    · by_cases hk : k = 7 <;> simp [hk, hw]
    · have hk : k ≠ 7 := by omega
      simp [hk, BitVec.getLsbD_of_ge s.mip k (Nat.not_lt.1 hw)]

/-- Settles O53: steps 5 and 6 end in the CLINT's tick, which acts on bit 7 alone. -/
theorem clintTouchesOnlyTimerPending : Obligations.ClintTouchesOnlyTimerPending :=
  fun v => ⟨rfl, fun k => clintTick_mip_bit { v.forceX0 with instret := v.instret + 1 } k⟩

/-- Settles O54: `mcause` after a step is the timer's, or what the instruction left. -/
theorem causeChangesOnlyByTimerTrapOrCsrWrite : Obligations.CauseChangesOnlyByTimerTrapOrCsrWrite := by
  intro s t h hne
  obtain ⟨w, u, i, v, _, hf, hd, he, hretire⟩ := step_next h
  have hfetches : Fetches s i u := ⟨w, hf, hd⟩
  obtain ⟨txs, rfl⟩ := fetch_addIo hf
  obtain ⟨_, _, _, _, _, _, _, _, _, ⟨_, _, _, _, hcause⟩ | ⟨_, _, hpc, _, hcause, hmie, hmtvec⟩⟩ :=
    retire_frame hretire
  · refine .inr ⟨i, _, hfetches, by_contra fun hi => hne ?_⟩
    rw [hcause, (exec_next he).mcause hi, addIo_mcause]
  · exact .inl ⟨hcause, hmie, hpc.trans hmtvec.symm⟩

end Sys2Proof.Machine

/-! # What no instruction touches (10_state.md) -/

namespace Sys2Proof.Machine

theorem step_keeps_other_registers {s t : State} (h : step s = .next t) :
    ∃ i u, Fetches s i u ∧ ∀ r, destination i ≠ some r → t.x r = s.x r := by
  obtain ⟨w, u, i, v, _, hf, hd, he, hretire⟩ := step_next h
  have hfetches : Fetches s i u := ⟨w, hf, hd⟩
  obtain ⟨txs, rfl⟩ := fetch_addIo hf
  obtain ⟨_, hregs, _⟩ := retire_frame hretire
  exact ⟨i, _, hfetches, fun r hr => (x_of_forced hregs r).trans ((exec_next he).regs r hr)⟩

/-- Settles O55: the frame of the instruction, which fetch and retirement keep. -/
theorem onlyDestinationRegisterIsWritten : Obligations.OnlyDestinationRegisterIsWritten :=
  ⟨fun s v r => ⟨x_zero s, by simp [x_setX], x_forceX0 s r⟩, fun _ _ _ he => (exec_next he).regs,
    fun _ _ h => ⟨step_next_x0 h, step_keeps_other_registers h⟩⟩

/-- Settles O56: the frame of every instruction that completes. -/
theorem otherInstructionsKeepCsrs : Obligations.OtherInstructionsKeepCsrs :=
  fun _ _ _ hcsr hmret he => (exec_next he).csrs hcsr hmret

/-- Settles O57: what memory traffic an instruction that completes can have made. -/
theorem onlyMemoryInstructionsAccessMemory : Obligations.OnlyMemoryInstructionsAccessMemory := by
  intro i s t he
  obtain ⟨txs, hio, htraffic⟩ := (exec_next he).traffic
  exact ⟨(exec_next he).run, htraffic.mem, fun hs hl => by rw [hio, htraffic.quiet hs hl, List.nil_append]⟩

/-! ## Updates no CSR shows

An update that leaves every CSR's value and commutes with the CSR writes commutes with the CSR instructions. -/

structure CsrNeutral (f : State → State) : Prop where
  value       : ∀ s c, (f s).csrValue c = s.csrValue c
  setStatus   : ∀ s a b c, { f s with statusMIE := a, statusMPIE := b, statusMPP := c } =
    f { s with statusMIE := a, statusMPIE := b, statusMPP := c }
  setMie      : ∀ s v, { f s with mie := v } = f { s with mie := v }
  setMtvec    : ∀ s v, { f s with mtvec := v } = f { s with mtvec := v }
  setMscratch : ∀ s v, { f s with mscratch := v } = f { s with mscratch := v }
  setMepc     : ∀ s v, { f s with mepc := v } = f { s with mepc := v }
  setMcause   : ∀ s v, { f s with mcause := v } = f { s with mcause := v }
  setMtval    : ∀ s v, { f s with mtval := v } = f { s with mtval := v }
  setMip      : ∀ s v, { f s with mip := v } = f { s with mip := v }

namespace CsrNeutral

variable {f : State → State}

theorem csrRead (h : CsrNeutral f) (s : State) (n : CsrNum) (inst : Word) :
    (f s).csrRead n inst = s.csrRead n inst := by
  cases hc : csrOf n with
  | none => simp only [State.csrRead, hc]
  | some c => rw [csrRead_some inst hc, csrRead_some inst hc, h.value]

theorem csrWrite (h : CsrNeutral f) (s : State) (n : CsrNum) (v inst : Word) :
    (f s).csrWrite n v inst = (s.csrWrite n v inst).map f := by
  unfold State.csrWrite
  cases csrOf n with
  | none => rfl
  | some c =>
    cases c with
    | mstatus => simp only [setMstatus_eq, h.setStatus]; rfl
    | mie => simp only [h.setMie]; rfl
    | mtvec => simp only [h.setMtvec]; rfl
    | mscratch => simp only [h.setMscratch]; rfl
    | mepc => simp only [h.setMepc]; rfl
    | mcause => simp only [h.setMcause]; rfl
    | mtval => simp only [h.setMtval]; rfl
    | mip => simp only [h.setMip]; rfl
    | mvendorid | marchid | mimpid | mhartid => rfl

end CsrNeutral

/-- The state with another reservation, as an update. -/
def State.putReservation (r : Option Word) (s : State) : State := { s with reservation := r }

/-- The state in another mode, as an update. -/
def State.putMode (m : Priv) (s : State) : State := { s with mode := m }

theorem neutral_putReservation (r : Option Word) : Neutral (State.putReservation r) := by
  constructor <;> intros <;> rfl

theorem neutral_putMode (m : Priv) : Neutral (State.putMode m) := by
  constructor <;> intros <;> rfl

theorem csrNeutral_putReservation (r : Option Word) : CsrNeutral (State.putReservation r) := by
  constructor
  case value => intro s c; cases c <;> rfl
  all_goals intros; rfl

theorem csrNeutral_putMode (m : Priv) : CsrNeutral (State.putMode m) := by
  constructor
  case value => intro s c; cases c <;> rfl
  all_goals intros; rfl

/-- Settles O35: the reservation is neutral for everything but LR.W and SC.W. -/
theorem reservationIsPrivateToLrAndSc : Obligations.ReservationIsPrivateToLrAndSc := by
  intro i s r hi
  have hcsr := csrNeutral_putReservation r
  refine exec_neutral (neutral_putReservation r) i s (fun h => absurd (hi.symm.trans h) Bool.false_ne_true)
    (fun n inst _ => ⟨hcsr.csrRead s n inst, fun v => hcsr.csrWrite s n v inst⟩) fun _ => ?_
  simp only [State.returnFromTrap, privilegeField_toNat, State.putReservation]
  rfl

/-- Settles O51: the mode is neutral for everything but the return from a trap. -/
theorem privilegeModeGatesNothing : Obligations.PrivilegeModeGatesNothing := by
  intro i s m hi
  have hcsr := csrNeutral_putMode m
  exact exec_neutral (neutral_putMode m) i s (fun _ _ => ⟨rfl, fun _ => rfl⟩)
    (fun n inst _ => ⟨hcsr.csrRead s n inst, fun v => hcsr.csrWrite s n v inst⟩) fun h => absurd h hi

end Sys2Proof.Machine
